-- ==== Sys2Proof/Word.lean ====
section
/-! DEFINITION. The word type of the block: 32-bit values (00_scope.md R11), and the bytes a host may view a word as. -/

namespace Sys2Proof

/-- The register, polynomial, argument and bus data width `W` = 32 (00_scope.md R9, R11). -/
abbrev Word := BitVec 32

/-- One byte lane of a bus word (20_memory.md R52). -/
abbrev Byte := BitVec 8

end Sys2Proof
end

