-- ==== Sys2Proof/Syntax.lean ====
section
/-! DEFINITION. The commands of the block: one constructor for each row of spec/opcode_table.json (30_encoding.md R72).
A command carries the operands its word holds (30_encoding.md R74); the others are read from LARG0 to LARG2 and READY. -/

namespace Sys2Proof

/-- The ten encodings of 30_encoding.md R72. A tap is an exponent, a number (00_scope.md R9); that it is at most 31
is `WellFormed`. Ignored bits select nothing (30_encoding.md R75), so no command carries them. -/
inductive Instr where
  /-- BuildPolynomial with 1 tap (40_polynomial.md R100). -/
  | buildpoly1 (t0 : Nat)
  /-- BuildPolynomial with 2 taps. -/
  | buildpoly2 (t0 t1 : Nat)
  /-- BuildPolynomial with 3 taps. -/
  | buildpoly3 (t0 t1 t2 : Nat)
  /-- BuildPolynomial with 4 taps. -/
  | buildpoly4 (t0 t1 t2 t3 : Nat)
  /-- BuildPolynomial with 5 taps. -/
  | buildpoly5 (t0 t1 t2 t3 t4 : Nat)
  /-- GetMaximalLengthPolynomial (40_polynomial.md R103). -/
  | mlpoly
  /-- GetRequiredStateSize (41_engine.md R125). -/
  | statesize
  /-- Initialize (41_engine.md R126). -/
  | init
  /-- Reset, the command (41_engine.md R129). -/
  | reset
  /-- Generate (41_engine.md R132). -/
  | generate
  deriving DecidableEq, Repr

/-- The taps a command's word holds, in field order (30_encoding.md R74). -/
def Instr.taps : Instr → List Nat
  | .buildpoly1 t0 => [t0]
  | .buildpoly2 t0 t1 => [t0, t1]
  | .buildpoly3 t0 t1 t2 => [t0, t1, t2]
  | .buildpoly4 t0 t1 t2 t3 => [t0, t1, t2, t3]
  | .buildpoly5 t0 t1 t2 t3 t4 => [t0, t1, t2, t3, t4]
  | .mlpoly => []
  | .statesize => []
  | .init => []
  | .reset => []
  | .generate => []

/-- The opcode field OP of a command (30_encoding.md R72). -/
def Instr.opcode : Instr → Nat
  | .buildpoly1 _ => 0x1
  | .buildpoly2 _ _ => 0x1
  | .buildpoly3 _ _ _ => 0x1
  | .buildpoly4 _ _ _ _ => 0x1
  | .buildpoly5 _ _ _ _ _ => 0x1
  | .mlpoly => 0x2
  | .statesize => 0x3
  | .init => 0x4
  | .reset => 0x5
  | .generate => 0x6

/-- The mnemonic of a command as spec/opcode_table.json spells it (30_encoding.md R72). -/
def Instr.mnemonic : Instr → String
  | .buildpoly1 _ => "BUILDPOLY1"
  | .buildpoly2 _ _ => "BUILDPOLY2"
  | .buildpoly3 _ _ _ => "BUILDPOLY3"
  | .buildpoly4 _ _ _ _ => "BUILDPOLY4"
  | .buildpoly5 _ _ _ _ _ => "BUILDPOLY5"
  | .mlpoly => "MLPOLY"
  | .statesize => "STATESIZE"
  | .init => "INIT"
  | .reset => "RESET"
  | .generate => "GENERATE"

end Sys2Proof
end

