-- ==== Sys2Proof/WellFormed.lean ====
section
/-! DEFINITION. Which commands the block can be given: every tap exponent lies in [0,31] (30_encoding.md R71). Distinct
taps are not required (40_polynomial.md R101). -/

namespace Sys2Proof

/-- A command is well formed when every tap it holds fits its 5-bit field (30_encoding.md R71). -/
abbrev WellFormed (i : Instr) : Prop := ∀ t ∈ i.taps, t < 32

end Sys2Proof
end

