-- ==== Sys2Proof/Decode.lean ====
section
/-! DEFINITION. The decoder of command words, total over all 2^32 words (30_encoding.md R73), the encoder (R77), the
disassembly (R80) and the byte lanes of a word (20_memory.md R52). -/

namespace Sys2Proof

/-- Why a word is no command (30_encoding.md R75). -/
inductive DecodeError where
  /-- OP = 0x0 or OP = 0x7 to 0xF. -/
  | reservedOpcode (op : Nat)
  /-- OP = 0x1 with CNT = 0, 6 or 7. -/
  | reservedCount (cnt : Nat)
  deriving DecidableEq, Repr

/-- The field OP, bits [3:0] (30_encoding.md R70). -/
def opField (w : Word) : Nat := (w.extractLsb' 0 4).toNat

/-- The field CNT, bits [6:4], of Format B (30_encoding.md R70). -/
def cntField (w : Word) : Nat := (w.extractLsb' 4 3).toNat

/-- The tap field Tj, bits [11+5j : 7+5j], of Format B, read as an unsigned number (30_encoding.md R70, R71). -/
def tapField (w : Word) (j : Nat) : Nat := (w.extractLsb' (7 + 5 * j) 5).toNat

/-- Decoding of a Format B word by its CNT (30_encoding.md R72). Tap fields at index CNT or above are not read. -/
def decodeFormatB (w : Word) : Except DecodeError Instr :=
  match cntField w with
  | 1 => .ok (.buildpoly1 (tapField w 0))
  | 2 => .ok (.buildpoly2 (tapField w 0) (tapField w 1))
  | 3 => .ok (.buildpoly3 (tapField w 0) (tapField w 1) (tapField w 2))
  | 4 => .ok (.buildpoly4 (tapField w 0) (tapField w 1) (tapField w 2) (tapField w 3))
  | 5 => .ok (.buildpoly5 (tapField w 0) (tapField w 1) (tapField w 2) (tapField w 3) (tapField w 4))
  | cnt => .error (.reservedCount cnt)

/-- The decoder of 30_encoding.md R73. Bits [31:4] of a Format N word are ignored (R70). -/
def decode (w : Word) : Except DecodeError Instr :=
  match opField w with
  | 0x1 => decodeFormatB w
  | 0x2 => .ok .mlpoly
  | 0x3 => .ok .statesize
  | 0x4 => .ok .init
  | 0x5 => .ok .reset
  | 0x6 => .ok .generate
  | op => .error (.reservedOpcode op)

/-- The tap fields of a Format B word, the first at bit `lo`, 5 bits each (30_encoding.md R70). -/
def encodeTaps (lo : Nat) : List Nat → Word
  | [] => 0#32
  | t :: ts => (BitVec.ofNat 32 t <<< lo) ||| encodeTaps (lo + 5) ts

/-- The Format B word of 30_encoding.md R77 for a list of taps, CNT being their number; unused tap fields are 0. -/
def encodeFormatB (taps : List Nat) : Word :=
  0x1#32 ||| (BitVec.ofNat 32 taps.length <<< 4) ||| encodeTaps 7 taps

/-- The canonical word of a command, ignored bits 0 (30_encoding.md R77). -/
def encode : Instr → Word
  | .buildpoly1 t0 => encodeFormatB [t0]
  | .buildpoly2 t0 t1 => encodeFormatB [t0, t1]
  | .buildpoly3 t0 t1 t2 => encodeFormatB [t0, t1, t2]
  | .buildpoly4 t0 t1 t2 t3 => encodeFormatB [t0, t1, t2, t3]
  | .buildpoly5 t0 t1 t2 t3 t4 => encodeFormatB [t0, t1, t2, t3, t4]
  | .mlpoly => 0x2#32
  | .statesize => 0x3#32
  | .init => 0x4#32
  | .reset => 0x5#32
  | .generate => 0x6#32

/-- The mask of a command's row in spec/opcode_table.json: the bits that select it. -/
def tableMask : Instr → Word
  | .buildpoly1 _ => 0x7F#32
  | .buildpoly2 _ _ => 0x7F#32
  | .buildpoly3 _ _ _ => 0x7F#32
  | .buildpoly4 _ _ _ _ => 0x7F#32
  | .buildpoly5 _ _ _ _ _ => 0x7F#32
  | .mlpoly => 0xF#32
  | .statesize => 0xF#32
  | .init => 0xF#32
  | .reset => 0xF#32
  | .generate => 0xF#32

/-- The match value of a command's row in spec/opcode_table.json. -/
def tableMatch : Instr → Word
  | .buildpoly1 _ => 0x11#32
  | .buildpoly2 _ _ => 0x21#32
  | .buildpoly3 _ _ _ => 0x31#32
  | .buildpoly4 _ _ _ _ => 0x41#32
  | .buildpoly5 _ _ _ _ _ => 0x51#32
  | .mlpoly => 0x2#32
  | .statesize => 0x3#32
  | .init => 0x4#32
  | .reset => 0x5#32
  | .generate => 0x6#32

/-- The bits of a command's word that mean something: those that select it and its tap fields (30_encoding.md R70).
The others are ignored. -/
def meaningfulBits : Instr → Word
  | .buildpoly1 _ => 0x00000FFF#32
  | .buildpoly2 _ _ => 0x0001FFFF#32
  | .buildpoly3 _ _ _ => 0x003FFFFF#32
  | .buildpoly4 _ _ _ _ => 0x07FFFFFF#32
  | .buildpoly5 _ _ _ _ _ => 0xFFFFFFFF#32
  | .mlpoly => 0xF#32
  | .statesize => 0xF#32
  | .init => 0xF#32
  | .reset => 0xF#32
  | .generate => 0xF#32

/-- Byte `k` of a word as a byte-addressed host sees it: bits [8k+7 : 8k], little-endian (20_memory.md R52). -/
def byteLane (w : Word) (k : Nat) : Byte := w.extractLsb' (8 * k) 8

/-- The four bytes of a word, the lowest address first (20_memory.md R52). -/
def wordBytes (w : Word) : List Byte := [byteLane w 0, byteLane w 1, byteLane w 2, byteLane w 3]

/-- The word of four byte lanes, the lowest address first (20_memory.md R52). -/
def wordOfBytes (b0 b1 b2 b3 : Byte) : Word := b3 ++ b2 ++ b1 ++ b0

/-- The command word of an opcode-table row's bits `w`, of which the table gives `nbits`; every bit above is 0. One
command is one 32-bit word (30_encoding.md R76). -/
def tableWord (nbits w : Nat) : Word := BitVec.ofNat 32 (w % 2 ^ nbits)

/-- The command the decoder reads from a word numbered as spec/opcode_table.json numbers its bits. -/
def decodeTableWord (nbits w : Nat) : Option Instr :=
  match decode (tableWord nbits w) with
  | .ok i => some i
  | .error _ => none

/-- The taps of a disassembled BUILDPOLY, separated by commas (30_encoding.md R80). -/
def tapsText : List Nat → String
  | [] => ""
  | [t] => toString t
  | t :: ts => toString t ++ "," ++ tapsText ts

/-- Disassembly of a command word, total (30_encoding.md R80). The digits of an illegal word are DESIGN CHOICE (log 21). -/
def disassemble (w : Word) : String :=
  match decode w with
  | .ok i => match i.taps with
    | [] => i.mnemonic
    | taps => i.mnemonic ++ " " ++ tapsText taps
  | .error _ => "ILLEGAL 0x" ++ String.ofList (Nat.toDigits 16 w.toNat)

end Sys2Proof
end

