-- ==== Sys2Proof/Config.lean ====
section
/-! DEFINITION. What the spec leaves open: the parameters marked OPEN (00_scope.md R9) and the free values of
93_implementation_defined.md. Each is a constant with no body, so no proof can learn its value. -/

namespace Sys2Proof

/-- `PN_BASE`, the base address of the register window: an open parameter (10_state.md R30, 92 D2, 93 U4). Log 12. -/
opaque Config.pnBase : Nat

/-- `RST_SYNC`, whether hardware reset is synchronous: an open parameter, and no rule depends on it
(10_state.md R33, 70_reset_and_hazards.md R180, 92 D30, 93 U5). Log 12. -/
opaque Config.rstSync : Bool

/-- What a read of the window offset `off` returns for a part that is unspecified while STATUS.BUSY = 1
(70_reset_and_hazards.md R186, 93 U1). The second argument is the model's counter of progress. Log 5. -/
opaque Config.freeBusyRead (off index : Nat) : Word

/-- `pn_out_data` while `pn_out_valid = 0` (10_state.md R39, 93 U9): any value, never sampled. Log 6. -/
opaque Config.freePnOutData (index : Nat) : Bool

/-- What a host writes under a name that no earlier `RD` has given a value (30_encoding.md R78; log 23). -/
opaque Config.freeNamedWord (name : String) (index : Nat) : Word

end Sys2Proof
end

