-- ==== Sys2Proof/Machine/State.lean ====
section
/-! DEFINITION. The state of the block, plain data: the engine state (10_state.md section 1), the host-visible registers
(sections 2 and 3), the hidden state of a command in progress (section 4), the ports, the host agent and the record of a
run; and the state after hardware reset (section 5). -/

namespace Sys2Proof.Machine

/-- The values STATUS.CODE can hold (60_exceptions.md R160). The value 3 is never produced, so it has no name. -/
inductive StatusCode where
  /-- 0: the command did all its writes. -/
  | ok
  /-- 1: the arguments or the engine state violated a precondition. -/
  | invalidArgument
  /-- 2: the command word encodes no command. -/
  | illegalCommand
  deriving DecidableEq, Repr

/-- The two agents of 70_reset_and_hazards.md R190; several hosts are one merged list of actions (log 13). -/
inductive Agent where
  | block
  | host
  deriving DecidableEq, Repr

/-- A host access at a byte offset of the 64-byte window, `width` bytes wide (20_memory.md R50). -/
inductive Access where
  | read (off : Fin 64) (width : Nat)
  | write (off : Fin 64) (width : Nat) (data : Word)
  deriving DecidableEq, Repr

/-- What a host access is answered with (20_memory.md R50). -/
inductive Response where
  /-- The data of a legal read. -/
  | data (w : Word)
  /-- The acknowledgement of a legal write. -/
  | ack
  /-- The error response of an illegal access (20_memory.md R51); no data. -/
  | error
  deriving DecidableEq, Repr

/-- The registers of the window (10_state.md R30). -/
inductive WindowReg where
  | cmd | arg0 | arg1 | arg2 | status | result | poly | order | lfsr | seed | reserved
  deriving DecidableEq, Repr

/-- A number of beats: written out, or the named result of an earlier statement (30_encoding.md R78). -/
inductive Count where
  | lit (k : Nat)
  | name (x : String)
  deriving DecidableEq, Repr

/-- What a name of a host program stands for: the data of a `RD`, or the bits of a `TAKE` in order (30_encoding.md R78). -/
inductive Named where
  | word (w : Word)
  | bits (bs : List Bool)
  deriving DecidableEq, Repr

/-- What the host, or whoever drives the ports, does next (60_exceptions.md R170; log 2, log 14). -/
inductive HostAction where
  /-- One bus access (20_memory.md R50). -/
  | access (a : Access)
  /-- `RD reg -> x`: one legal read, its result named for later statements (30_encoding.md R78). -/
  | readAs (reg : WindowReg) (x : String)
  /-- `WR reg, x`: one legal write of the value the name stands for (30_encoding.md R78). -/
  | writeNamed (reg : WindowReg) (x : String)
  /-- `WAIT`: read STATUS until a read returns BUSY = 0 (30_encoding.md R78). -/
  | waitIdle
  /-- `TAKE k -> x`: the name starts with no bits, and `k` beats are to be taken (30_encoding.md R78; log 14). -/
  | takeCount (k : Count) (x : String)
  /-- Assert `pn_out_ready` until one beat has transferred; its bit joins the bits so named, if it is to be named
  (30_encoding.md R78, 10_state.md R33). -/
  | take (x : Option String)
  /-- Drive `rst_n` to a level: false is low, asserted (10_state.md R33, 70_reset_and_hazards.md R180). -/
  | rstN (level : Bool)
  deriving DecidableEq, Repr

/-- Everything the spec gives the block, and the model's own fields `begun`, `work`, `host`, `sched`, `responses`, `taken`,
`names` and `freeIdx` (INVENTORY.md, State). -/
structure State where
  /-- POLY (10_state.md R21). -/
  poly : Word
  /-- ORDER, 5 bits (10_state.md R22). -/
  order : BitVec 5
  /-- LFSR (10_state.md R23). -/
  lfsr : Word
  /-- SEED (10_state.md R25). -/
  seed : Word
  /-- READY (10_state.md R24); STATUS.READY is a copy of it. -/
  ready : Bool
  /-- ARG0 (10_state.md R31). -/
  arg0 : Word
  /-- ARG1 (10_state.md R31). -/
  arg1 : Word
  /-- ARG2 (10_state.md R31). -/
  arg2 : Word
  /-- RESULT (10_state.md R35). -/
  result : Word
  /-- STATUS.CODE (10_state.md R34). -/
  code : StatusCode
  /-- STATUS.BUSY (10_state.md R34). -/
  busy : Bool
  /-- STATUS.OVR (10_state.md R34). -/
  ovr : Bool
  /-- LCMD, the accepted command word (10_state.md R38). -/
  lcmd : Word
  /-- LARG0 (10_state.md R38). -/
  larg0 : Word
  /-- LARG1 (10_state.md R38). -/
  larg1 : Word
  /-- LARG2 (10_state.md R38). -/
  larg2 : Word
  /-- REMAIN, the single-bit advances still to perform (10_state.md R38; a Nat, log 17). -/
  remain : Nat
  /-- Whether the command in progress has passed its checks and entered its loop (log 3). -/
  begun : Bool
  /-- The local register `r` of INIT during the pre-shift (41_engine.md R126; log 4). -/
  work : Word
  /-- The level of `rst_n`: true is high, released (10_state.md R33). -/
  rstN : Bool
  /-- `pn_out_valid` and `pn_out_data`: `some b` is valid = 1 with data b (10_state.md R33; log 6). -/
  pnOut : Option Bool
  /-- The host's pending actions, in arrival order (70_reset_and_hazards.md R190; log 2). -/
  host : List HostAction
  /-- Which agent moves next; when empty the block moves if it can, else the host (log 2). -/
  sched : List Agent
  /-- The responses the host received, oldest first (70_reset_and_hazards.md R192). -/
  responses : List Response
  /-- The bits the host took from `pn_out`, oldest first (70_reset_and_hazards.md R192). -/
  taken : List Bool
  /-- What the names of the host's program stand for, the last named first, each name once (30_encoding.md R78; log 23). -/
  names : List (String × Named)
  /-- The counter that indexes the free values (93 U1, U9; log 5). -/
  freeIdx : Nat
  deriving DecidableEq, Repr

/-- There is no reason for the block to stop with a fault: it has no traps (60_exceptions.md R163), and an illegal access
gets an error response and the machine goes on (20_memory.md R51; log 9). -/
inductive Fault where
  deriving DecidableEq, Repr

/-- The reasons a step can be refused. -/
inductive Refusal where
  /-- An instruction that has no meaning yet. Raised by no arm of this model. Safe. -/
  | notModelled (mnemonic : String)
  /-- A legal access while `rst_n` is asserted, which is outside the model: its response is unspecified
  (70_reset_and_hazards.md R180, 93 U6 `refuse`). Raised by `busAccess`. Safe. Log 7. -/
  | accessDuringReset
  deriving DecidableEq, Repr

/-- The state after hardware reset, with no action pending (10_state.md R39, 70_reset_and_hazards.md R191). The values of
`lcmd`, `larg0` to `larg2`, `remain`, `begun` and `work` are DESIGN CHOICE (log 1), those of the host's and the model's
own fields too (log 10). -/
def State.reset : State where
  poly := 0#32
  order := 0#5
  lfsr := 0#32
  seed := 0#32
  ready := false
  arg0 := 0#32
  arg1 := 0#32
  arg2 := 0#32
  result := 0#32
  code := .ok
  busy := false
  ovr := false
  lcmd := 0#32
  larg0 := 0#32
  larg1 := 0#32
  larg2 := 0#32
  remain := 0
  begun := false
  work := 0#32
  rstN := true
  pnOut := none
  host := []
  sched := []
  responses := []
  taken := []
  names := []
  freeIdx := 0

/-- The outcome of a step or of a command's meaning. -/
abbrev Result := Host.Outcome State Fault Refusal

end Sys2Proof.Machine
end

