-- ==== Sys2Proof/Machine/Operands.lean ====
section
/-! DEFINITION. The operands of each command and how each is read (30_encoding.md R74). The taps of BUILDPOLY stand in the
command itself (`Instr.taps`). -/

namespace Sys2Proof.Machine

/-- MLPOLY's `order`: LARG0, unsigned. -/
def mlpolyOrder (s : State) : Word := s.larg0

/-- INIT's `polynomial`: LARG0, a bitmask. -/
def initPolynomial (s : State) : Word := s.larg0

/-- INIT's `shift`: LARG1, an unsigned count. -/
def initShift (s : State) : Nat := s.larg1.toNat

/-- INIT's `initialValue`: LARG2, the raw value (92 D11). -/
def initValue (s : State) : Word := s.larg2

/-- GENERATE's `n`: `s32(LARG1)`, two's-complement signed (92 D27). -/
def generateCount (s : State) : Int := s.larg1.toInt

end Sys2Proof.Machine
end

