-- ==== Sys2Proof/Machine/Bits.lean ====
section
/-! DEFINITION. The bit-level notation of 00_scope.md: parity (R13), highest set bit (R12), mask (R14), popcount (R13). -/

namespace Sys2Proof.Machine

/-- The XOR of the bits `x[0]` to `x[n-1]`. -/
def xorBelow (x : Word) : Nat → Bool
  | 0 => false
  | n + 1 => xorBelow x n ^^ x.getLsbD n

/-- `parity(x) = x[0] ^ x[1] ^ ... ^ x[31]` (00_scope.md R13). -/
def parity (x : Word) : Bool := xorBelow x 32

/-- The highest set bit of `x` below bit `n`, and 0 where there is none. -/
def hsbBelow (x : Word) : Nat → Nat
  | 0 => 0
  | n + 1 => if x.getLsbD n then n else hsbBelow x n

/-- `hsb(p)`, the index of the highest set bit (00_scope.md R12). No rule evaluates it at 0. -/
def hsb (p : Word) : Nat := hsbBelow p 32

/-- `mask(k) = (1 << k) - 1` for `k` in 0..31 (00_scope.md R14). -/
def mask (k : Nat) : Word := (1#32 <<< k) - 1#32

/-- The number of set bits of `x` below bit `n`. -/
def popcountBelow (x : Word) : Nat → Nat
  | 0 => 0
  | n + 1 => popcountBelow x n + (x.getLsbD n).toNat

/-- `popcount(x)`, the number of set bits (00_scope.md R13). -/
def popcount (x : Word) : Nat := popcountBelow x 32

/-- One bit as a word, `zext_32` (00_scope.md R11). -/
def bitWord (b : Bool) : Word := (BitVec.ofBool b).setWidth 32

end Sys2Proof.Machine
end

