-- ==== Sys2Proof/Machine/Advance.lean ====
section
/-! DEFINITION. The single-bit advance, the datapath of INIT and GENERATE (41_engine.md section 1). -/

namespace Sys2Proof.Machine

/-- The feedback XOR tree: `parity(r & p)`, from the register before the shift (41_engine.md R121). -/
def feedback (r p : Word) : Bool := parity (r &&& p)

/-- The next register of `ADVANCE(r, p, k)`: shift right by one, the feedback bit enters at bit `k - 1`
(41_engine.md R120, R122). At `k = 0`, which no run reaches (10_state.md R26), the bit would enter at bit 0 (log 15). -/
def advance (r p : Word) (k : Nat) : Word := (r >>> 1) ||| (bitWord (feedback r p) <<< (k - 1))

/-- The output bit of `ADVANCE(r, p, k)`: the departing bit `r[0]` (41_engine.md R120). -/
def departing (r : Word) : Bool := r.getLsbD 0

/-- The register after `n` advances from `r` (41_engine.md R126 step 4, R137). -/
def advanceTimes (p : Word) (k : Nat) : Nat → Word → Word
  | 0, r => r
  | n + 1, r => advanceTimes p k n (advance r p k)

/-- The output bits of `n` advances from `r`, the first emitted first (41_engine.md R132, R137). -/
def outputBits (p : Word) (k : Nat) : Nat → Word → List Bool
  | 0, _ => []
  | n + 1, r => departing r :: outputBits p k n (advance r p k)

end Sys2Proof.Machine
end

