-- ==== Sys2Proof/Machine/Ops.lean ====
section
/-! DEFINITION. The operations over State that the commands, the bus and the ports share: a command's acceptance and
completion (20_memory.md R58), the output beat (10_state.md R33), hardware reset (70_reset_and_hazards.md R180), and the
record of the host's responses. -/

namespace Sys2Proof.Machine

/-- Completion with a status code, `ok()` or `fail(C)`: CODE is written, BUSY is cleared (20_memory.md R58, 00_scope.md R15).
This is how every failure is reported: no trap, no saved state, no other effect (60_exceptions.md R163). -/
def complete (c : StatusCode) (s : State) : State := { s with code := c, busy := false }

/-- Successful completion of a command that returns a value (10_state.md R35). -/
def returnValue (v : Word) (s : State) : State := complete .ok { s with result := v }

/-- Acceptance of the command word `v` (20_memory.md R58): LCMD and LARG0 to LARG2 are latched, OVR is cleared, BUSY set. -/
def accept (v : Word) (s : State) : State :=
  { s with lcmd := v, larg0 := s.arg0, larg1 := s.arg1, larg2 := s.arg2, ovr := false, busy := true, begun := false }

/-- A CMD write dropped because BUSY = 1 sets OVR and does nothing else (20_memory.md R59). -/
def dropCommand (s : State) : State := { s with ovr := true }

/-- A command has passed its checks and has `n` single-bit advances to perform (10_state.md R38, REMAIN): their number is
fixed here, by the command's argument, and only counts down from here on (60_exceptions.md R171). -/
def enterLoop (n : Nat) (s : State) : State := { s with begun := true, remain := n }

/-- INIT's local register takes a value (41_engine.md R126; log 4). -/
def setWork (r : Word) (s : State) : State := { s with work := r }

/-- LFSR takes SEED (41_engine.md R129). -/
def rewind (s : State) : State := { s with lfsr := s.seed }

/-- The host's pending actions are now `rest`. -/
def withHost (rest : List HostAction) (s : State) : State := { s with host := rest }

/-- ARG0 takes a written value (10_state.md R31). -/
def setArg0 (v : Word) (s : State) : State := { s with arg0 := v }

/-- ARG1 takes a written value (10_state.md R31). -/
def setArg1 (v : Word) (s : State) : State := { s with arg1 := v }

/-- ARG2 takes a written value (10_state.md R31). -/
def setArg2 (v : Word) (s : State) : State := { s with arg2 := v }

/-- One advance of INIT's local register with INIT's polynomial `p` and order `k` (41_engine.md R126, step 4). -/
def preShift (p : Word) (k : Nat) (s : State) : State :=
  { s with work := advance s.work p k, remain := s.remain - 1 }

/-- The engine writes at INIT's end: POLY, ORDER, LFSR, SEED, READY (41_engine.md R126). -/
def construct (p : Word) (k : Nat) (r : Word) (s : State) : State :=
  { s with poly := p, order := BitVec.ofNat 5 k, lfsr := r, seed := r, ready := true }

/-- One advance of GENERATE: LFSR advances and the departing bit is offered on `pn_out` (41_engine.md R132). -/
def advanceAndOffer (s : State) : State :=
  { s with lfsr := advance s.lfsr s.poly s.order.toNat, pnOut := some (departing s.lfsr), remain := s.remain - 1 }

/-- `pn_out_valid` (10_state.md R33). -/
def pnOutValid (s : State) : Bool := s.pnOut.isSome

/-- `pn_out_data`: the offered bit, and a free value while `pn_out_valid = 0` (10_state.md R33, R39, 93 U9). -/
def pnOutData (s : State) : Bool := s.pnOut.getD (Config.freePnOutData s.freeIdx)

/-- The offered beat transfers to the host, who takes the bit `b` (10_state.md R33). -/
def transferBeat (b : Bool) (s : State) : State := { s with pnOut := none, taken := s.taken ++ [b] }

/-- The model's counter of free values moves on: something other than a read has happened (log 5). -/
def progress (s : State) : State := { s with freeIdx := s.freeIdx + 1 }

/-- What a turn of the block with a command in progress starts from: the command makes progress unless a beat is on offer,
since the block then has no step of its own (70_reset_and_hazards.md R190, 20_memory.md R53; log 5). -/
def beginStep (s : State) : State := if s.pnOut.isSome then s else progress s

/-- A response reaches the host (20_memory.md R50, 70_reset_and_hazards.md R192). -/
def respond (r : Response) (s : State) : State := { s with responses := s.responses ++ [r] }

/-- Hardware reset with `rst_n` then at `level`: every element of the block takes its value of 10_state.md R39 and a
command in progress is abandoned; what the host has received, and what it will do, is not the block's (70 R180; log 7, log 16). -/
def hardwareReset (level : Bool) (s : State) : State :=
  { State.reset with
    rstN := level, host := s.host, sched := s.sched, responses := s.responses, taken := s.taken, names := s.names,
    freeIdx := s.freeIdx + 1 }

end Sys2Proof.Machine
end

