-- ==== Sys2Proof/Machine/Rom.lean ====
section
/-! DEFINITION. The polynomial table ROM (10_state.md R29, 40_polynomial.md R104) with this hardware's contents REF_TABLE
(R106; log 11), and the constant STATE_SIZE (41_engine.md R125). -/

namespace Sys2Proof.Machine

/-- REF_TABLE: the entry for order `o` stands at index `o - 3` (40_polynomial.md R104, R106). -/
def refTable : List Word :=
  [0x0000000D#32, 0x00000019#32, 0x00000029#32, 0x00000061#32, 0x000000C1#32, 0x00000171#32, 0x00000221#32] ++
  [0x00000481#32, 0x00000A01#32, 0x00001053#32, 0x0000201B#32, 0x0000402B#32, 0x0000C001#32, 0x0001A011#32] ++
  [0x00024001#32, 0x00040801#32, 0x00080047#32, 0x00120001#32, 0x00280001#32, 0x00600001#32, 0x00840001#32] ++
  [0x01C20001#32, 0x02400001#32, 0x04000047#32, 0x08000027#32, 0x12000001#32, 0x28000001#32, 0x40000053#32] ++
  [0x90000001#32]

/-- `ML_TABLE[o]` for an order `o` in 3..31, as a number (40_polynomial.md R104). Outside that range there is no entry. -/
def mlTable (o : Nat) : Word := refTable.getD (o - 3) 0#32

/-- What a look-up of the order `o` answers: the entry for 3..31, else 0; all 32 bits of `o` count (40_polynomial.md R103). -/
def mlLookup (o : Word) : Word :=
  if 3 ≤ o.toNat ∧ o.toNat ≤ 31 then mlTable o.toNat else 0#32

/-- `STATE_SIZE` = 16 (00_scope.md R9, 41_engine.md R125, 92 D14). -/
def stateSize : Word := 16#32

end Sys2Proof.Machine
end

