-- ==== Sys2Proof/Machine/Engine.lean ====
section
/-! DEFINITION. The commands of the LFSR engine: STATESIZE, INIT, RESET, GENERATE (41_engine.md sections 2 to 5). The
meaning of a command is its NEXT step in the state it stands in (70_reset_and_hazards.md R190; log 3): STATESIZE and RESET
are done in one; INIT and GENERATE first make their checks, then take one single-bit advance a step, then complete. -/

namespace Sys2Proof.Machine

/-- STATESIZE (41_engine.md R125). -/
def execStatesize (s : State) : Result := .next (returnValue stateSize s)

/-- INIT's checks, in the order of 41_engine.md R126, then the clamp and the entry into the pre-shift. -/
def startInit (s : State) : State :=
  if initPolynomial s = 0#32 then complete .invalidArgument s
  else if initValue s = 0#32 then complete .invalidArgument s
  else if hsb (initPolynomial s) = 0 then complete .invalidArgument s
  else enterLoop (initShift s) (setWork (initValue s &&& mask (hsb (initPolynomial s))) s)

/-- INIT's end: the engine is constructed from the pre-shifted register (41_engine.md R126, steps 3 to 5). -/
def finishInit (s : State) : State :=
  complete .ok (construct (initPolynomial s) (hsb (initPolynomial s)) s.work s)

/-- INIT (41_engine.md R126): the checks, then the pre-shift one advance a step, then the engine writes. It ends after
a fixed number of steps, with no timeout and no cancellation (60_exceptions.md R171). -/
def execInit (s : State) : Result :=
  if s.begun then
    if s.remain = 0 then .next (finishInit s)
    else .next (preShift (initPolynomial s) (hsb (initPolynomial s)) s)
  else .next (startInit s)

/-- RESET, the command: LFSR takes SEED, and fails when READY = 0 (41_engine.md R129). -/
def execReset (s : State) : Result :=
  if s.ready then .next (complete .ok (rewind s))
  else .next (complete .invalidArgument s)

/-- GENERATE's checks, in the order of 41_engine.md R132, then the entry into its loop of `n` advances. -/
def startGenerate (s : State) : State :=
  if s.ready = false then complete .invalidArgument s
  else if generateCount s < 0 then complete .invalidArgument s
  else enterLoop (generateCount s).toNat s

/-- GENERATE (41_engine.md R132): the checks; then, one a step, an advance that offers its bit, for which the command waits
until the beat has transferred (70_reset_and_hazards.md R187); then the completion. However long a beat waits there is no
timeout and no cancellation, and the number of advances is fixed by `n` (60_exceptions.md R171). -/
def execGenerate (s : State) : Result :=
  if s.begun then
    match s.pnOut with
    | some _ => .next s
    | none => if s.remain = 0 then .next (complete .ok s) else .next (advanceAndOffer s)
  else .next (startGenerate s)

end Sys2Proof.Machine
end

