-- ==== Sys2Proof/Machine/Polynomial.lean ====
section
/-! DEFINITION. The commands of the polynomial builder: BUILDPOLY1 to BUILDPOLY5 and MLPOLY (40_polynomial.md). -/

namespace Sys2Proof.Machine

/-- The OR of `1 << t` over the taps (40_polynomial.md R100). -/
def tapMask : List Nat → Word
  | [] => 0#32
  | t :: ts => (1#32 <<< t) ||| tapMask ts

/-- BUILDPOLYc: RESULT takes the taps' bitmask; no failure, no other effect (40_polynomial.md R100, R101). -/
def buildPoly (taps : List Nat) (s : State) : Result := .next (returnValue (tapMask taps) s)

/-- BUILDPOLY1 (40_polynomial.md R100). -/
def execBuildpoly1 (t0 : Nat) (s : State) : Result := buildPoly [t0] s

/-- BUILDPOLY2 (40_polynomial.md R100). -/
def execBuildpoly2 (t0 t1 : Nat) (s : State) : Result := buildPoly [t0, t1] s

/-- BUILDPOLY3 (40_polynomial.md R100). -/
def execBuildpoly3 (t0 t1 t2 : Nat) (s : State) : Result := buildPoly [t0, t1, t2] s

/-- BUILDPOLY4 (40_polynomial.md R100). -/
def execBuildpoly4 (t0 t1 t2 t3 : Nat) (s : State) : Result := buildPoly [t0, t1, t2, t3] s

/-- BUILDPOLY5 (40_polynomial.md R100). -/
def execBuildpoly5 (t0 t1 t2 t3 t4 : Nat) (s : State) : Result := buildPoly [t0, t1, t2, t3, t4] s

/-- MLPOLY: RESULT takes the ROM entry of the order in LARG0, or 0 outside 3..31; always OK (40_polynomial.md R103). -/
def execMlpoly (s : State) : Result := .next (returnValue (mlLookup (mlpolyOrder s)) s)

end Sys2Proof.Machine
end

