-- ==== Sys2Proof/Machine/Dispatch.lean ====
section
/-! DEFINITION. exec: one arm per command. -/

namespace Sys2Proof.Machine

def exec (i : Instr) (s : State) : Host.Outcome State Fault Refusal :=
  match i with
  | .buildpoly1 t0 => Sys2Proof.Machine.execBuildpoly1 t0 s
  | .buildpoly2 t0 t1 => Sys2Proof.Machine.execBuildpoly2 t0 t1 s
  | .buildpoly3 t0 t1 t2 => Sys2Proof.Machine.execBuildpoly3 t0 t1 t2 s
  | .buildpoly4 t0 t1 t2 t3 => Sys2Proof.Machine.execBuildpoly4 t0 t1 t2 t3 s
  | .buildpoly5 t0 t1 t2 t3 t4 => Sys2Proof.Machine.execBuildpoly5 t0 t1 t2 t3 t4 s
  | .mlpoly => Sys2Proof.Machine.execMlpoly s
  | .statesize => Sys2Proof.Machine.execStatesize s
  | .init => Sys2Proof.Machine.execInit s
  | .reset => Sys2Proof.Machine.execReset s
  | .generate => Sys2Proof.Machine.execGenerate s

end Sys2Proof.Machine
end

