-- ==== Sys2Proof/Machine/Names.lean ====
section
/-! DEFINITION. The names of a host program: a `RD` names its data and a `TAKE` its bits, for later statements
(30_encoding.md R78; log 23). -/

namespace Sys2Proof.Machine

/-- The names after a result `v` that is to be named `x`, if it is to be named: the latest result of a name counts. -/
def namesAfter (x : Option String) (v : Named) (names : List (String × Named)) : List (String × Named) :=
  match x with
  | none => names
  | some n => (n, v) :: names.filter fun e => e.1 != n

/-- A result is named `x`, if it is to be named. -/
def nameResult (x : Option String) (v : Named) (s : State) : State := { s with names := namesAfter x v s.names }

/-- What a name stands for. -/
def namedValue (x : String) (s : State) : Option Named := s.names.lookup x

/-- The value a name stands for in a `WR`: the data of the latest `RD` of that name, a free value where there is none
(log 23). -/
def namedWord (x : String) (s : State) : Word :=
  match namedValue x s with
  | some (.word w) => w
  | _ => Config.freeNamedWord x s.freeIdx

/-- The bits a name stands for: those of the latest `TAKE` of that name. -/
def namedBits (x : String) (s : State) : List Bool :=
  match namedValue x s with
  | some (.bits bs) => bs
  | _ => []

/-- The bits that a further beat named `x` joins. -/
def bitsSoFar (x : Option String) (s : State) : List Bool :=
  match x with
  | none => []
  | some n => namedBits n s

/-- The number of beats of a `TAKE`: the number written, or the named value read as signed, none where it is negative
(30_encoding.md R79; log 23). -/
def countOf (k : Count) (s : State) : Nat :=
  match k with
  | .lit n => n
  | .name x => (namedWord x s).toInt.toNat

end Sys2Proof.Machine
end

