-- ==== Sys2Proof/Machine/Flags.lean ====
section
/-! DEFINITION. The STATUS register: its code values and the places of its fields (10_state.md R34, 60_exceptions.md R160). -/

namespace Sys2Proof.Machine

/-- The number a status code has in STATUS.CODE (60_exceptions.md R160). -/
def codeBits : StatusCode → BitVec 2
  | .ok => 0#2
  | .invalidArgument => 1#2
  | .illegalCommand => 2#2

/-- A STATUS word of given fields: CODE at [1:0], BUSY at 4, READY at 5, OVR at 6, all other bits 0 (10_state.md R34). -/
def statusFields (code : BitVec 2) (busy ready ovr : Bool) : Word :=
  0#25 ++ BitVec.ofBool ovr ++ BitVec.ofBool ready ++ BitVec.ofBool busy ++ 0#2 ++ code

/-- The STATUS register (10_state.md R34). -/
def statusWord (s : State) : Word := statusFields (codeBits s.code) s.busy s.ready s.ovr

/-- What a STATUS read returns while BUSY = 1: BUSY and OVR exact, CODE and READY free (70_reset_and_hazards.md R186). -/
def statusWhileBusy (free : Word) (s : State) : Word :=
  statusFields (free.extractLsb' 0 2) s.busy (free.getLsbD 5) s.ovr

end Sys2Proof.Machine
end

