-- ==== Sys2Proof/Machine/Window.lean ====
section
/-! DEFINITION. The 64-byte register window: which register stands at which offset (10_state.md R30), what a legal read
returns and what a legal write does (20_memory.md R51 to R59). -/

namespace Sys2Proof.Machine

/-- The register at a byte offset of the window that is a multiple of 4 (10_state.md R30). -/
def regAt (off : Nat) : WindowReg :=
  match off with
  | 0x00 => .cmd
  | 0x04 => .arg0
  | 0x08 => .arg1
  | 0x0C => .arg2
  | 0x10 => .status
  | 0x14 => .result
  | 0x18 => .poly
  | 0x1C => .order
  | 0x20 => .lfsr
  | 0x24 => .seed
  | _ => .reserved

/-- The byte offset of a register by its name (10_state.md R30, 30_encoding.md R78). R30 gives the name reserved to
all of 0x28 to 0x3C: that `WR` and `RD` of it mean the first of these is DESIGN CHOICE (log 22). -/
def regOffset : WindowReg → Fin 64
  | .cmd => 0x00
  | .arg0 => 0x04
  | .arg1 => 0x08
  | .arg2 => 0x0C
  | .status => 0x10
  | .result => 0x14
  | .poly => 0x18
  | .order => 0x1C
  | .lfsr => 0x20
  | .seed => 0x24
  | .reserved => 0x28

/-- The host address of a window offset, `PN_BASE + off` (20_memory.md R50). -/
def hostAddress (off : Fin 64) : Nat := Config.pnBase + off.val

/-- The window offset a host address reaches; none outside the window, where the block does not answer (20_memory.md R50). -/
def windowOffset (addr : Nat) : Option (Fin 64) :=
  if h : Config.pnBase ≤ addr ∧ addr - Config.pnBase < 64 then some ⟨addr - Config.pnBase, h.2⟩ else none

/-- The only legal access is 4 bytes wide at an offset that is a multiple of 4 (20_memory.md R51). -/
def legalAccess (off width : Nat) : Bool := width == 4 && off % 4 == 0

/-- The value of a view while BUSY = 0, a free value while BUSY = 1 (10_state.md R37, 70_reset_and_hazards.md R186). -/
def exactWhenIdle (off : Nat) (v : Word) (s : State) : Word :=
  if s.busy then Config.freeBusyRead off s.freeIdx else v

/-- What a STATUS read returns (10_state.md R34, 70_reset_and_hazards.md R186). -/
def readStatus (off : Nat) (s : State) : Word :=
  if s.busy then statusWhileBusy (Config.freeBusyRead off s.freeIdx) s else statusWord s

/-- The data of a legal read of a window offset: 20_memory.md R56 for CMD and reserved offsets, 10_state.md R30 to R37. -/
def readWindow (off : Nat) (s : State) : Word :=
  match regAt off with
  | .cmd => 0#32
  | .arg0 => s.arg0
  | .arg1 => s.arg1
  | .arg2 => s.arg2
  | .status => readStatus off s
  | .result => exactWhenIdle off s.result s
  | .poly => exactWhenIdle off s.poly s
  | .order => exactWhenIdle off (s.order.setWidth 32) s
  | .lfsr => exactWhenIdle off s.lfsr s
  | .seed => exactWhenIdle off s.seed s
  | .reserved => 0#32

/-- A legal write to CMD: accepted when BUSY = 0, dropped when BUSY = 1 (20_memory.md R58, R59). -/
def writeCmd (v : Word) (s : State) : State := if s.busy then dropCommand s else accept v s

/-- A legal write of `v` to a window offset (20_memory.md R54). -/
def writeWindow (off : Nat) (v : Word) (s : State) : State :=
  match regAt off with
  | .cmd => writeCmd v s
  | .arg0 => setArg0 v s
  | .arg1 => setArg1 v s
  | .arg2 => setArg2 v s
  | .status => s
  | .result => s
  | .poly => s
  | .order => s
  | .lfsr => s
  | .seed => s
  | .reserved => s

/-- A legal read: the data goes to the host and nothing else changes (20_memory.md R53). -/
def busRead (off : Nat) (s : State) : State := respond (.data (readWindow off s)) s

/-- A legal write: it takes effect and is acknowledged (20_memory.md R50, R54). -/
def busWrite (off : Nat) (v : Word) (s : State) : State := respond .ack (progress (writeWindow off v s))

/-- A bus access. An illegal width or alignment gets an error response and has no effect (20_memory.md R51,
60_exceptions.md R165); a legal access while `rst_n` is asserted is outside the model (70_reset_and_hazards.md R180; log 7). -/
def busAccess (a : Access) (s : State) : Result :=
  match a with
  | .read off width =>
    if legalAccess off.val width then
      if s.rstN then .next (busRead off.val s) else .refused .accessDuringReset
    else .next (respond .error s)
  | .write off width data =>
    if legalAccess off.val width then
      if s.rstN then .next (busWrite off.val data s) else .refused .accessDuringReset
    else .next (respond .error s)

end Sys2Proof.Machine
end

