-- ==== Sys2Proof/Machine/HostAgent.lean ====
section
/-! DEFINITION. The host's steps (60_exceptions.md R170, 70_reset_and_hazards.md R190): the first of its pending actions. -/

namespace Sys2Proof.Machine

/-- The host after one poll of `WAIT`: the action stays pending while BUSY = 1 and is over when BUSY = 0 (30_encoding.md R78). -/
def afterPoll (rest : List HostAction) (s : State) : State := if s.busy then s else withHost rest s

/-- One poll of `WAIT`: a legal read of STATUS; the action ends when the read returns BUSY = 0 (30_encoding.md R78). -/
def pollStatus (s : State) (rest : List HostAction) : Result :=
  busAccess (.read 0x10 4) (afterPoll rest s)

/-- A `RD` names the data it is about to return (30_encoding.md R78). -/
def nameRead (reg : WindowReg) (x : String) (s : State) : State :=
  nameResult (some x) (.word (readWindow (regOffset reg).val s)) s

/-- `RD reg -> x`: a legal read of the register, its data named (30_encoding.md R78). -/
def readAs (reg : WindowReg) (x : String) (s : State) : Result := busAccess (.read (regOffset reg) 4) (nameRead reg x s)

/-- `WR reg, x`: a legal write to the register of the value the name stands for (30_encoding.md R78). -/
def writeNamed (reg : WindowReg) (x : String) (s : State) : Result :=
  busAccess (.write (regOffset reg) 4 (namedWord x s)) s

/-- `TAKE k -> x` begins: the name has no bits yet, and the beats are to be taken one by one (30_encoding.md R78; log 14). -/
def startTake (k : Count) (x : String) (rest : List HostAction) (s : State) : State :=
  nameResult (some x) (.bits []) (withHost (List.replicate (countOf k s) (.take (some x)) ++ rest) s)

/-- Waiting for one beat: a beat on offer transfers, its bit joins the bits named `x`, and the action ends; with no beat on
offer the host goes on waiting (10_state.md R33, 30_encoding.md R78; log 14). -/
def takeBeat (s : State) (x : Option String) (rest : List HostAction) : State :=
  match s.pnOut with
  | some b => progress (transferBeat b (nameResult x (.bits (bitsSoFar x s ++ [b])) (withHost rest s)))
  | none => s

/-- Driving `rst_n`: low resets and holds the block, the rising edge resets and releases it; high on high is no edge
(70_reset_and_hazards.md R180; log 7). -/
def driveRstN (level : Bool) (s : State) : State :=
  if level && s.rstN then s else hardwareReset level s

/-- The host's turn: it performs the first of its pending actions; with none pending nothing happens. -/
def hostTurn (s : State) : Result :=
  match s.host with
  | [] => .next s
  | .access a :: rest => busAccess a (withHost rest s)
  | .readAs reg x :: rest => readAs reg x (withHost rest s)
  | .writeNamed reg x :: rest => writeNamed reg x (withHost rest s)
  | .waitIdle :: rest => pollStatus s rest
  | .takeCount k x :: rest => .next (startTake k x rest s)
  | .take x :: rest => .next (takeBeat s x rest)
  | .rstN level :: rest => .next (driveRstN level (withHost rest s))

end Sys2Proof.Machine
end

