-- ==== Sys2Proof/Machine/Block.lean ====
section
/-! DEFINITION. The block's steps and the choice of the agent that moves (70_reset_and_hazards.md R190). -/

namespace Sys2Proof.Machine

/-- The next step of the command in progress: LCMD is decoded (30_encoding.md R73) and the command's meaning runs; a word
that is no command completes with ILLEGAL_COMMAND and has no other effect (30_encoding.md R75, 60_exceptions.md R161). -/
def runCommand (s : State) : Result :=
  match decode s.lcmd with
  | .ok i => exec i s
  | .error _ => .next (complete .illegalCommand s)

/-- The block's turn: the command in progress takes its next step. The block has no step while no command is in progress
(70_reset_and_hazards.md R190) or while `rst_n` is asserted (R180), and while GENERATE offers a beat its turn changes nothing. -/
def blockTurn (s : State) : Result :=
  if s.rstN && s.busy then runCommand (beginStep s) else .next s

/-- Whether the block has a step enabled: a command is in progress and no beat is on offer (70_reset_and_hazards.md R190). -/
def blockEnabled (s : State) : Bool := s.rstN && s.busy && s.pnOut.isNone

/-- One step of the agent whose turn it is: the head of `sched`; when `sched` is empty, the block if it has a step enabled,
else the host (70_reset_and_hazards.md R190; log 2). -/
def takeTurn (s : State) : Result :=
  match s.sched with
  | .block :: rest => blockTurn { s with sched := rest }
  | .host :: rest => hostTurn { s with sched := rest }
  | [] => if blockEnabled s then blockTurn s else hostTurn s

/-- `s` with the command word of an opcode-table row accepted and the block's turn next, so that the next step runs that
command: `rst_n` is released and no beat is on offer (20_memory.md R58; log 8). -/
def placeCommand (s : State) (nbits w : Nat) : State :=
  accept (tableWord nbits w) { s with rstN := true, pnOut := none, sched := .block :: s.sched }

end Sys2Proof.Machine
end

