-- ==== Sys2Proof/Machine/Step.lean ====
section
/-! DEFINITION. The step of the machine, and the placing of one command for it to run. -/

namespace Sys2Proof.Machine

/-- One step of one agent (70_reset_and_hazards.md R190). -/
def step (s : State) : Host.Outcome State Fault Refusal := takeTurn s

/-- `s` with the command of the given opcode-table word accepted and about to run (log 8). -/
def State.withFetchWord (s : State) (nbits w : Nat) : State := placeCommand s nbits w

end Sys2Proof.Machine
end

