-- ==== Sys2Proof/Machine/HostProgram.lean ====
section
/-! DEFINITION. The host's program notation: statements (30_encoding.md R78), pseudo-instructions and their expansions
(R79), and the host actions a statement stands for. Control flow beyond WAIT is the host's. -/

namespace Sys2Proof.Machine

/-- A value of a host program: written out, or the named result of an earlier `RD` (30_encoding.md R78). -/
inductive Operand where
  | lit (w : Word)
  | name (x : String)
  deriving DecidableEq, Repr

/-- A statement of a host program (30_encoding.md R78). -/
inductive Stmt where
  /-- `WR reg, value`. -/
  | wr (reg : WindowReg) (value : Operand)
  /-- `RD reg -> x`. -/
  | rd (reg : WindowReg) (x : String)
  /-- `WAIT`. -/
  | wait
  /-- `TAKE k -> x`. -/
  | take (k : Count) (x : String)
  deriving DecidableEq, Repr

/-- The host action of a statement (30_encoding.md R78). -/
def stmtAction : Stmt → HostAction
  | .wr reg (.lit w) => .access (.write (regOffset reg) 4 w)
  | .wr reg (.name x) => .writeNamed reg x
  | .rd reg x => .readAs reg x
  | .wait => .waitIdle
  | .take k x => .takeCount k x

/-- The pseudo-instructions (30_encoding.md R79). `buildpoly` is written with 1 to 5 taps; that a tap is a number, and not the
named result of an earlier `RD` as the other operands may be, is DESIGN CHOICE (log 24). -/
inductive Pseudo where
  | buildpoly (taps : List Nat)
  | mlpoly (o : Operand)
  | statesize
  | init (p s v : Operand)
  | reset
  /-- `GEN n -> x`. -/
  | gen (n : Operand) (x : String)
  deriving DecidableEq, Repr

/-- The number of beats of `GEN n`: for `n <= 0`, `TAKE` takes nothing (30_encoding.md R79). -/
def genCount : Operand → Count
  | .lit n => .lit n.toInt.toNat
  | .name x => .name x

/-- The statement that starts the command of a word (30_encoding.md R78). -/
def wrCmd (w : Word) : Stmt := .wr .cmd (.lit w)

/-- The expansion of a pseudo-instruction (30_encoding.md R79). -/
def expand : Pseudo → List Stmt
  | .buildpoly taps => [wrCmd (encodeFormatB taps), .wait]
  | .mlpoly o => [.wr .arg0 o, wrCmd (encode .mlpoly), .wait]
  | .statesize => [wrCmd (encode .statesize), .wait]
  | .init p s v => [.wr .arg0 p, .wr .arg1 s, .wr .arg2 v, wrCmd (encode .init), .wait]
  | .reset => [wrCmd (encode .reset), .wait]
  | .gen n x => [.wr .arg1 n, wrCmd (encode .generate), .take (genCount n) x, .wait]

/-- The host actions of a straight-line program of statements. -/
def programActions (stmts : List Stmt) : List HostAction := stmts.map stmtAction

end Sys2Proof.Machine
end

