-- ==== Sys2Proof/Safety.lean ====
section
/-! DEFINITION. The terms claims are stated in: the invariants of the block (10_state.md R26, R27, R38), whose turn a step
is, a command carried on by its own steps, the bits a GENERATE still owes, and the end of a run (70 R192). -/

namespace Sys2Proof.Machine

/-- The engine's invariant: R26 while READY = 1, R27 while READY = 0 (10_state.md). -/
abbrev EngineInv (s : State) : Prop :=
  (s.ready = true → s.poly ≠ 0#32 ∧ 1 ≤ s.order.toNat ∧ s.order.toNat = hsb s.poly ∧
    s.lfsr >>> s.order.toNat = 0#32 ∧ s.seed >>> s.order.toNat = 0#32) ∧
  (s.ready = false → s.poly = 0#32 ∧ s.order = 0#5 ∧ s.lfsr = 0#32 ∧ s.seed = 0#32)

/-- INIT is in its pre-shift: its checks have passed, and its local register is the clamped initial value after the advances
already performed (41_engine.md R126). -/
abbrev InitRunning (s : State) : Prop :=
  decode s.lcmd = .ok .init ∧ initPolynomial s ≠ 0#32 ∧ initValue s ≠ 0#32 ∧ 1 ≤ hsb (initPolynomial s) ∧
  s.remain ≤ initShift s ∧
  s.work = advanceTimes (initPolynomial s) (hsb (initPolynomial s)) (initShift s - s.remain)
    (initValue s &&& mask (hsb (initPolynomial s)))

/-- GENERATE is in its loop: its checks have passed, and REMAIN is at most its count (41_engine.md R132). -/
abbrev GenerateRunning (s : State) : Prop :=
  decode s.lcmd = .ok .generate ∧ s.ready = true ∧ 0 ≤ generateCount s ∧ s.remain ≤ (generateCount s).toNat

/-- The hidden state and the output port agree with the command in progress: a beat is on offer only in a GENERATE
(10_state.md R33), and only INIT and GENERATE enter a loop (R38). -/
abbrev CommandInv (s : State) : Prop :=
  (s.pnOut ≠ none → s.busy = true ∧ s.begun = true ∧ decode s.lcmd = .ok .generate) ∧
  (s.busy = true → s.begun = true → InitRunning s ∨ GenerateRunning s)

/-- Every element the spec gives a reset value holds it (10_state.md R39). -/
abbrev AtResetValues (s : State) : Prop :=
  s.poly = 0#32 ∧ s.order = 0#5 ∧ s.lfsr = 0#32 ∧ s.seed = 0#32 ∧ s.ready = false ∧
  s.arg0 = 0#32 ∧ s.arg1 = 0#32 ∧ s.arg2 = 0#32 ∧
  s.code = .ok ∧ s.busy = false ∧ s.ovr = false ∧ s.result = 0#32 ∧ s.pnOut = none

/-- The invariant of the block: the engine's, the command's, and that while `rst_n` is asserted every element holds its
reset value (70_reset_and_hazards.md R180). -/
abbrev BlockInv (s : State) : Prop :=
  EngineInv s ∧ CommandInv s ∧ (s.rstN = false → AtResetValues s)

/-- The agent whose turn the next step is (70_reset_and_hazards.md R190; log 2). -/
def nextAgent (s : State) : Agent :=
  match s.sched with
  | a :: _ => a
  | [] => if blockEnabled s then .block else .host

/-- The state whose turn has been taken off the schedule: what the agent that moves starts from. -/
def afterTurn (s : State) : State := { s with sched := s.sched.tail }

/-- Whether the next step is a hardware reset: the host's turn, and `rst_n` goes low or rises (70_reset_and_hazards.md R180). -/
def resetsNext (s : State) : Bool :=
  nextAgent s == .host &&
    match s.host with
    | .rstN level :: _ => !(level && s.rstN)
    | _ => false

/-- A host action that is a legal-width read of the offset `off`, its result named `x` if it is to be named: a bare access,
or `RD` (20_memory.md R50, 30_encoding.md R78). -/
abbrev IsRead (a : HostAction) (off : Fin 64) (x : Option String) : Prop :=
  (a = .access (.read off 4) ∧ x = none) ∨ ∃ reg n, a = .readAs reg n ∧ regOffset reg = off ∧ x = some n

/-- A host action that is, in `s`, a legal-width write of `v` to the offset `off`: a bare access, or `WR` of a named value
(20_memory.md R50, 30_encoding.md R78). -/
abbrev IsWrite (s : State) (a : HostAction) (off : Fin 64) (v : Word) : Prop :=
  a = .access (.write off 4 v) ∨ ∃ reg n, a = .writeNamed reg n ∧ regOffset reg = off ∧ v = namedWord n s

/-- Whether the next step is a legal write of the host, while `rst_n` is released, to the register `reg`. -/
def writesNext (reg : WindowReg) (s : State) : Bool :=
  nextAgent s == .host && s.rstN &&
    match s.host with
    | .access (.write off width _) :: _ => legalAccess off.val width && regAt off.val == reg
    | .writeNamed r _ :: _ => r == reg
    | _ => false

/-- The single-bit advances the command in progress has still to perform: before its checks the number its argument names, in
its loop REMAIN, and none for a command without a loop. No timer takes part (60_exceptions.md R171). -/
def advancesOwed (s : State) : Nat :=
  match decode s.lcmd with
  | .ok .init => if s.begun then s.remain else initShift s
  | .ok .generate => if s.begun then s.remain else (generateCount s).toNat
  | _ => 0

/-- The steps the command in progress has still to take, at most: its advances and its completion, and before that its checks
(60_exceptions.md R171, 70_reset_and_hazards.md R190). -/
def stepsOwed (s : State) : Nat := advancesOwed s + (if s.begun then 1 else 2)

/-- `n` steps of the machine, stopping at the first fault or refusal. -/
def stepTimes : Nat → State → Result
  | 0, s => .next s
  | n + 1, s =>
    match step s with
    | .next t => stepTimes n t
    | .fault r => .fault r
    | .refused r => .refused r

/-- `n` steps of one command, nothing else moving in between. -/
def execTimes : Nat → Instr → State → Result
  | 0, _, s => .next s
  | n + 1, i, s =>
    match exec i s with
    | .next t => execTimes n i t
    | .fault r => .fault r
    | .refused r => .refused r

/-- All the bits the host has when the GENERATE in progress has completed: those taken, the one on offer, and those of the
advances still to perform (20_memory.md R61, 41_engine.md R132). -/
def promisedBits (s : State) : List Bool :=
  s.taken ++ s.pnOut.toList ++ outputBits s.poly s.order.toNat s.remain s.lfsr

/-- LFSR when the GENERATE in progress has completed (41_engine.md R132). -/
def promisedLfsr (s : State) : Word := advanceTimes s.poly s.order.toNat s.remain s.lfsr

/-- LFSR is SEED after some number of advances: INIT and RESET set it to SEED, and GENERATE advances it (10_state.md R23, R25). -/
def LfsrFromSeed (s : State) : Prop :=
  s.ready = true → ∃ n, s.lfsr = advanceTimes s.poly s.order.toNat n s.seed

/-- A state with the hidden state of a command in progress replaced by another's (10_state.md R38). -/
def withHidden (s h : State) : State :=
  { s with lcmd := h.lcmd, larg0 := h.larg0, larg1 := h.larg1, larg2 := h.larg2, remain := h.remain, begun := h.begun,
           work := h.work }

/-- Two states that agree on everything a rule may read: all but the hidden state; the latched command and arguments too while
a command is in progress; REMAIN too once it has entered its loop, and INIT's local register in INIT's (10_state.md R38). -/
abbrev SameButHidden (s t : State) : Prop :=
  withHidden t s = s ∧
  (s.busy = true → s.lcmd = t.lcmd ∧ s.larg0 = t.larg0 ∧ s.larg1 = t.larg1 ∧ s.larg2 = t.larg2 ∧ s.begun = t.begun) ∧
  (s.busy = true → s.begun = true → s.remain = t.remain ∧ (decode s.lcmd = .ok .init → s.work = t.work))

/-- Two outcomes of the same kind, next states related by `SameButHidden` and stops equal. -/
def SameOutcomeButHidden : Result → Result → Prop
  | .next s, .next t => SameButHidden s t
  | .fault a, .fault b => a = b
  | .refused a, .refused b => a = b
  | _, _ => False

/-- A run has ended: the host has nothing left to do and no command is in progress (70_reset_and_hazards.md R192). -/
abbrev RunEnded (s : State) : Prop := s.host = [] ∧ s.busy = false

/-- A run with a fault: one in which an access got an error response (70_reset_and_hazards.md R192; log 9). -/
abbrev RunFaulted (s : State) : Prop := Response.error ∈ s.responses

end Sys2Proof.Machine
end

