-- ==== Sys2Proof/Certificates/Slice0/Obligations.lean ====
section
/-! DEFINITION. The statements for the provers, each a `def Obligations.<Name> : Prop`, from the numbered rules of spec/.
Where a statement gives a next state whole, `afterTurn`, `blockStarts`, `freeIdx` and `names` say what becomes of the model's
own fields (log 2, log 5, log 23); that the latest result of a name counts is the model's choice (log 23). -/

open Sys2Proof Sys2Proof.Machine

namespace Sys2Proof.Machine

/-- The Format B word of 30_encoding.md R77 written out with all five taps. -/
def formatBWord (c t0 t1 t2 t3 t4 : Nat) : Word :=
  0x1#32 ||| (BitVec.ofNat 32 c <<< 4) ||| (BitVec.ofNat 32 t0 <<< 7) ||| (BitVec.ofNat 32 t1 <<< 12) |||
    (BitVec.ofNat 32 t2 <<< 17) ||| (BitVec.ofNat 32 t3 <<< 22) ||| (BitVec.ofNat 32 t4 <<< 27)

/-- The field of `len` bits of a word from bit `lo` on, by division: an account of a field independent of the decoder's. -/
def fieldValue (w : Word) (lo len : Nat) : Nat := w.toNat / 2 ^ lo % 2 ^ len

/-- The XOR over `i < n` of `r[i] & p[i]` (41_engine.md R121). -/
def tapXor (r p : Word) (n : Nat) : Bool :=
  ((List.range n).map fun i => r.getLsbD i && p.getLsbD i).foldl Bool.xor false

/-- The j-th output bit from the register `r`: bit 0 of the register after `j` advances (41_engine.md R137). -/
def outputBit (p : Word) (k : Nat) (r : Word) (j : Nat) : Bool := (advanceTimes p k j r).getLsbD 0

/-- The block's turn, with a command in progress and `rst_n` released. -/
abbrev BlockRuns (s : State) : Prop := nextAgent s = .block ∧ s.rstN = true ∧ s.busy = true

/-- The host's turn, with the action `a` first and `rest` after it, and `rst_n` released. -/
abbrev HostActs (s : State) (a : HostAction) (rest : List HostAction) : Prop :=
  nextAgent s = .host ∧ s.host = a :: rest ∧ s.rstN = true

/-- What the block's turn adds around a command's meaning: the turn is taken off the schedule and the counter of free values
moves on, unless a beat is on offer (log 2, log 5). -/
def blockStarts (s : State) : State := beginStep (afterTurn s)

/-- No command in progress, no beat on offer, `rst_n` released, the default schedule. -/
abbrev Idle (s : State) : Prop := s.busy = false ∧ s.pnOut = none ∧ s.rstN = true ∧ s.sched = []

/-- The engine state of two states is the same (10_state.md R20). -/
abbrev SameEngine (s t : State) : Prop :=
  t.poly = s.poly ∧ t.order = s.order ∧ t.lfsr = s.lfsr ∧ t.seed = s.seed ∧ t.ready = s.ready

end Sys2Proof.Machine

/-! ### Encoding -/

/-- 30_encoding.md R77: the canonical words, and its examples, which decode to the commands they stand for. -/
def Obligations.CanonicalWordsFollowTheFormats : Prop :=
  (∀ t0, encode (.buildpoly1 t0) = formatBWord 1 t0 0 0 0 0) ∧
  (∀ t0 t1, encode (.buildpoly2 t0 t1) = formatBWord 2 t0 t1 0 0 0) ∧
  (∀ t0 t1 t2, encode (.buildpoly3 t0 t1 t2) = formatBWord 3 t0 t1 t2 0 0) ∧
  (∀ t0 t1 t2 t3, encode (.buildpoly4 t0 t1 t2 t3) = formatBWord 4 t0 t1 t2 t3 0) ∧
  (∀ t0 t1 t2 t3 t4, encode (.buildpoly5 t0 t1 t2 t3 t4) = formatBWord 5 t0 t1 t2 t3 t4) ∧
  encode .mlpoly = 0x00000002#32 ∧ encode .statesize = 0x00000003#32 ∧ encode .init = 0x00000004#32 ∧
  encode .reset = 0x00000005#32 ∧ encode .generate = 0x00000006#32 ∧
  encode (.buildpoly3 3 2 0) = 0x000021B1#32 ∧ encode (.buildpoly1 31) = 0x00000F91#32 ∧
  encode (.buildpoly1 0) = 0x00000011#32 ∧ encode (.buildpoly2 5 5) = 0x000052A1#32 ∧
  encode (.buildpoly5 8 6 5 4 0) = 0x010A6451#32 ∧ encode (.buildpoly5 31 30 29 28 27) = 0xDF3BEFD1#32 ∧
  decode 0xFFFFFFF4#32 = .ok .init

/-- Words written out from 30_encoding.md R70 and R72 decode to what they stand for, in every family, and reserved words to
nothing (95_test_vectors.md 2.2, 2.9). -/
def Obligations.WrittenOutWordsDecode : Prop :=
  decode 0x00000F91#32 = .ok (.buildpoly1 31) ∧ decode 0xF9C221A1#32 = .ok (.buildpoly2 3 2) ∧
  decode 0x00043031#32 = .ok (.buildpoly3 0 3 2) ∧ decode 0x000454C1#32 = .ok (.buildpoly4 9 5 2 0) ∧
  decode 0xDF3BEFD1#32 = .ok (.buildpoly5 31 30 29 28 27) ∧ decode 0x12345672#32 = .ok .mlpoly ∧
  decode 0x80000003#32 = .ok .statesize ∧ decode 0xFFFFFFF4#32 = .ok .init ∧ decode 0x00000005#32 = .ok .reset ∧
  decode 0xFFFFFFF6#32 = .ok .generate ∧
  decode 0x00000000#32 = .error (.reservedOpcode 0) ∧ decode 0x00000001#32 = .error (.reservedCount 0) ∧
  decode 0x00000061#32 = .error (.reservedCount 6) ∧ decode 0xFFFFFFF1#32 = .error (.reservedCount 7) ∧
  decode 0x00000007#32 = .error (.reservedOpcode 7) ∧ decode 0xFFFFFFFF#32 = .error (.reservedOpcode 15)

/-- Decoding the canonical word of a well-formed command gives that command back, with every tap at every value its field
admits (30_encoding.md R70, R72, R77). -/
def Obligations.DecodeOfEncodeIsTheCommand : Prop :=
  ∀ i : Instr, WellFormed i → decode (encode i) = .ok i

/-- No word decodes to a command with a tap outside [0,31] (30_encoding.md R71). -/
def Obligations.DecodedCommandsAreWellFormed : Prop :=
  ∀ (w : Word) (i : Instr), decode w = .ok i → WellFormed i

/-- 30_encoding.md R72, R73: a decoded word matches its row of the opcode table and its taps are the fields of the word; and a
word that matches a row decodes to a command of that row. -/
def Obligations.DecodingFollowsTheOpcodeTable : Prop :=
  (∀ (w : Word) (i : Instr), decode w = .ok i →
    w &&& tableMask i = tableMatch i ∧ i.opcode = fieldValue w 0 4 ∧
    i.taps = (List.range i.taps.length).map fun j => fieldValue w (7 + 5 * j) 5) ∧
  (∀ (w : Word) (row : Instr), w &&& tableMask row = tableMatch row →
    ∃ i, decode w = .ok i ∧ i.mnemonic = row.mnemonic)

/-- 30_encoding.md R75: the illegal encodings are exactly these; an accepted illegal word completes with ILLEGAL_COMMAND and
nothing else of the block changes; and bits outside those that mean something select nothing. -/
def Obligations.IllegalEncodingsCompleteWithNoOtherEffect : Prop :=
  (∀ w : Word, (∃ e, decode w = .error e) ↔
    fieldValue w 0 4 = 0 ∨ 7 ≤ fieldValue w 0 4 ∨
      (fieldValue w 0 4 = 1 ∧ (fieldValue w 4 3 = 0 ∨ fieldValue w 4 3 = 6 ∨ fieldValue w 4 3 = 7))) ∧
  (∀ (s : State) (e : DecodeError), BlockRuns s → decode s.lcmd = .error e →
    step s = .next { blockStarts s with code := .illegalCommand, busy := false }) ∧
  (∀ (w w' : Word) (i : Instr), decode w = .ok i → w &&& meaningfulBits i = w' &&& meaningfulBits i → decode w' = .ok i)

/-! ### Steps -/

/-- The block's turn with a command in progress runs that command's meaning. -/
def Obligations.StepRunsTheCommandInProgress : Prop :=
  ∀ (s : State) (i : Instr), BlockRuns s → decode s.lcmd = .ok i → step s = exec i (blockStarts s)

/-- A command placed for the machine to run is run by the very next step (log 8). -/
def Obligations.PlacedCommandRunsNext : Prop :=
  ∀ (s : State) (nbits w : Nat) (i : Instr), decodeTableWord nbits w = some i →
    step (s.withFetchWord nbits w) =
      exec i (progress (accept (tableWord nbits w) { s with rstN := true, pnOut := none }))

/-- 70_reset_and_hazards.md R190: the block has no step while no command is in progress; while GENERATE offers a beat its only
step is that beat's transfer, so its own turns change nothing; the host with nothing to do changes nothing. That such a turn
is a step at all, and that it changes nothing but the schedule, is the model's choice (log 19, log 2). -/
def Obligations.AgentsWithoutAStepChangeNothing : Prop :=
  (∀ s : State, nextAgent s = .block → s.busy = false → step s = .next (afterTurn s)) ∧
  (∀ (s : State) (b : Bool), BlockRuns s → decode s.lcmd = .ok .generate → s.begun = true → s.pnOut = some b →
    step s = .next (afterTurn s)) ∧
  (∀ s : State, nextAgent s = .host → s.host = [] → step s = .next (afterTurn s))

/-! ### The polynomial builder and the ROM -/

/-- 40_polynomial.md R100, from the command word: for OP = 0x1 and CNT = c in 1..5, RESULT takes the word whose set bits are
exactly the tap exponents T0..T(c-1) of LCMD, the code is OK, and nothing else changes; for other CNT, ILLEGAL_COMMAND; and
the word 0x000021B1 gives 13. The turn taken and the counter of free values are the model's (log 2, log 5). -/
def Obligations.BuildpolyWordSetsExactlyItsTapBits : Prop :=
  (∀ s : State, BlockRuns s → fieldValue s.lcmd 0 4 = 1 → 1 ≤ fieldValue s.lcmd 4 3 → fieldValue s.lcmd 4 3 ≤ 5 →
    ∃ p : Word, step s = .next { blockStarts s with result := p, code := .ok, busy := false } ∧
      ∀ b < 32, p.getLsbD b = true ↔ ∃ j < fieldValue s.lcmd 4 3, fieldValue s.lcmd (7 + 5 * j) 5 = b) ∧
  (∀ s : State, BlockRuns s → fieldValue s.lcmd 0 4 = 1 → ¬ (1 ≤ fieldValue s.lcmd 4 3 ∧ fieldValue s.lcmd 4 3 ≤ 5) →
    step s = .next { blockStarts s with code := .illegalCommand, busy := false }) ∧
  (∀ s : State, BlockRuns s → s.lcmd = 0x000021B1#32 →
    step s = .next { blockStarts s with result := 13#32, code := .ok, busy := false })

/-- BUILDPOLY1 to BUILDPOLY5 complete in every state, with RESULT's set bits exactly the taps, so that neither the order of
the taps nor a repetition counts (40_polynomial.md R100, R101); nothing but RESULT, CODE and BUSY changes. -/
def Obligations.BuildpolyCompletesWithTheTapsSet : Prop :=
  ∀ (i : Instr) (s : State), i.opcode = 0x1 → WellFormed i →
    ∃ p : Word, exec i s = .next { s with result := p, code := .ok, busy := false } ∧
      ∀ b < 32, p.getLsbD b = true ↔ b ∈ i.taps

/-- 40_polynomial.md R102: the laws of BUILDPOLY's result. -/
def Obligations.BuildpolyResultLaws : Prop :=
  ∀ (i : Instr) (s : State), i.opcode = 0x1 → WellFormed i →
    ∃ t : State, exec i s = .next t ∧ t.result ≠ 0#32 ∧
      popcount t.result ≤ i.taps.length ∧ (popcount t.result = i.taps.length ↔ i.taps.Nodup) ∧
      (i.taps.Nodup → t.result.toNat = (i.taps.map fun e => 2 ^ e).sum) ∧
      hsb t.result ∈ i.taps ∧ ∀ e ∈ i.taps, e ≤ hsb t.result

/-- 40_polynomial.md R103: MLPOLY answers the ROM entry for the orders 3..31 and 0 for every other, all 32 bits of the order
counting, always with OK; nothing but RESULT, CODE and BUSY changes; and `MLPOLY 3` gives 13. -/
def Obligations.MlpolyLooksUpTheOrder : Prop :=
  (∀ s : State, 3 ≤ s.larg0.toNat → s.larg0.toNat ≤ 31 →
    exec .mlpoly s = .next { s with result := mlTable s.larg0.toNat, code := .ok, busy := false }) ∧
  (∀ s : State, ¬ (3 ≤ s.larg0.toNat ∧ s.larg0.toNat ≤ 31) →
    exec .mlpoly s = .next { s with result := 0#32, code := .ok, busy := false }) ∧
  (∀ s : State, s.larg0 = 3#32 → exec .mlpoly s = .next { s with result := 13#32, code := .ok, busy := false })

/-- 40_polynomial.md R105: every ROM entry is nonzero (so MLPOLY's RESULT is 0 exactly outside 3..31), has its highest bit at
its order and bit 0 set; and a polynomial with bit 0 clear maps the register 1 to 0. -/
def Obligations.RomEntriesObeyTheirLaws : Prop :=
  (∀ o : Nat, 3 ≤ o → o ≤ 31 →
    mlTable o ≠ 0#32 ∧ hsb (mlTable o) = o ∧ mlTable o >>> (o + 1) = 0#32 ∧ (mlTable o).getLsbD 0 = true) ∧
  (∀ s : State, ∃ t : State, exec .mlpoly s = .next t ∧
    (t.result = 0#32 ↔ ¬ (3 ≤ s.larg0.toNat ∧ s.larg0.toNat ≤ 31))) ∧
  (∀ (p : Word) (k : Nat), p.getLsbD 0 = false → advance 1#32 p k = 0#32)

/-! ### The single-bit advance -/

/-- 41_engine.md R121 and R122: the feedback is the XOR of the tapped bits of the current register, of those below `k` when the
register fits in `k` bits; then the register shifts right by one, the feedback enters exactly at bit `k - 1`, and the
result fits in `k` bits again. -/
def Obligations.AdvanceShiftsAndInsertsTheTapXor : Prop :=
  (∀ r p : Word, feedback r p = tapXor r p 32) ∧
  (∀ (r p : Word) (k : Nat), 1 ≤ k → k ≤ 31 → r >>> k = 0#32 →
    feedback r p = tapXor r p k ∧ (r >>> 1).getLsbD (k - 1) = false ∧
    (∀ i, (advance r p k).getLsbD i = if i + 1 = k then tapXor r p k else r.getLsbD (i + 1)) ∧
    advance r p k >>> k = 0#32)

/-- 41_engine.md R124: the corner cases of `ADVANCE`. -/
def Obligations.AdvanceCornerCases : Prop :=
  (∀ (p : Word) (k : Nat), advance 0#32 p k = 0#32 ∧ departing 0#32 = false) ∧
  (∀ r p : Word, r >>> 1 = 0#32 → advance r p 1 = bitWord (r.getLsbD 0 && p.getLsbD 0)) ∧
  (∀ r : Word, r >>> 1 = 0#32 → advance r 3#32 1 = r ∧ advance r 2#32 1 = 0#32) ∧
  (∀ (r p : Word), p.getLsbD 0 = false → feedback r p = feedback (r &&& ~~~1#32) p) ∧
  (∀ (p : Word) (k : Nat), p.getLsbD 0 = false → advance 1#32 p k = 0#32) ∧
  (∀ (r p : Word) (n : Nat), r >>> 31 = 0#32 → (advanceTimes p 31 n r).getLsbD 31 = false) ∧
  (∀ r p : Word, r >>> 31 = 0#32 → (advance r p 31).getLsbD 30 = feedback r p) ∧
  advance 1#32 13#32 3 = 4#32 ∧ departing 1#32 = true

/-- 41_engine.md R137: the register holds the next ORDER output bits, the oldest at bit 0. -/
def Obligations.RegisterHoldsTheNextOutputBits : Prop :=
  ∀ (p r : Word) (k : Nat), 1 ≤ k → k ≤ 31 → r >>> k = 0#32 →
    (∀ n j, j < n → (outputBits p k n r)[j]? = some ((advanceTimes p k j r).getLsbD 0)) ∧
    ∀ j i, i < k → (advanceTimes p k j r).getLsbD i = outputBit p k r (j + i)

/-- 41_engine.md R141: the emitted bits obey the linear recurrence whose characteristic polynomial is POLY. -/
def Obligations.OutputObeysTheRecurrence : Prop :=
  ∀ (p r : Word) (k : Nat), 1 ≤ k → k ≤ 31 → r >>> k = 0#32 →
    ∀ j, outputBit p k r (j + k) =
      ((List.range k).map fun i => p.getLsbD i && outputBit p k r (j + i)).foldl Bool.xor false

/-- 41_engine.md R142: the all-zero register is a fixed point; with bit 0 of the polynomial set the advance is a bijection of
the registers of `k` bits, so from a nonzero register the all-zero register is never reached. -/
def Obligations.ZeroRegisterIsFixedAndNeverReached : Prop :=
  (∀ (p : Word) (k n : Nat), advanceTimes p k n 0#32 = 0#32 ∧ outputBits p k n 0#32 = List.replicate n false) ∧
  (∀ (p : Word) (k : Nat), 1 ≤ k → k ≤ 31 → p.getLsbD 0 = true →
    (∀ r : Word, r >>> k = 0#32 → advance r p k >>> k = 0#32) ∧
    (∀ t : Word, t >>> k = 0#32 → ∃ r : Word, r >>> k = 0#32 ∧ advance r p k = t ∧
      ∀ r' : Word, r' >>> k = 0#32 → advance r' p k = t → r' = r) ∧
    ∀ (r : Word) (n : Nat), r >>> k = 0#32 → r ≠ 0#32 → advanceTimes p k n r ≠ 0#32)

/-- 41_engine.md R140, the register: with a polynomial of the ROM and a nonzero register, the register visits every nonzero
value exactly once in `2^o - 1` advances and then returns. The ROM's rows 4..31 are REF_TABLE (log 11). -/
def Obligations.TableRegistersVisitEveryNonzeroValueOnce : Prop :=
  ∀ (o : Nat) (r : Word), 3 ≤ o → o ≤ 31 → r ≠ 0#32 → r >>> o = 0#32 →
    advanceTimes (mlTable o) o (2 ^ o - 1) r = r ∧
    ∀ t : Word, t ≠ 0#32 → t >>> o = 0#32 →
      ∃ n, n < 2 ^ o - 1 ∧ advanceTimes (mlTable o) o n r = t ∧
        ∀ m, m < 2 ^ o - 1 → advanceTimes (mlTable o) o m r = t → m = n

/-- 41_engine.md R140, the output: with a polynomial of the ROM and a nonzero register, the emitted bits have period exactly
`2^o - 1`, one period holds `2^(o-1)` ones and `2^(o-1) - 1` zeros, and two periods are two equal halves (log 11). -/
def Obligations.TableSequencesHaveFullPeriodAndBalance : Prop :=
  ∀ (o : Nat) (r : Word), 3 ≤ o → o ≤ 31 → r ≠ 0#32 → r >>> o = 0#32 →
    (∀ j, outputBit (mlTable o) o r (j + (2 ^ o - 1)) = outputBit (mlTable o) o r j) ∧
    (∀ m, 0 < m → m < 2 ^ o - 1 → ∃ j, outputBit (mlTable o) o r (j + m) ≠ outputBit (mlTable o) o r j) ∧
    (outputBits (mlTable o) o (2 ^ o - 1) r).count true = 2 ^ (o - 1) ∧
    (outputBits (mlTable o) o (2 ^ o - 1) r).count false = 2 ^ (o - 1) - 1 ∧
    outputBits (mlTable o) o (2 * (2 ^ o - 1)) r =
      outputBits (mlTable o) o (2 ^ o - 1) r ++ outputBits (mlTable o) o (2 ^ o - 1) r

/-- 41_engine.md R143: polynomials that are not maximal-length run by the same rules, with shorter periods. -/
def Obligations.NonMaximalPolynomialsRunByTheSameRules : Prop :=
  (∀ n, advanceTimes 15#32 3 (4 * n) 1#32 = 1#32 ∧
    outputBits 15#32 3 (4 * n) 1#32 = (List.replicate n [true, false, false, true]).flatten) ∧
  (∀ n, outputBits 2#32 1 (n + 1) 1#32 = true :: List.replicate n false) ∧
  (∀ n, outputBits 3#32 1 n 1#32 = List.replicate n true)

/-! ### The engine's commands -/

/-- 41_engine.md R125: STATESIZE answers 16 in every state; nothing but RESULT, CODE and BUSY changes. -/
def Obligations.StatesizeAnswersSixteen : Prop :=
  ∀ s : State, exec .statesize s = .next { s with result := 0x00000010#32, code := .ok, busy := false }

/-- Each step of INIT, from its own state alone: a failing check completes with INVALID_ARGUMENT; passing checks clamp the
initial value and enter the pre-shift; a pre-shift step advances the local register once; and with none left the engine is
constructed and INIT completes with OK. Every step changes only what it names (41_engine.md R126; log 3, log 4). -/
def Obligations.InitStepsAndCompletes : Prop :=
  (∀ s : State, s.begun = false → (s.larg0 = 0#32 ∨ s.larg2 = 0#32 ∨ hsb s.larg0 = 0) →
    exec .init s = .next { s with code := .invalidArgument, busy := false }) ∧
  (∀ s : State, s.begun = false → s.larg0 ≠ 0#32 → s.larg2 ≠ 0#32 → hsb s.larg0 ≠ 0 →
    exec .init s = .next { s with begun := true, remain := s.larg1.toNat, work := s.larg2 &&& mask (hsb s.larg0) }) ∧
  (∀ (s : State) (m : Nat), s.begun = true → s.remain = m + 1 →
    exec .init s = .next { s with work := advance s.work s.larg0 (hsb s.larg0), remain := m }) ∧
  (∀ s : State, s.begun = true → s.remain = 0 →
    exec .init s = .next { s with
      poly := s.larg0, order := BitVec.ofNat 5 (hsb s.larg0), lfsr := s.work, seed := s.work, ready := true,
      code := .ok, busy := false })

/-- 41_engine.md R126, the whole command: with `p`, `s`, `v` in LARG0 to LARG2, INIT fails when `p = 0`, `v = 0` or `p` has
order 0; else its steps lead to its completion with POLY = p, ORDER = hsb(p), LFSR = SEED = the clamped value after `s`
advances, READY = 1 and the code OK, and change nothing else but the hidden state of the command (10_state.md R38). -/
def Obligations.InitConstructsTheEngine : Prop :=
  (∀ s : State, s.begun = false → (s.larg0 = 0#32 ∨ s.larg2 = 0#32 ∨ s.larg0 = 1#32) →
    exec .init s = .next { s with code := .invalidArgument, busy := false }) ∧
  (∀ s : State, s.begun = false → s.larg0 ≠ 0#32 → s.larg2 ≠ 0#32 → s.larg0 ≠ 1#32 →
    ∃ (n : Nat) (t : State) (r : Word), execTimes n .init s = .next t ∧
      r = advanceTimes s.larg0 (hsb s.larg0) s.larg1.toNat (s.larg2 &&& mask (hsb s.larg0)) ∧
      withHidden t s = { s with
        poly := s.larg0, order := BitVec.ofNat 5 (hsb s.larg0), lfsr := r, seed := r, ready := true,
        code := .ok, busy := false })

/-- 41_engine.md R127: an initial value and the same value clamped to the order's bits, when neither is 0, leave the engine in
the same state. -/
def Obligations.InitIgnoresBitsBeyondTheOrder : Prop :=
  ∀ (s : State) (v : Word), s.begun = false → s.larg0 ≠ 0#32 → s.larg0 ≠ 1#32 →
    s.larg2 &&& mask (hsb s.larg0) ≠ 0#32 → v &&& mask (hsb s.larg0) = s.larg2 &&& mask (hsb s.larg0) →
    ∃ t : State, execTimes (s.larg1.toNat + 2) .init s = .next t ∧
      execTimes (s.larg1.toNat + 2) .init { s with larg2 := v } = .next { t with larg2 := v }

/-- 41_engine.md R127: where the sequence from `r` has a period, a pre-shift counts modulo it; for `p = 13`, `v = 1` a pre-shift
of `2^32 - 1` gives 7. -/
def Obligations.PreShiftCountsModuloThePeriod : Prop :=
  (∀ (p r : Word) (k period n : Nat), 0 < period → advanceTimes p k period r = r →
    advanceTimes p k n r = advanceTimes p k (n % period) r) ∧
  advanceTimes 13#32 3 (2 ^ 32 - 1) 1#32 = 7#32

/-- Whatever comes between INIT's steps, its last one leaves LFSR = SEED = the clamped initial value after all the advances
of the shift, with the polynomial and its order (41_engine.md R126, R128). -/
def Obligations.InitResultWhateverComesBetween : Prop :=
  ∀ s : State, BlockInv s → BlockRuns s → decode s.lcmd = .ok .init → s.begun = true → s.remain = 0 →
    ∃ t : State, step s = .next t ∧ t.busy = false ∧ t.code = .ok ∧ t.ready = true ∧ t.poly = s.larg0 ∧
      t.order.toNat = hsb s.larg0 ∧ t.seed = t.lfsr ∧
      t.lfsr = advanceTimes s.larg0 (hsb s.larg0) s.larg1.toNat (s.larg2 &&& mask (hsb s.larg0))

/-- 41_engine.md R129: RESET sets LFSR to SEED when READY = 1, and fails when READY = 0; nothing else changes but CODE and
BUSY; twice is as once; and where LFSR is SEED already, LFSR keeps its value. -/
def Obligations.ResetCommandRewinds : Prop :=
  (∀ s : State, s.ready = true → exec .reset s = .next { s with lfsr := s.seed, code := .ok, busy := false }) ∧
  (∀ s : State, s.ready = false → exec .reset s = .next { s with code := .invalidArgument, busy := false }) ∧
  (∀ s : State, execTimes 2 .reset s = exec .reset s) ∧
  (∀ s : State, s.ready = true → s.lfsr = s.seed → exec .reset s = .next { s with code := .ok, busy := false })

/-- Each step of GENERATE, from its own state alone: a failing check completes with INVALID_ARGUMENT; passing checks enter the
loop; a loop step advances LFSR once and offers the departing bit; with a beat on offer it waits; with none left and no
beat on offer it completes with OK. Every step changes only what it names (41_engine.md R132; log 3). -/
def Obligations.GenerateStepsAndCompletes : Prop :=
  (∀ s : State, s.begun = false → (s.ready = false ∨ s.larg1.toInt < 0) →
    exec .generate s = .next { s with code := .invalidArgument, busy := false }) ∧
  (∀ s : State, s.begun = false → s.ready = true → 0 ≤ s.larg1.toInt →
    exec .generate s = .next { s with begun := true, remain := s.larg1.toInt.toNat }) ∧
  (∀ (s : State) (m : Nat), s.begun = true → s.pnOut = none → s.remain = m + 1 →
    exec .generate s = .next { s with
      lfsr := advance s.lfsr s.poly s.order.toNat, pnOut := some (s.lfsr.getLsbD 0), remain := m }) ∧
  (∀ (s : State) (b : Bool), s.begun = true → s.pnOut = some b → exec .generate s = .next s) ∧
  (∀ s : State, s.begun = true → s.pnOut = none → s.remain = 0 →
    exec .generate s = .next { s with code := .ok, busy := false })

/-- 41_engine.md R132, the whole command with a host that takes its beats: GENERATE of `n` fails when READY = 0 or `n < 0`;
else it emits the `n` output bits from LFSR in order, advances LFSR `n` times, completes with OK, and changes nothing else
but the hidden state of the command (10_state.md R38) and the model's counter of free values (log 5). Where the host names
the bits it takes, they join that name's bits in order, and every other name stands for what it stood for (30_encoding.md
R78). The schedule is the model's default one (log 2); `GenerateDeliversWhatItPromises` speaks of every schedule. -/
def Obligations.GenerateEmitsItsBits : Prop :=
  (∀ s : State, s.begun = false → (s.ready = false ∨ s.larg1.toInt < 0) →
    exec .generate s = .next { s with code := .invalidArgument, busy := false }) ∧
  (∀ (s : State) (n : Nat) (x : Option String) (rest : List HostAction),
    s.rstN = true → s.busy = true → s.begun = false → s.pnOut = none → s.sched = [] →
    decode s.lcmd = .ok .generate → s.ready = true → s.larg1.toInt = n → s.host = List.replicate n (.take x) ++ rest →
    ∃ (m : Nat) (t : State), stepTimes m s = .next t ∧
      (∀ y, x = some y → namedBits y t = namedBits y s ++ outputBits s.poly s.order.toNat n s.lfsr) ∧
      (∀ y, x ≠ some y → namedValue y t = namedValue y s) ∧
      withHidden t s = { s with
        lfsr := advanceTimes s.poly s.order.toNat n s.lfsr,
        taken := s.taken ++ outputBits s.poly s.order.toNat n s.lfsr,
        code := .ok, busy := false, host := rest, names := t.names, freeIdx := t.freeIdx })

/-- Whatever the two agents do in between, short of hardware reset, the host gets exactly the bits a GENERATE in progress owes,
in production order, and LFSR ends where its advances lead (20_memory.md R61, 41_engine.md R132, 70 R187): every step keeps
the bits promised and the register promised, and at the completion they are delivered. -/
def Obligations.GenerateDeliversWhatItPromises : Prop :=
  ∀ s t : State, BlockInv s → s.rstN = true → s.busy = true → s.begun = true → decode s.lcmd = .ok .generate →
    resetsNext s = false → step s = .next t →
    (t.busy = true → t.begun = true ∧ decode t.lcmd = .ok .generate ∧ promisedBits t = promisedBits s ∧
      promisedLfsr t = promisedLfsr s) ∧
    (t.busy = false → t.code = .ok ∧ t.taken = promisedBits s ∧ t.lfsr = promisedLfsr s ∧ t.pnOut = none)

/-- 41_engine.md R133, under the model's default schedule (log 2): two GENERATEs of `a` and `b` bits emit the same bits in the
same order as one of `a + b` bits, and leave the same LFSR. -/
def Obligations.GenerateSplitsIntoTwo : Prop :=
  ∀ (s : State) (a b : Word) (x y z : String), Idle s → s.ready = true → 0 ≤ a.toInt → 0 ≤ b.toInt → a.toNat + b.toNat < 2 ^ 31 →
    ∃ (m n : Nat) (t u : State),
      stepTimes m { s with host := programActions (expand (.gen (.lit a) x) ++ expand (.gen (.lit b) y)) } = .next t ∧ RunEnded t ∧
      stepTimes n { s with host := programActions (expand (.gen (.lit (a + b)) z)) } = .next u ∧ RunEnded u ∧
      t.taken = u.taken ∧ t.taken.length = s.taken.length + (a.toNat + b.toNat) ∧ t.lfsr = u.lfsr

/-- 41_engine.md R130, under the model's default schedule (log 2): from LFSR = SEED, a GENERATE of any `n`, a RESET and a GENERATE of `n` again emit the same `n` bits. -/
def Obligations.RewindReproducesTheBits : Prop :=
  ∀ (s : State) (n : Word) (x y : String), Idle s → s.ready = true → s.lfsr = s.seed → 0 ≤ n.toInt →
    ∃ (m : Nat) (t : State) (bits : List Bool),
      stepTimes m { s with host := programActions (expand (.gen (.lit n) x) ++ expand .reset ++ expand (.gen (.lit n) y)) } = .next t ∧
      RunEnded t ∧ bits.length = n.toNat ∧ t.taken = s.taken ++ bits ++ bits

/-- 41_engine.md R134, under the model's default schedule (log 2): INIT with pre-shift `sh` and a GENERATE of `m` bits emit the
bits `sh` to `sh + m - 1` of what INIT with pre-shift 0 and a GENERATE of `sh + m` bits emit. -/
def Obligations.PreShiftStartsTheStreamLater : Prop :=
  ∀ (s : State) (p sh v m : Word) (x y : String), Idle s → p ≠ 0#32 → p ≠ 1#32 → v ≠ 0#32 → sh.toNat + m.toNat < 2 ^ 31 →
    ∃ (a b : Nat) (t u : State) (early late : List Bool),
      stepTimes a { s with
        host := programActions (expand (.init (.lit p) (.lit sh) (.lit v)) ++ expand (.gen (.lit m) x)) } = .next t ∧
      RunEnded t ∧
      stepTimes b { s with
        host := programActions (expand (.init (.lit p) (.lit 0#32) (.lit v)) ++ expand (.gen (.lit (sh + m)) y)) } =
          .next u ∧
      RunEnded u ∧ t.taken = s.taken ++ late ∧ u.taken = s.taken ++ early ∧
      late.length = m.toNat ∧ late = early.drop sh.toNat

/-! ### Failures -/

/-- 60_exceptions.md R162: the causes of INVALID_ARGUMENT, by command; a command in progress that has just been accepted fails
with it exactly in these cases; and a command that passes its checks, at once or after its loop, completes with OK. -/
def Obligations.InvalidArgumentHasExactlyTheseCauses : Prop :=
  (∀ (i : Instr) (s : State), s.busy = true → s.begun = false →
    ((∃ t : State, exec i s = .next t ∧ t.busy = false ∧ t.code = .invalidArgument) ↔
      (i = .init ∧ (s.larg0 = 0#32 ∨ s.larg2 = 0#32 ∨ s.larg0 = 1#32)) ∨
      (i = .reset ∧ s.ready = false) ∨
      (i = .generate ∧ (s.ready = false ∨ s.larg1.toInt < 0))) ∧
    ∀ t : State, exec i s = .next t → t.busy = false → t.code ≠ .invalidArgument → t.code = .ok) ∧
  (∀ (i : Instr) (s t : State), i = .init ∨ i = .generate → s.busy = true → s.begun = true → exec i s = .next t →
    t.busy = false → t.code = .ok)

/-- 60_exceptions.md R163: a failing command leaves everything of the block but CODE and BUSY as it was. -/
def Obligations.FailingCommandsHaveNoOtherEffect : Prop :=
  ∀ s t : State, BlockRuns s → step s = .next t → t.busy = false → t.code ≠ .ok →
    t = { blockStarts s with code := t.code, busy := false }

/-- 60_exceptions.md R165: an illegal access gets a bus error and nothing else, a legal CMD write while BUSY = 1 is dropped before
any decoding, an illegal word gives ILLEGAL_COMMAND whatever the arguments, and a GENERATE with READY = 0 and `n < 0` gives
INVALID_ARGUMENT once. -/
def Obligations.ConditionsHaveTheirPriority : Prop :=
  (∀ (s : State) (off : Fin 64) (width : Nat) (v : Word) (rest : List HostAction),
    HostActs s (.access (.write off width v)) rest → (width ≠ 4 ∨ off.val % 4 ≠ 0) →
    step s = .next { afterTurn s with host := rest, responses := s.responses ++ [.error] }) ∧
  (∀ (s : State) (a : HostAction) (v : Word) (rest : List HostAction), HostActs s a rest → IsWrite s a 0x00 v →
    s.busy = true →
    step s = .next { afterTurn s with
      host := rest, responses := s.responses ++ [.ack], ovr := true, freeIdx := s.freeIdx + 1 }) ∧
  (∀ (s : State) (e : DecodeError), BlockRuns s → decode s.lcmd = .error e →
    step s = .next { blockStarts s with code := .illegalCommand, busy := false }) ∧
  (∀ s : State, BlockRuns s → decode s.lcmd = .ok .generate → s.begun = false → s.ready = false → s.larg1.toInt < 0 →
    step s = .next { blockStarts s with code := .invalidArgument, busy := false })

/-! ### Bus accesses -/

/-- 20_memory.md R51: an access of a width other than 4 bytes, or at an offset that is no multiple of 4, gets an error response
and has no effect. That this holds while `rst_n` is asserted too is the model's reading (log 7, DEDUCED). -/
def Obligations.IllegalAccessesHaveNoEffect : Prop :=
  ∀ (s : State) (a : Access) (rest : List HostAction), nextAgent s = .host → s.host = .access a :: rest →
    (match a with
      | .read off width => width ≠ 4 ∨ off.val % 4 ≠ 0
      | .write off width _ => width ≠ 4 ∨ off.val % 4 ≠ 0) →
    step s = .next { afterTurn s with host := rest, responses := s.responses ++ [.error] }

/-- While BUSY = 0 a legal read returns the register of its offset: 0 for CMD and the reserved offsets, the ARG registers, the
STATUS word, RESULT, and the engine state (10_state.md R30, R34, R37, 20_memory.md R56); a `RD` names that data
(30_encoding.md R78). -/
def Obligations.IdleReadsReturnTheRegisters : Prop :=
  ∀ (s : State) (a : HostAction) (off : Fin 64) (x : Option String) (rest : List HostAction), HostActs s a rest →
    IsRead a off x → s.busy = false → off.val % 4 = 0 →
    ∃ w : Word, step s = .next { afterTurn s with
        host := rest, responses := s.responses ++ [.data w], names := namesAfter x (.word w) s.names } ∧
      (off.val = 0x00 → w = 0#32) ∧ (off.val = 0x04 → w = s.arg0) ∧ (off.val = 0x08 → w = s.arg1) ∧
      (off.val = 0x0C → w = s.arg2) ∧
      (off.val = 0x10 → w.toNat = (codeBits s.code).toNat + 32 * s.ready.toNat + 64 * s.ovr.toNat) ∧
      (off.val = 0x14 → w = s.result) ∧ (off.val = 0x18 → w = s.poly) ∧ (off.val = 0x1C → w.toNat = s.order.toNat) ∧
      (off.val = 0x20 → w = s.lfsr) ∧ (off.val = 0x24 → w = s.seed) ∧ (0x28 ≤ off.val → w = 0#32)

/-- 70_reset_and_hazards.md R186: while BUSY = 1 a read of BUSY, OVR or an ARG register is exact, CMD and the reserved offsets
read 0 (20_memory.md R56), and the others return a free value, for which this statement names the model's constant of no
known value and its counter (log 5); a `RD` names the data returned (30_encoding.md R78). -/
def Obligations.BusyReadsAreExactOnlyWhereStated : Prop :=
  ∀ (s : State) (a : HostAction) (off : Fin 64) (x : Option String) (rest : List HostAction), HostActs s a rest →
    IsRead a off x → s.busy = true → off.val % 4 = 0 →
    ∃ w : Word, step s = .next { afterTurn s with
        host := rest, responses := s.responses ++ [.data w], names := namesAfter x (.word w) s.names } ∧
      (off.val = 0x00 → w = 0#32) ∧
      (off.val = 0x10 → w.getLsbD 4 = true ∧ w.getLsbD 6 = s.ovr ∧ w.getLsbD 2 = false ∧ w.getLsbD 3 = false ∧
        w >>> 7 = 0#32 ∧ w.extractLsb' 0 2 = (Config.freeBusyRead 0x10 s.freeIdx).extractLsb' 0 2 ∧
        w.getLsbD 5 = (Config.freeBusyRead 0x10 s.freeIdx).getLsbD 5) ∧
      (off.val = 0x04 → w = s.arg0) ∧ (off.val = 0x08 → w = s.arg1) ∧ (off.val = 0x0C → w = s.arg2) ∧
      (0x14 ≤ off.val → off.val ≤ 0x24 → w = Config.freeBusyRead off.val s.freeIdx) ∧ (0x28 ≤ off.val → w = 0#32)

/-- 20_memory.md R53: a legal read of any offset changes no state of the block, and two reads of one offset with nothing in
between return the same value, also when turns of the block come between in which the command makes no progress, none being
in progress or a beat being on offer; in particular OVR and RESULT are kept. A `RD` names the data for the host
(30_encoding.md R78; log 23). That such turns are steps and change nothing but the schedule is the model's choice (log 19,
log 2), and so is the counter by which a read while busy stays the same (log 5). A read of another offset or an illegal
access in between is not spoken of here. -/
def Obligations.ReadsHaveNoSideEffects : Prop :=
  (∀ (s : State) (a : HostAction) (off : Fin 64) (x : Option String) (rest : List HostAction), HostActs s a rest →
    IsRead a off x → off.val % 4 = 0 →
    ∃ w : Word, step s = .next { afterTurn s with
      host := rest, responses := s.responses ++ [.data w], names := namesAfter x (.word w) s.names }) ∧
  (∀ (s : State) (a b : HostAction) (off : Fin 64) (x y : Option String) (rest : List HostAction) (turns : List Agent),
    s.sched = .host :: .host :: turns → HostActs s a (b :: rest) → IsRead a off x → IsRead b off y → off.val % 4 = 0 →
    ∃ w : Word, stepTimes 2 s = .next { s with
      sched := turns, host := rest, responses := s.responses ++ [.data w, .data w],
      names := namesAfter y (.word w) (namesAfter x (.word w) s.names) }) ∧
  (∀ (s : State) (a b : HostAction) (off : Fin 64) (x y : Option String) (rest : List HostAction) (turns : List Agent)
    (k : Nat), s.sched = .host :: List.replicate k .block ++ .host :: turns →
    HostActs s a (b :: rest) → IsRead a off x → IsRead b off y → off.val % 4 = 0 →
    s.busy = false ∨ ((∃ bit, s.pnOut = some bit) ∧ decode s.lcmd = .ok .generate ∧ s.begun = true) →
    ∃ w : Word, stepTimes (k + 2) s = .next { s with
      sched := turns, host := rest, responses := s.responses ++ [.data w, .data w],
      names := namesAfter y (.word w) (namesAfter x (.word w) s.names) })

/-- 20_memory.md R54: a legal write to an ARG register stores the value; one to STATUS, RESULT, a view or a reserved offset is
acknowledged and has no effect; one to CMD is an acceptance or a drop. -/
def Obligations.LegalWritesByOffset : Prop :=
  ∀ (s : State) (a : HostAction) (off : Fin 64) (v : Word) (rest : List HostAction), HostActs s a rest →
    IsWrite s a off v → off.val % 4 = 0 →
    ∃ t : State, step s = .next { t with
        sched := s.sched.tail, host := rest, responses := s.responses ++ [.ack], freeIdx := s.freeIdx + 1 } ∧
      (off.val = 0x00 → s.busy = false → t = accept v s) ∧ (off.val = 0x00 → s.busy = true → t = dropCommand s) ∧
      (off.val = 0x04 → t = { s with arg0 := v }) ∧ (off.val = 0x08 → t = { s with arg1 := v }) ∧
      (off.val = 0x0C → t = { s with arg2 := v }) ∧ (0x10 ≤ off.val → t = s)

/-- 20_memory.md R58, R59: a CMD write while BUSY = 0 is accepted: the word and the arguments are latched, OVR is cleared and
BUSY set; while BUSY = 1 it is dropped: acknowledged, OVR is set, and the running command and its arguments are untouched.
`begun := false`, that the accepted command has not made its checks, is the model's own field (log 3). -/
def Obligations.CmdWritesAreAcceptedOrDropped : Prop :=
  (∀ (s : State) (a : HostAction) (v : Word) (rest : List HostAction), HostActs s a rest → IsWrite s a 0x00 v →
    s.busy = false →
    step s = .next { afterTurn s with
      lcmd := v, larg0 := s.arg0, larg1 := s.arg1, larg2 := s.arg2, ovr := false, busy := true, begun := false,
      host := rest, responses := s.responses ++ [.ack], freeIdx := s.freeIdx + 1 }) ∧
  (∀ (s : State) (a : HostAction) (v : Word) (rest : List HostAction), HostActs s a rest → IsWrite s a 0x00 v →
    s.busy = true →
    step s = .next { afterTurn s with
      ovr := true, host := rest, responses := s.responses ++ [.ack], freeIdx := s.freeIdx + 1 })

/-- 20_memory.md R60: a read that follows a write to the same ARG register returns the written value, also while BUSY = 1. -/
def Obligations.ArgReadsReturnWhatWasWritten : Prop :=
  ∀ (s : State) (a b : HostAction) (off : Fin 64) (v : Word) (x : Option String) (rest : List HostAction)
    (turns : List Agent), off.val = 0x04 ∨ off.val = 0x08 ∨ off.val = 0x0C → s.sched = .host :: .host :: turns →
    HostActs s a (b :: rest) → IsWrite s a off v → IsRead b off x →
    ∃ t : State, stepTimes 2 s = .next t ∧ t.responses = s.responses ++ [.ack, .data v] ∧ t.host = rest ∧
      t.busy = s.busy ∧ t.names = namesAfter x (.word v) s.names

/-- The window stands at PN_BASE: each of its 64 offsets has its own host address, no other address reaches it
(20_memory.md R50), and a register's byte lanes are little-endian (R52). -/
def Obligations.WindowAddressesAndByteLanes : Prop :=
  (∀ off : Fin 64, windowOffset (hostAddress off) = some off) ∧
  (∀ (addr : Nat) (off : Fin 64), windowOffset addr = some off → addr = Config.pnBase + off.val) ∧
  (∀ (w : Word) (k i : Nat), k < 4 → i < 8 → (byteLane w k).getLsbD i = w.getLsbD (8 * k + i)) ∧
  (∀ w : Word, wordOfBytes (byteLane w 0) (byteLane w 1) (byteLane w 2) (byteLane w 3) = w)

/-- 20_memory.md R64: while a command is in progress, no write and no step but hardware reset changes its latched word or
arguments. -/
def Obligations.LatchedArgumentsAreKeptWhileBusy : Prop :=
  ∀ s t : State, s.busy = true → resetsNext s = false → step s = .next t →
    t.lcmd = s.lcmd ∧ t.larg0 = s.larg0 ∧ t.larg1 = s.larg1 ∧ t.larg2 = s.larg2

/-! ### Who writes what -/

/-- 10_state.md R21, R22, R25, R31: short of hardware reset, POLY, ORDER and SEED change only at the successful completion of
INIT, LFSR only in INIT, RESET or GENERATE, and an ARG register only by a legal write to it. -/
def Obligations.EngineStateHasOnlyItsWriters : Prop :=
  ∀ s t : State, resetsNext s = false → step s = .next t →
    (t.poly ≠ s.poly ∨ t.order ≠ s.order ∨ t.seed ≠ s.seed →
      BlockRuns s ∧ decode s.lcmd = .ok .init ∧ t.busy = false ∧ t.code = .ok) ∧
    (t.lfsr ≠ s.lfsr → BlockRuns s ∧
      ((decode s.lcmd = .ok .init ∧ t.busy = false ∧ t.code = .ok) ∨
       (decode s.lcmd = .ok .reset ∧ t.busy = false ∧ t.code = .ok) ∨
       (decode s.lcmd = .ok .generate ∧ s.begun = true))) ∧
    (t.arg0 ≠ s.arg0 → writesNext .arg0 s = true) ∧ (t.arg1 ≠ s.arg1 → writesNext .arg1 s = true) ∧
    (t.arg2 ≠ s.arg2 → writesNext .arg2 s = true)

/-- 10_state.md R35: RESULT is written only at the successful completion of BUILDPOLY1 to BUILDPOLY5, MLPOLY and STATESIZE, and
by hardware reset. -/
def Obligations.ResultHasOnlyItsWriters : Prop :=
  ∀ s t : State, step s = .next t → t.result ≠ s.result →
    (resetsNext s = true ∧ t.result = 0#32) ∨
    (BlockRuns s ∧ t.busy = false ∧ t.code = .ok ∧
      ∃ i, decode s.lcmd = .ok i ∧ (i.opcode = 0x1 ∨ i = .mlpoly ∨ i = .statesize))

/-- 10_state.md R34: the fields of STATUS, and what sets and clears each. -/
def Obligations.StatusFieldsAndTheirWriters : Prop :=
  (∀ s : State, (statusWord s).extractLsb' 0 2 = codeBits s.code ∧ (statusWord s).extractLsb' 2 2 = 0#2 ∧
    (statusWord s).getLsbD 4 = s.busy ∧ (statusWord s).getLsbD 5 = s.ready ∧ (statusWord s).getLsbD 6 = s.ovr ∧
    statusWord s >>> 7 = 0#32) ∧
  (codeBits .ok = 0#2 ∧ codeBits .invalidArgument = 1#2 ∧ codeBits .illegalCommand = 2#2 ∧ ∀ c, codeBits c ≠ 3#2) ∧
  (∀ s t : State, resetsNext s = true → step s = .next t → statusWord t = 0#32) ∧
  (∀ s t : State, resetsNext s = false → step s = .next t →
    (t.code ≠ s.code → BlockRuns s ∧ t.busy = false) ∧
    (t.busy ≠ s.busy → (s.busy = false ∧ writesNext .cmd s = true) ∨ (s.busy = true ∧ BlockRuns s)) ∧
    (t.ready ≠ s.ready → t.ready = true ∧ BlockRuns s ∧ decode s.lcmd = .ok .init ∧ t.busy = false ∧ t.code = .ok) ∧
    (t.ovr ≠ s.ovr → writesNext .cmd s = true ∧ t.ovr = s.busy) ∧
    (writesNext .cmd s = true → t.busy = true ∧ t.ovr = s.busy) ∧
    (writesNext .status s = true → statusWord t = statusWord s))

/-- 41_engine.md R136: the lifecycle. A successful INIT makes or keeps READY = 1; RESET and GENERATE keep READY, and fail with
nothing changed when it is 0; the other commands run in either state and change no engine state; and only hardware reset
returns to READY = 0. -/
def Obligations.LifecycleOfTheEngine : Prop :=
  (∀ s t : State, step s = .next t → s.ready = true → t.ready = false → resetsNext s = true) ∧
  (∀ s : State, BlockRuns s → decode s.lcmd = .ok .init →
    ∃ t : State, step s = .next t ∧ (t.busy = false → t.code = .ok → t.ready = true) ∧
      (t.busy = true ∨ t.code ≠ .ok → SameEngine s t)) ∧
  (∀ s : State, BlockRuns s → decode s.lcmd = .ok .reset ∨ decode s.lcmd = .ok .generate →
    ∃ t : State, step s = .next t ∧ t.ready = s.ready ∧ t.poly = s.poly ∧ t.order = s.order ∧ t.seed = s.seed ∧
      (s.ready = false → s.begun = false → t.busy = false ∧ t.code = .invalidArgument ∧ t.lfsr = s.lfsr)) ∧
  (∀ (s : State) (i : Instr), BlockRuns s → decode s.lcmd = .ok i → i.opcode = 0x1 ∨ i = .mlpoly ∨ i = .statesize →
    ∃ t : State, step s = .next t ∧ SameEngine s t ∧ t.busy = false ∧ t.code = .ok)

/-! ### Hardware reset and invariants -/

/-- 10_state.md R39: hardware reset, whatever is going on, leaves every element the spec gives a reset value at that value; it
keeps what the host has already received and the host's other actions (70_reset_and_hazards.md R180, log 16); and the state
a run starts in holds those values (70_reset_and_hazards.md R191). -/
def Obligations.HardwareResetLeavesTheResetValues : Prop :=
  (∀ s : State, resetsNext s = true → ∃ t : State, step s = .next t ∧ AtResetValues t ∧
    t.taken = s.taken ∧ t.responses = s.responses ∧ t.names = s.names ∧ t.host = s.host.tail) ∧
  AtResetValues State.reset ∧ State.reset.rstN = true

/-- 70_reset_and_hazards.md R180: while `rst_n` is asserted every step leaves the reset values, whoever moves; and the state
stays in reset until the rising edge. -/
def Obligations.AssertedResetHoldsTheBlock : Prop :=
  ∀ s t : State, BlockInv s → s.rstN = false → step s = .next t →
    AtResetValues t ∧ t.taken = s.taken ∧ (t.rstN = true → resetsNext s = true)

/-- The invariant of the block holds in the state a run starts in (10_state.md R27, R39). -/
def Obligations.InvariantHoldsAtReset : Prop := BlockInv State.reset ∧ LfsrFromSeed State.reset

/-- Every step keeps the invariant of the block: 10_state.md R26 while READY = 1 and R27 while READY = 0; the hidden state and
the output port agree with the command in progress (R33, R38), in particular INIT's local register is always the clamped
initial value after the advances done; and the reset values hold while `rst_n` is asserted (70 R180). -/
def Obligations.EveryStepKeepsTheInvariant : Prop :=
  ∀ s t : State, BlockInv s → step s = .next t → BlockInv t

/-- Every step keeps LFSR some number of advances of the engine's own polynomial after SEED (10_state.md R23, R25). -/
def Obligations.EveryStepKeepsLfsrAnAdvanceOfSeed : Prop :=
  ∀ s t : State, LfsrFromSeed s → step s = .next t → LfsrFromSeed t

/-- 10_state.md R38: the hidden state is read only by the command in progress: two states that differ only in hidden state no
command in progress may read take the same step, to states that again differ only so. -/
def Obligations.HiddenStateIsReadOnlyByItsCommand : Prop :=
  ∀ s t : State, SameButHidden s t → SameOutcomeButHidden (step s) (step t)

/-! ### The output port, waiting and completion -/

/-- 10_state.md R33: a bit on offer stays on offer, with the same value, until it transfers to the host, who then has it last; or
until hardware reset. -/
def Obligations.OfferedBeatHoldsUntilItTransfers : Prop :=
  ∀ (s t : State) (b : Bool), BlockInv s → s.pnOut = some b → resetsNext s = false → step s = .next t →
    (t.pnOut = some b ∧ t.taken = s.taken ∧ t.lfsr = s.lfsr ∧ t.busy = true) ∨
    (t.pnOut = none ∧ t.taken = s.taken ++ [b] ∧ t.lfsr = s.lfsr ∧ t.busy = true ∧ nextAgent s = .host ∧
      ∃ x, s.host.head? = some (.take x))

/-- 60_exceptions.md R177: a GENERATE whose host never takes its beat stays BUSY for ever, whatever else the host does short of
hardware reset, and its CMD writes are dropped: the command in progress stays the same. -/
def Obligations.GenerateWithoutItsBeatsHangs : Prop :=
  ∀ (s : State) (b : Bool), BlockInv s → s.rstN = true → s.pnOut = some b →
    (∀ a ∈ s.host, (∀ x, a ≠ .take x) ∧ (∀ k x, a ≠ .takeCount k x) ∧ a ≠ .rstN false ∧ a ≠ .rstN true) →
    ∀ n, ∃ t : State, stepTimes n s = .next t ∧ t.busy = true ∧ t.pnOut = some b ∧ t.lcmd = s.lcmd ∧ t.lfsr = s.lfsr ∧
      t.taken = s.taken

/-- 70_reset_and_hazards.md R188, under the model's default schedule (log 2): every command other than GENERATE completes, INIT after at most
as many steps as its shift count and two. -/
def Obligations.CommandsNotWaitingComplete : Prop :=
  ∀ s : State, BlockInv s → s.rstN = true → s.busy = true → s.sched = [] → decode s.lcmd ≠ .ok .generate →
    ∃ n t, n ≤ s.larg1.toNat + 2 ∧ stepTimes n s = .next t ∧ t.busy = false
end

