-- ==== Sys2Proof/Laws/Bits.lean ====
section
/-! SUPPORT. What the bit-level notation of 00_scope.md says, bit by bit: masks, the highest set bit, the XOR of bits. -/

namespace Sys2Proof.Machine

/-- A word shifted right by `k` is 0 exactly when every bit from `k` on is clear. -/
theorem shiftRight_eq_zero_iff (r : Word) (k : Nat) : r >>> k = 0#32 ↔ ∀ i, k ≤ i → r.getLsbD i = false := by
  constructor
  · intro h i hi
    have hb := congrArg (fun w : Word => w.getLsbD (i - k)) h
    simpa [BitVec.getLsbD_ushiftRight, Nat.add_sub_cancel' hi] using hb
  · intro h
    apply BitVec.eq_of_getLsbD_eq
    intro i _
    simp [BitVec.getLsbD_ushiftRight, h (k + i) (by omega)]

/-- A word whose bits from `k` on are clear is the zero word when its bits below `k` are clear too. -/
theorem eq_zero_of_low_bits (r : Word) (k : Nat) (hr : r >>> k = 0#32) (h : ∀ i < k, r.getLsbD i = false) : r = 0#32 := by
  apply BitVec.eq_of_getLsbD_eq
  intro i _
  by_cases hi : i < k
  · simp [h i hi]
  · simp [(shiftRight_eq_zero_iff r k).1 hr i (by omega)]

/-- Two words within `k` bits are equal when they agree on their low `k` bits. -/
theorem eq_of_low_bits (r t : Word) (k : Nat) (hr : r >>> k = 0#32) (ht : t >>> k = 0#32)
    (h : ∀ i < k, r.getLsbD i = t.getLsbD i) : r = t := by
  apply BitVec.eq_of_getLsbD_eq
  intro i _
  by_cases hi : i < k
  · exact h i hi
  · rw [(shiftRight_eq_zero_iff r k).1 hr i (by omega), (shiftRight_eq_zero_iff t k).1 ht i (by omega)]

@[simp] theorem bitWord_getLsbD (b : Bool) (i : Nat) : (bitWord b).getLsbD i = (b && decide (i = 0)) := by
  rcases i with _ | i
  · cases b <;> rfl
  · cases b <;> simp [bitWord]

/-- The XOR of the bits below `n` is the XOR over the list of their indices. -/
theorem xorBelow_eq_foldl (x : Word) (n : Nat) :
    xorBelow x n = (List.range n).foldl (fun a i => a ^^ x.getLsbD i) false := by
  induction n with
  | zero => rfl
  | succ n ih => simp [xorBelow, ih, List.range_succ]

/-- Bits that agree have the same XOR. -/
theorem xorBelow_congr {x y : Word} {n : Nat} (h : ∀ i < n, x.getLsbD i = y.getLsbD i) : xorBelow x n = xorBelow y n := by
  induction n with
  | zero => rfl
  | succ n ih => simp [xorBelow, ih fun i hi => h i (by omega), h n (by omega)]

/-- Clear bits above `k` add nothing to the XOR. -/
theorem xorBelow_of_clear_above {x : Word} {k n : Nat} (hk : k ≤ n) (h : ∀ i, k ≤ i → x.getLsbD i = false) :
    xorBelow x n = xorBelow x k := by
  induction n with
  | zero => simp [Nat.le_zero.1 hk]
  | succ n ih =>
    by_cases he : k = n + 1
    · rw [he]
    · simp [xorBelow, ih (by omega), h n (by omega)]

@[simp] theorem xorBelow_zero (n : Nat) : xorBelow 0#32 n = false := by
  induction n with
  | zero => rfl
  | succ n ih => simp [xorBelow, ih]

@[simp] theorem parity_zero : parity 0#32 = false := xorBelow_zero 32

theorem hsbBelow_lt (x : Word) {n : Nat} (hn : 0 < n) : hsbBelow x n < n := by
  induction n with
  | zero => omega
  | succ n ih =>
    unfold hsbBelow
    split
    · omega
    · rcases n with _ | n
      · simp [hsbBelow]
      · have := ih (by omega); omega

/-- An order fits in 5 bits (10_state.md R22). -/
theorem hsb_lt (p : Word) : hsb p < 32 := hsbBelow_lt p (by omega)

/-- Above the bit found, and below the bound of the search, every bit is clear. -/
theorem hsbBelow_above (x : Word) (n i : Nat) (hi : hsbBelow x n < i) (hn : i < n) : x.getLsbD i = false := by
  induction n with
  | zero => omega
  | succ n ih =>
    unfold hsbBelow at hi
    split at hi
    · omega
    · rename_i hb
      by_cases he : i = n
      · simpa [he] using hb
      · exact ih hi (by omega)

/-- The bit found is set, when any bit below the bound is. -/
theorem hsbBelow_set (x : Word) (n i : Nat) (hn : i < n) (h : x.getLsbD i = true) : x.getLsbD (hsbBelow x n) = true := by
  induction n with
  | zero => omega
  | succ n ih =>
    unfold hsbBelow
    split
    · assumption
    · rename_i hb
      refine ih ?_
      rcases Nat.lt_succ_iff_lt_or_eq.1 hn with h' | h'
      · exact h'
      · exact absurd (h' ▸ h) hb

/-- The order found in the ORDER field is the order computed (10_state.md R22). -/
@[simp] theorem order_toNat_hsb (p : Word) : (BitVec.ofNat 5 (hsb p)).toNat = hsb p := by
  have := hsb_lt p
  simp [BitVec.toNat_ofNat]; omega

theorem one_shiftLeft_toNat (k : Nat) (hk : k < 32) : (1#32 <<< k).toNat = 2 ^ k := by
  have : 2 ^ k < 2 ^ 32 := Nat.pow_lt_pow_right (by omega) hk
  rw [BitVec.toNat_shiftLeft, Nat.shiftLeft_eq, BitVec.toNat_ofNat, Nat.mod_eq_of_lt (by omega : 1 < 2 ^ 32),
    Nat.one_mul, Nat.mod_eq_of_lt this]

theorem mask_toNat (k : Nat) (hk : k < 32) : (mask k).toNat = 2 ^ k - 1 := by
  have h := one_shiftLeft_toNat k hk
  have hp : 0 < 2 ^ k := Nat.pow_pos (by omega)
  have hlt : 2 ^ k < 2 ^ 32 := Nat.pow_lt_pow_right (by omega) hk
  unfold mask
  rw [BitVec.toNat_sub, h]
  simp; omega

/-- `mask(k)` has its low `k` bits set and no other (00_scope.md R14). -/
theorem mask_getLsbD (k i : Nat) (hk : k < 32) : (mask k).getLsbD i = decide (i < k) := by
  rw [BitVec.getLsbD, mask_toNat k hk, Nat.testBit_two_pow_sub_one]

/-- A value clamped to `k` bits fits in `k` bits (41_engine.md R126, steps 2 and 3). -/
theorem clamp_fits (v : Word) (k : Nat) (hk : k < 32) : (v &&& mask k) >>> k = 0#32 := by
  rw [shiftRight_eq_zero_iff]
  intro i hi
  simp [mask_getLsbD k i hk]; omega

end Sys2Proof.Machine
end

