-- ==== Sys2Proof/Laws/Advance.lean ====
section
/-! SUPPORT. The single-bit advance bit by bit, and how advances and output bits compose (41_engine.md R120 to R123). -/

namespace Sys2Proof.Machine

/-- Every bit of the advanced register: the bits shift down by one and the feedback enters at bit `k - 1`. -/
theorem advance_getLsbD (r p : Word) (k i : Nat) (hk : 1 ≤ k) (hk32 : k ≤ 32) :
    (advance r p k).getLsbD i = (r.getLsbD (i + 1) || (decide (i + 1 = k) && feedback r p)) := by
  unfold advance
  rw [BitVec.getLsbD_or, BitVec.getLsbD_ushiftRight, BitVec.getLsbD_shiftLeft, bitWord_getLsbD, Nat.add_comm 1 i]
  congr 1
  by_cases h : i + 1 = k
  · subst h; simp; omega
  · by_cases h2 : i < k - 1
    · simp [h, h2]
    · have : ¬ (i - (k - 1) = 0) := by omega
      simp [h, this]

/-- The advance keeps the register within `k` bits (41_engine.md R122). -/
theorem advance_fits (r p : Word) (k : Nat) (hk : 1 ≤ k) (hk32 : k ≤ 32) (hr : r >>> k = 0#32) :
    advance r p k >>> k = 0#32 := by
  rw [shiftRight_eq_zero_iff] at hr ⊢
  intro i hi
  rw [advance_getLsbD r p k i hk hk32, hr (i + 1) (by omega)]
  simp; omega

@[simp] theorem feedback_zero (p : Word) : feedback 0#32 p = false := by simp [feedback]

@[simp] theorem advance_zero (p : Word) (k : Nat) : advance 0#32 p k = 0#32 := by
  simp [advance, bitWord]

theorem advanceTimes_fits (p : Word) (k n : Nat) (hk : 1 ≤ k) (hk32 : k ≤ 32) :
    ∀ r : Word, r >>> k = 0#32 → advanceTimes p k n r >>> k = 0#32 := by
  induction n with
  | zero => intro r hr; exact hr
  | succ n ih => intro r hr; exact ih _ (advance_fits r p k hk hk32 hr)

@[simp] theorem advanceTimes_zero (p : Word) (k : Nat) (r : Word) : advanceTimes p k 0 r = r := rfl

theorem advanceTimes_add (p : Word) (k m n : Nat) :
    ∀ r : Word, advanceTimes p k (m + n) r = advanceTimes p k n (advanceTimes p k m r) := by
  induction m with
  | zero => intro r; simp
  | succ m ih => intro r; rw [Nat.succ_add]; exact ih _

/-- The last advance may be split off instead of the first. -/
theorem advanceTimes_succ (p : Word) (k n : Nat) (r : Word) :
    advanceTimes p k (n + 1) r = advance (advanceTimes p k n r) p k := by
  rw [advanceTimes_add]; rfl

@[simp] theorem outputBits_length (p : Word) (k n : Nat) : ∀ r : Word, (outputBits p k n r).length = n := by
  induction n with
  | zero => intro r; rfl
  | succ n ih => intro r; simp [outputBits, ih]

theorem outputBits_add (p : Word) (k m n : Nat) :
    ∀ r : Word, outputBits p k (m + n) r = outputBits p k m r ++ outputBits p k n (advanceTimes p k m r) := by
  induction m with
  | zero => intro r; simp [outputBits]
  | succ m ih => intro r; rw [Nat.succ_add]; simp [outputBits, advanceTimes, ih]

/-- Bits that departed, then the departing bit of the register they left. -/
theorem outputBits_succ (p : Word) (k n : Nat) (r : Word) :
    outputBits p k (n + 1) r = outputBits p k n r ++ [departing (advanceTimes p k n r)] := by
  rw [outputBits_add]; rfl

end Sys2Proof.Machine
end

