-- ==== Sys2Proof/Laws/State.lean ====
section
/-! SUPPORT. One lemma for each field of State and each named update of it, true by rfl, so that no proof unfolds a record
update. -/

namespace Sys2Proof.Machine

@[simp] theorem complete_poly (c : StatusCode) (s : State) : (complete c s).poly = s.poly := rfl
@[simp] theorem complete_order (c : StatusCode) (s : State) : (complete c s).order = s.order := rfl
@[simp] theorem complete_lfsr (c : StatusCode) (s : State) : (complete c s).lfsr = s.lfsr := rfl
@[simp] theorem complete_seed (c : StatusCode) (s : State) : (complete c s).seed = s.seed := rfl
@[simp] theorem complete_ready (c : StatusCode) (s : State) : (complete c s).ready = s.ready := rfl
@[simp] theorem complete_arg0 (c : StatusCode) (s : State) : (complete c s).arg0 = s.arg0 := rfl
@[simp] theorem complete_arg1 (c : StatusCode) (s : State) : (complete c s).arg1 = s.arg1 := rfl
@[simp] theorem complete_arg2 (c : StatusCode) (s : State) : (complete c s).arg2 = s.arg2 := rfl
@[simp] theorem complete_result (c : StatusCode) (s : State) : (complete c s).result = s.result := rfl
@[simp] theorem complete_code (c : StatusCode) (s : State) : (complete c s).code = c := rfl
@[simp] theorem complete_busy (c : StatusCode) (s : State) : (complete c s).busy = false := rfl
@[simp] theorem complete_ovr (c : StatusCode) (s : State) : (complete c s).ovr = s.ovr := rfl
@[simp] theorem complete_lcmd (c : StatusCode) (s : State) : (complete c s).lcmd = s.lcmd := rfl
@[simp] theorem complete_larg0 (c : StatusCode) (s : State) : (complete c s).larg0 = s.larg0 := rfl
@[simp] theorem complete_larg1 (c : StatusCode) (s : State) : (complete c s).larg1 = s.larg1 := rfl
@[simp] theorem complete_larg2 (c : StatusCode) (s : State) : (complete c s).larg2 = s.larg2 := rfl
@[simp] theorem complete_remain (c : StatusCode) (s : State) : (complete c s).remain = s.remain := rfl
@[simp] theorem complete_begun (c : StatusCode) (s : State) : (complete c s).begun = s.begun := rfl
@[simp] theorem complete_work (c : StatusCode) (s : State) : (complete c s).work = s.work := rfl
@[simp] theorem complete_rstN (c : StatusCode) (s : State) : (complete c s).rstN = s.rstN := rfl
@[simp] theorem complete_pnOut (c : StatusCode) (s : State) : (complete c s).pnOut = s.pnOut := rfl
@[simp] theorem complete_host (c : StatusCode) (s : State) : (complete c s).host = s.host := rfl
@[simp] theorem complete_sched (c : StatusCode) (s : State) : (complete c s).sched = s.sched := rfl
@[simp] theorem complete_responses (c : StatusCode) (s : State) : (complete c s).responses = s.responses := rfl
@[simp] theorem complete_taken (c : StatusCode) (s : State) : (complete c s).taken = s.taken := rfl
@[simp] theorem complete_names (c : StatusCode) (s : State) : (complete c s).names = s.names := rfl
@[simp] theorem complete_freeIdx (c : StatusCode) (s : State) : (complete c s).freeIdx = s.freeIdx := rfl

@[simp] theorem returnValue_poly (v : Word) (s : State) : (returnValue v s).poly = s.poly := rfl
@[simp] theorem returnValue_order (v : Word) (s : State) : (returnValue v s).order = s.order := rfl
@[simp] theorem returnValue_lfsr (v : Word) (s : State) : (returnValue v s).lfsr = s.lfsr := rfl
@[simp] theorem returnValue_seed (v : Word) (s : State) : (returnValue v s).seed = s.seed := rfl
@[simp] theorem returnValue_ready (v : Word) (s : State) : (returnValue v s).ready = s.ready := rfl
@[simp] theorem returnValue_arg0 (v : Word) (s : State) : (returnValue v s).arg0 = s.arg0 := rfl
@[simp] theorem returnValue_arg1 (v : Word) (s : State) : (returnValue v s).arg1 = s.arg1 := rfl
@[simp] theorem returnValue_arg2 (v : Word) (s : State) : (returnValue v s).arg2 = s.arg2 := rfl
@[simp] theorem returnValue_result (v : Word) (s : State) : (returnValue v s).result = v := rfl
@[simp] theorem returnValue_code (v : Word) (s : State) : (returnValue v s).code = .ok := rfl
@[simp] theorem returnValue_busy (v : Word) (s : State) : (returnValue v s).busy = false := rfl
@[simp] theorem returnValue_ovr (v : Word) (s : State) : (returnValue v s).ovr = s.ovr := rfl
@[simp] theorem returnValue_lcmd (v : Word) (s : State) : (returnValue v s).lcmd = s.lcmd := rfl
@[simp] theorem returnValue_larg0 (v : Word) (s : State) : (returnValue v s).larg0 = s.larg0 := rfl
@[simp] theorem returnValue_larg1 (v : Word) (s : State) : (returnValue v s).larg1 = s.larg1 := rfl
@[simp] theorem returnValue_larg2 (v : Word) (s : State) : (returnValue v s).larg2 = s.larg2 := rfl
@[simp] theorem returnValue_remain (v : Word) (s : State) : (returnValue v s).remain = s.remain := rfl
@[simp] theorem returnValue_begun (v : Word) (s : State) : (returnValue v s).begun = s.begun := rfl
@[simp] theorem returnValue_work (v : Word) (s : State) : (returnValue v s).work = s.work := rfl
@[simp] theorem returnValue_rstN (v : Word) (s : State) : (returnValue v s).rstN = s.rstN := rfl
@[simp] theorem returnValue_pnOut (v : Word) (s : State) : (returnValue v s).pnOut = s.pnOut := rfl
@[simp] theorem returnValue_host (v : Word) (s : State) : (returnValue v s).host = s.host := rfl
@[simp] theorem returnValue_sched (v : Word) (s : State) : (returnValue v s).sched = s.sched := rfl
@[simp] theorem returnValue_responses (v : Word) (s : State) : (returnValue v s).responses = s.responses := rfl
@[simp] theorem returnValue_taken (v : Word) (s : State) : (returnValue v s).taken = s.taken := rfl
@[simp] theorem returnValue_names (v : Word) (s : State) : (returnValue v s).names = s.names := rfl
@[simp] theorem returnValue_freeIdx (v : Word) (s : State) : (returnValue v s).freeIdx = s.freeIdx := rfl

@[simp] theorem accept_poly (v : Word) (s : State) : (accept v s).poly = s.poly := rfl
@[simp] theorem accept_order (v : Word) (s : State) : (accept v s).order = s.order := rfl
@[simp] theorem accept_lfsr (v : Word) (s : State) : (accept v s).lfsr = s.lfsr := rfl
@[simp] theorem accept_seed (v : Word) (s : State) : (accept v s).seed = s.seed := rfl
@[simp] theorem accept_ready (v : Word) (s : State) : (accept v s).ready = s.ready := rfl
@[simp] theorem accept_arg0 (v : Word) (s : State) : (accept v s).arg0 = s.arg0 := rfl
@[simp] theorem accept_arg1 (v : Word) (s : State) : (accept v s).arg1 = s.arg1 := rfl
@[simp] theorem accept_arg2 (v : Word) (s : State) : (accept v s).arg2 = s.arg2 := rfl
@[simp] theorem accept_result (v : Word) (s : State) : (accept v s).result = s.result := rfl
@[simp] theorem accept_code (v : Word) (s : State) : (accept v s).code = s.code := rfl
@[simp] theorem accept_busy (v : Word) (s : State) : (accept v s).busy = true := rfl
@[simp] theorem accept_ovr (v : Word) (s : State) : (accept v s).ovr = false := rfl
@[simp] theorem accept_lcmd (v : Word) (s : State) : (accept v s).lcmd = v := rfl
@[simp] theorem accept_larg0 (v : Word) (s : State) : (accept v s).larg0 = s.arg0 := rfl
@[simp] theorem accept_larg1 (v : Word) (s : State) : (accept v s).larg1 = s.arg1 := rfl
@[simp] theorem accept_larg2 (v : Word) (s : State) : (accept v s).larg2 = s.arg2 := rfl
@[simp] theorem accept_remain (v : Word) (s : State) : (accept v s).remain = s.remain := rfl
@[simp] theorem accept_begun (v : Word) (s : State) : (accept v s).begun = false := rfl
@[simp] theorem accept_work (v : Word) (s : State) : (accept v s).work = s.work := rfl
@[simp] theorem accept_rstN (v : Word) (s : State) : (accept v s).rstN = s.rstN := rfl
@[simp] theorem accept_pnOut (v : Word) (s : State) : (accept v s).pnOut = s.pnOut := rfl
@[simp] theorem accept_host (v : Word) (s : State) : (accept v s).host = s.host := rfl
@[simp] theorem accept_sched (v : Word) (s : State) : (accept v s).sched = s.sched := rfl
@[simp] theorem accept_responses (v : Word) (s : State) : (accept v s).responses = s.responses := rfl
@[simp] theorem accept_taken (v : Word) (s : State) : (accept v s).taken = s.taken := rfl
@[simp] theorem accept_names (v : Word) (s : State) : (accept v s).names = s.names := rfl
@[simp] theorem accept_freeIdx (v : Word) (s : State) : (accept v s).freeIdx = s.freeIdx := rfl

@[simp] theorem dropCommand_poly (s : State) : (dropCommand s).poly = s.poly := rfl
@[simp] theorem dropCommand_order (s : State) : (dropCommand s).order = s.order := rfl
@[simp] theorem dropCommand_lfsr (s : State) : (dropCommand s).lfsr = s.lfsr := rfl
@[simp] theorem dropCommand_seed (s : State) : (dropCommand s).seed = s.seed := rfl
@[simp] theorem dropCommand_ready (s : State) : (dropCommand s).ready = s.ready := rfl
@[simp] theorem dropCommand_arg0 (s : State) : (dropCommand s).arg0 = s.arg0 := rfl
@[simp] theorem dropCommand_arg1 (s : State) : (dropCommand s).arg1 = s.arg1 := rfl
@[simp] theorem dropCommand_arg2 (s : State) : (dropCommand s).arg2 = s.arg2 := rfl
@[simp] theorem dropCommand_result (s : State) : (dropCommand s).result = s.result := rfl
@[simp] theorem dropCommand_code (s : State) : (dropCommand s).code = s.code := rfl
@[simp] theorem dropCommand_busy (s : State) : (dropCommand s).busy = s.busy := rfl
@[simp] theorem dropCommand_ovr (s : State) : (dropCommand s).ovr = true := rfl
@[simp] theorem dropCommand_lcmd (s : State) : (dropCommand s).lcmd = s.lcmd := rfl
@[simp] theorem dropCommand_larg0 (s : State) : (dropCommand s).larg0 = s.larg0 := rfl
@[simp] theorem dropCommand_larg1 (s : State) : (dropCommand s).larg1 = s.larg1 := rfl
@[simp] theorem dropCommand_larg2 (s : State) : (dropCommand s).larg2 = s.larg2 := rfl
@[simp] theorem dropCommand_remain (s : State) : (dropCommand s).remain = s.remain := rfl
@[simp] theorem dropCommand_begun (s : State) : (dropCommand s).begun = s.begun := rfl
@[simp] theorem dropCommand_work (s : State) : (dropCommand s).work = s.work := rfl
@[simp] theorem dropCommand_rstN (s : State) : (dropCommand s).rstN = s.rstN := rfl
@[simp] theorem dropCommand_pnOut (s : State) : (dropCommand s).pnOut = s.pnOut := rfl
@[simp] theorem dropCommand_host (s : State) : (dropCommand s).host = s.host := rfl
@[simp] theorem dropCommand_sched (s : State) : (dropCommand s).sched = s.sched := rfl
@[simp] theorem dropCommand_responses (s : State) : (dropCommand s).responses = s.responses := rfl
@[simp] theorem dropCommand_taken (s : State) : (dropCommand s).taken = s.taken := rfl
@[simp] theorem dropCommand_names (s : State) : (dropCommand s).names = s.names := rfl
@[simp] theorem dropCommand_freeIdx (s : State) : (dropCommand s).freeIdx = s.freeIdx := rfl

@[simp] theorem enterLoop_poly (n : Nat) (s : State) : (enterLoop n s).poly = s.poly := rfl
@[simp] theorem enterLoop_order (n : Nat) (s : State) : (enterLoop n s).order = s.order := rfl
@[simp] theorem enterLoop_lfsr (n : Nat) (s : State) : (enterLoop n s).lfsr = s.lfsr := rfl
@[simp] theorem enterLoop_seed (n : Nat) (s : State) : (enterLoop n s).seed = s.seed := rfl
@[simp] theorem enterLoop_ready (n : Nat) (s : State) : (enterLoop n s).ready = s.ready := rfl
@[simp] theorem enterLoop_arg0 (n : Nat) (s : State) : (enterLoop n s).arg0 = s.arg0 := rfl
@[simp] theorem enterLoop_arg1 (n : Nat) (s : State) : (enterLoop n s).arg1 = s.arg1 := rfl
@[simp] theorem enterLoop_arg2 (n : Nat) (s : State) : (enterLoop n s).arg2 = s.arg2 := rfl
@[simp] theorem enterLoop_result (n : Nat) (s : State) : (enterLoop n s).result = s.result := rfl
@[simp] theorem enterLoop_code (n : Nat) (s : State) : (enterLoop n s).code = s.code := rfl
@[simp] theorem enterLoop_busy (n : Nat) (s : State) : (enterLoop n s).busy = s.busy := rfl
@[simp] theorem enterLoop_ovr (n : Nat) (s : State) : (enterLoop n s).ovr = s.ovr := rfl
@[simp] theorem enterLoop_lcmd (n : Nat) (s : State) : (enterLoop n s).lcmd = s.lcmd := rfl
@[simp] theorem enterLoop_larg0 (n : Nat) (s : State) : (enterLoop n s).larg0 = s.larg0 := rfl
@[simp] theorem enterLoop_larg1 (n : Nat) (s : State) : (enterLoop n s).larg1 = s.larg1 := rfl
@[simp] theorem enterLoop_larg2 (n : Nat) (s : State) : (enterLoop n s).larg2 = s.larg2 := rfl
@[simp] theorem enterLoop_remain (n : Nat) (s : State) : (enterLoop n s).remain = n := rfl
@[simp] theorem enterLoop_begun (n : Nat) (s : State) : (enterLoop n s).begun = true := rfl
@[simp] theorem enterLoop_work (n : Nat) (s : State) : (enterLoop n s).work = s.work := rfl
@[simp] theorem enterLoop_rstN (n : Nat) (s : State) : (enterLoop n s).rstN = s.rstN := rfl
@[simp] theorem enterLoop_pnOut (n : Nat) (s : State) : (enterLoop n s).pnOut = s.pnOut := rfl
@[simp] theorem enterLoop_host (n : Nat) (s : State) : (enterLoop n s).host = s.host := rfl
@[simp] theorem enterLoop_sched (n : Nat) (s : State) : (enterLoop n s).sched = s.sched := rfl
@[simp] theorem enterLoop_responses (n : Nat) (s : State) : (enterLoop n s).responses = s.responses := rfl
@[simp] theorem enterLoop_taken (n : Nat) (s : State) : (enterLoop n s).taken = s.taken := rfl
@[simp] theorem enterLoop_names (n : Nat) (s : State) : (enterLoop n s).names = s.names := rfl
@[simp] theorem enterLoop_freeIdx (n : Nat) (s : State) : (enterLoop n s).freeIdx = s.freeIdx := rfl

@[simp] theorem setWork_poly (r : Word) (s : State) : (setWork r s).poly = s.poly := rfl
@[simp] theorem setWork_order (r : Word) (s : State) : (setWork r s).order = s.order := rfl
@[simp] theorem setWork_lfsr (r : Word) (s : State) : (setWork r s).lfsr = s.lfsr := rfl
@[simp] theorem setWork_seed (r : Word) (s : State) : (setWork r s).seed = s.seed := rfl
@[simp] theorem setWork_ready (r : Word) (s : State) : (setWork r s).ready = s.ready := rfl
@[simp] theorem setWork_arg0 (r : Word) (s : State) : (setWork r s).arg0 = s.arg0 := rfl
@[simp] theorem setWork_arg1 (r : Word) (s : State) : (setWork r s).arg1 = s.arg1 := rfl
@[simp] theorem setWork_arg2 (r : Word) (s : State) : (setWork r s).arg2 = s.arg2 := rfl
@[simp] theorem setWork_result (r : Word) (s : State) : (setWork r s).result = s.result := rfl
@[simp] theorem setWork_code (r : Word) (s : State) : (setWork r s).code = s.code := rfl
@[simp] theorem setWork_busy (r : Word) (s : State) : (setWork r s).busy = s.busy := rfl
@[simp] theorem setWork_ovr (r : Word) (s : State) : (setWork r s).ovr = s.ovr := rfl
@[simp] theorem setWork_lcmd (r : Word) (s : State) : (setWork r s).lcmd = s.lcmd := rfl
@[simp] theorem setWork_larg0 (r : Word) (s : State) : (setWork r s).larg0 = s.larg0 := rfl
@[simp] theorem setWork_larg1 (r : Word) (s : State) : (setWork r s).larg1 = s.larg1 := rfl
@[simp] theorem setWork_larg2 (r : Word) (s : State) : (setWork r s).larg2 = s.larg2 := rfl
@[simp] theorem setWork_remain (r : Word) (s : State) : (setWork r s).remain = s.remain := rfl
@[simp] theorem setWork_begun (r : Word) (s : State) : (setWork r s).begun = s.begun := rfl
@[simp] theorem setWork_work (r : Word) (s : State) : (setWork r s).work = r := rfl
@[simp] theorem setWork_rstN (r : Word) (s : State) : (setWork r s).rstN = s.rstN := rfl
@[simp] theorem setWork_pnOut (r : Word) (s : State) : (setWork r s).pnOut = s.pnOut := rfl
@[simp] theorem setWork_host (r : Word) (s : State) : (setWork r s).host = s.host := rfl
@[simp] theorem setWork_sched (r : Word) (s : State) : (setWork r s).sched = s.sched := rfl
@[simp] theorem setWork_responses (r : Word) (s : State) : (setWork r s).responses = s.responses := rfl
@[simp] theorem setWork_taken (r : Word) (s : State) : (setWork r s).taken = s.taken := rfl
@[simp] theorem setWork_names (r : Word) (s : State) : (setWork r s).names = s.names := rfl
@[simp] theorem setWork_freeIdx (r : Word) (s : State) : (setWork r s).freeIdx = s.freeIdx := rfl

@[simp] theorem rewind_poly (s : State) : (rewind s).poly = s.poly := rfl
@[simp] theorem rewind_order (s : State) : (rewind s).order = s.order := rfl
@[simp] theorem rewind_lfsr (s : State) : (rewind s).lfsr = s.seed := rfl
@[simp] theorem rewind_seed (s : State) : (rewind s).seed = s.seed := rfl
@[simp] theorem rewind_ready (s : State) : (rewind s).ready = s.ready := rfl
@[simp] theorem rewind_arg0 (s : State) : (rewind s).arg0 = s.arg0 := rfl
@[simp] theorem rewind_arg1 (s : State) : (rewind s).arg1 = s.arg1 := rfl
@[simp] theorem rewind_arg2 (s : State) : (rewind s).arg2 = s.arg2 := rfl
@[simp] theorem rewind_result (s : State) : (rewind s).result = s.result := rfl
@[simp] theorem rewind_code (s : State) : (rewind s).code = s.code := rfl
@[simp] theorem rewind_busy (s : State) : (rewind s).busy = s.busy := rfl
@[simp] theorem rewind_ovr (s : State) : (rewind s).ovr = s.ovr := rfl
@[simp] theorem rewind_lcmd (s : State) : (rewind s).lcmd = s.lcmd := rfl
@[simp] theorem rewind_larg0 (s : State) : (rewind s).larg0 = s.larg0 := rfl
@[simp] theorem rewind_larg1 (s : State) : (rewind s).larg1 = s.larg1 := rfl
@[simp] theorem rewind_larg2 (s : State) : (rewind s).larg2 = s.larg2 := rfl
@[simp] theorem rewind_remain (s : State) : (rewind s).remain = s.remain := rfl
@[simp] theorem rewind_begun (s : State) : (rewind s).begun = s.begun := rfl
@[simp] theorem rewind_work (s : State) : (rewind s).work = s.work := rfl
@[simp] theorem rewind_rstN (s : State) : (rewind s).rstN = s.rstN := rfl
@[simp] theorem rewind_pnOut (s : State) : (rewind s).pnOut = s.pnOut := rfl
@[simp] theorem rewind_host (s : State) : (rewind s).host = s.host := rfl
@[simp] theorem rewind_sched (s : State) : (rewind s).sched = s.sched := rfl
@[simp] theorem rewind_responses (s : State) : (rewind s).responses = s.responses := rfl
@[simp] theorem rewind_taken (s : State) : (rewind s).taken = s.taken := rfl
@[simp] theorem rewind_names (s : State) : (rewind s).names = s.names := rfl
@[simp] theorem rewind_freeIdx (s : State) : (rewind s).freeIdx = s.freeIdx := rfl

@[simp] theorem withHost_poly (rest : List HostAction) (s : State) : (withHost rest s).poly = s.poly := rfl
@[simp] theorem withHost_order (rest : List HostAction) (s : State) : (withHost rest s).order = s.order := rfl
@[simp] theorem withHost_lfsr (rest : List HostAction) (s : State) : (withHost rest s).lfsr = s.lfsr := rfl
@[simp] theorem withHost_seed (rest : List HostAction) (s : State) : (withHost rest s).seed = s.seed := rfl
@[simp] theorem withHost_ready (rest : List HostAction) (s : State) : (withHost rest s).ready = s.ready := rfl
@[simp] theorem withHost_arg0 (rest : List HostAction) (s : State) : (withHost rest s).arg0 = s.arg0 := rfl
@[simp] theorem withHost_arg1 (rest : List HostAction) (s : State) : (withHost rest s).arg1 = s.arg1 := rfl
@[simp] theorem withHost_arg2 (rest : List HostAction) (s : State) : (withHost rest s).arg2 = s.arg2 := rfl
@[simp] theorem withHost_result (rest : List HostAction) (s : State) : (withHost rest s).result = s.result := rfl
@[simp] theorem withHost_code (rest : List HostAction) (s : State) : (withHost rest s).code = s.code := rfl
@[simp] theorem withHost_busy (rest : List HostAction) (s : State) : (withHost rest s).busy = s.busy := rfl
@[simp] theorem withHost_ovr (rest : List HostAction) (s : State) : (withHost rest s).ovr = s.ovr := rfl
@[simp] theorem withHost_lcmd (rest : List HostAction) (s : State) : (withHost rest s).lcmd = s.lcmd := rfl
@[simp] theorem withHost_larg0 (rest : List HostAction) (s : State) : (withHost rest s).larg0 = s.larg0 := rfl
@[simp] theorem withHost_larg1 (rest : List HostAction) (s : State) : (withHost rest s).larg1 = s.larg1 := rfl
@[simp] theorem withHost_larg2 (rest : List HostAction) (s : State) : (withHost rest s).larg2 = s.larg2 := rfl
@[simp] theorem withHost_remain (rest : List HostAction) (s : State) : (withHost rest s).remain = s.remain := rfl
@[simp] theorem withHost_begun (rest : List HostAction) (s : State) : (withHost rest s).begun = s.begun := rfl
@[simp] theorem withHost_work (rest : List HostAction) (s : State) : (withHost rest s).work = s.work := rfl
@[simp] theorem withHost_rstN (rest : List HostAction) (s : State) : (withHost rest s).rstN = s.rstN := rfl
@[simp] theorem withHost_pnOut (rest : List HostAction) (s : State) : (withHost rest s).pnOut = s.pnOut := rfl
@[simp] theorem withHost_host (rest : List HostAction) (s : State) : (withHost rest s).host = rest := rfl
@[simp] theorem withHost_sched (rest : List HostAction) (s : State) : (withHost rest s).sched = s.sched := rfl
@[simp] theorem withHost_responses (rest : List HostAction) (s : State) : (withHost rest s).responses = s.responses := rfl
@[simp] theorem withHost_taken (rest : List HostAction) (s : State) : (withHost rest s).taken = s.taken := rfl
@[simp] theorem withHost_names (rest : List HostAction) (s : State) : (withHost rest s).names = s.names := rfl
@[simp] theorem withHost_freeIdx (rest : List HostAction) (s : State) : (withHost rest s).freeIdx = s.freeIdx := rfl

@[simp] theorem setArg0_poly (v : Word) (s : State) : (setArg0 v s).poly = s.poly := rfl
@[simp] theorem setArg0_order (v : Word) (s : State) : (setArg0 v s).order = s.order := rfl
@[simp] theorem setArg0_lfsr (v : Word) (s : State) : (setArg0 v s).lfsr = s.lfsr := rfl
@[simp] theorem setArg0_seed (v : Word) (s : State) : (setArg0 v s).seed = s.seed := rfl
@[simp] theorem setArg0_ready (v : Word) (s : State) : (setArg0 v s).ready = s.ready := rfl
@[simp] theorem setArg0_arg0 (v : Word) (s : State) : (setArg0 v s).arg0 = v := rfl
@[simp] theorem setArg0_arg1 (v : Word) (s : State) : (setArg0 v s).arg1 = s.arg1 := rfl
@[simp] theorem setArg0_arg2 (v : Word) (s : State) : (setArg0 v s).arg2 = s.arg2 := rfl
@[simp] theorem setArg0_result (v : Word) (s : State) : (setArg0 v s).result = s.result := rfl
@[simp] theorem setArg0_code (v : Word) (s : State) : (setArg0 v s).code = s.code := rfl
@[simp] theorem setArg0_busy (v : Word) (s : State) : (setArg0 v s).busy = s.busy := rfl
@[simp] theorem setArg0_ovr (v : Word) (s : State) : (setArg0 v s).ovr = s.ovr := rfl
@[simp] theorem setArg0_lcmd (v : Word) (s : State) : (setArg0 v s).lcmd = s.lcmd := rfl
@[simp] theorem setArg0_larg0 (v : Word) (s : State) : (setArg0 v s).larg0 = s.larg0 := rfl
@[simp] theorem setArg0_larg1 (v : Word) (s : State) : (setArg0 v s).larg1 = s.larg1 := rfl
@[simp] theorem setArg0_larg2 (v : Word) (s : State) : (setArg0 v s).larg2 = s.larg2 := rfl
@[simp] theorem setArg0_remain (v : Word) (s : State) : (setArg0 v s).remain = s.remain := rfl
@[simp] theorem setArg0_begun (v : Word) (s : State) : (setArg0 v s).begun = s.begun := rfl
@[simp] theorem setArg0_work (v : Word) (s : State) : (setArg0 v s).work = s.work := rfl
@[simp] theorem setArg0_rstN (v : Word) (s : State) : (setArg0 v s).rstN = s.rstN := rfl
@[simp] theorem setArg0_pnOut (v : Word) (s : State) : (setArg0 v s).pnOut = s.pnOut := rfl
@[simp] theorem setArg0_host (v : Word) (s : State) : (setArg0 v s).host = s.host := rfl
@[simp] theorem setArg0_sched (v : Word) (s : State) : (setArg0 v s).sched = s.sched := rfl
@[simp] theorem setArg0_responses (v : Word) (s : State) : (setArg0 v s).responses = s.responses := rfl
@[simp] theorem setArg0_taken (v : Word) (s : State) : (setArg0 v s).taken = s.taken := rfl
@[simp] theorem setArg0_names (v : Word) (s : State) : (setArg0 v s).names = s.names := rfl
@[simp] theorem setArg0_freeIdx (v : Word) (s : State) : (setArg0 v s).freeIdx = s.freeIdx := rfl

@[simp] theorem setArg1_poly (v : Word) (s : State) : (setArg1 v s).poly = s.poly := rfl
@[simp] theorem setArg1_order (v : Word) (s : State) : (setArg1 v s).order = s.order := rfl
@[simp] theorem setArg1_lfsr (v : Word) (s : State) : (setArg1 v s).lfsr = s.lfsr := rfl
@[simp] theorem setArg1_seed (v : Word) (s : State) : (setArg1 v s).seed = s.seed := rfl
@[simp] theorem setArg1_ready (v : Word) (s : State) : (setArg1 v s).ready = s.ready := rfl
@[simp] theorem setArg1_arg0 (v : Word) (s : State) : (setArg1 v s).arg0 = s.arg0 := rfl
@[simp] theorem setArg1_arg1 (v : Word) (s : State) : (setArg1 v s).arg1 = v := rfl
@[simp] theorem setArg1_arg2 (v : Word) (s : State) : (setArg1 v s).arg2 = s.arg2 := rfl
@[simp] theorem setArg1_result (v : Word) (s : State) : (setArg1 v s).result = s.result := rfl
@[simp] theorem setArg1_code (v : Word) (s : State) : (setArg1 v s).code = s.code := rfl
@[simp] theorem setArg1_busy (v : Word) (s : State) : (setArg1 v s).busy = s.busy := rfl
@[simp] theorem setArg1_ovr (v : Word) (s : State) : (setArg1 v s).ovr = s.ovr := rfl
@[simp] theorem setArg1_lcmd (v : Word) (s : State) : (setArg1 v s).lcmd = s.lcmd := rfl
@[simp] theorem setArg1_larg0 (v : Word) (s : State) : (setArg1 v s).larg0 = s.larg0 := rfl
@[simp] theorem setArg1_larg1 (v : Word) (s : State) : (setArg1 v s).larg1 = s.larg1 := rfl
@[simp] theorem setArg1_larg2 (v : Word) (s : State) : (setArg1 v s).larg2 = s.larg2 := rfl
@[simp] theorem setArg1_remain (v : Word) (s : State) : (setArg1 v s).remain = s.remain := rfl
@[simp] theorem setArg1_begun (v : Word) (s : State) : (setArg1 v s).begun = s.begun := rfl
@[simp] theorem setArg1_work (v : Word) (s : State) : (setArg1 v s).work = s.work := rfl
@[simp] theorem setArg1_rstN (v : Word) (s : State) : (setArg1 v s).rstN = s.rstN := rfl
@[simp] theorem setArg1_pnOut (v : Word) (s : State) : (setArg1 v s).pnOut = s.pnOut := rfl
@[simp] theorem setArg1_host (v : Word) (s : State) : (setArg1 v s).host = s.host := rfl
@[simp] theorem setArg1_sched (v : Word) (s : State) : (setArg1 v s).sched = s.sched := rfl
@[simp] theorem setArg1_responses (v : Word) (s : State) : (setArg1 v s).responses = s.responses := rfl
@[simp] theorem setArg1_taken (v : Word) (s : State) : (setArg1 v s).taken = s.taken := rfl
@[simp] theorem setArg1_names (v : Word) (s : State) : (setArg1 v s).names = s.names := rfl
@[simp] theorem setArg1_freeIdx (v : Word) (s : State) : (setArg1 v s).freeIdx = s.freeIdx := rfl

@[simp] theorem setArg2_poly (v : Word) (s : State) : (setArg2 v s).poly = s.poly := rfl
@[simp] theorem setArg2_order (v : Word) (s : State) : (setArg2 v s).order = s.order := rfl
@[simp] theorem setArg2_lfsr (v : Word) (s : State) : (setArg2 v s).lfsr = s.lfsr := rfl
@[simp] theorem setArg2_seed (v : Word) (s : State) : (setArg2 v s).seed = s.seed := rfl
@[simp] theorem setArg2_ready (v : Word) (s : State) : (setArg2 v s).ready = s.ready := rfl
@[simp] theorem setArg2_arg0 (v : Word) (s : State) : (setArg2 v s).arg0 = s.arg0 := rfl
@[simp] theorem setArg2_arg1 (v : Word) (s : State) : (setArg2 v s).arg1 = s.arg1 := rfl
@[simp] theorem setArg2_arg2 (v : Word) (s : State) : (setArg2 v s).arg2 = v := rfl
@[simp] theorem setArg2_result (v : Word) (s : State) : (setArg2 v s).result = s.result := rfl
@[simp] theorem setArg2_code (v : Word) (s : State) : (setArg2 v s).code = s.code := rfl
@[simp] theorem setArg2_busy (v : Word) (s : State) : (setArg2 v s).busy = s.busy := rfl
@[simp] theorem setArg2_ovr (v : Word) (s : State) : (setArg2 v s).ovr = s.ovr := rfl
@[simp] theorem setArg2_lcmd (v : Word) (s : State) : (setArg2 v s).lcmd = s.lcmd := rfl
@[simp] theorem setArg2_larg0 (v : Word) (s : State) : (setArg2 v s).larg0 = s.larg0 := rfl
@[simp] theorem setArg2_larg1 (v : Word) (s : State) : (setArg2 v s).larg1 = s.larg1 := rfl
@[simp] theorem setArg2_larg2 (v : Word) (s : State) : (setArg2 v s).larg2 = s.larg2 := rfl
@[simp] theorem setArg2_remain (v : Word) (s : State) : (setArg2 v s).remain = s.remain := rfl
@[simp] theorem setArg2_begun (v : Word) (s : State) : (setArg2 v s).begun = s.begun := rfl
@[simp] theorem setArg2_work (v : Word) (s : State) : (setArg2 v s).work = s.work := rfl
@[simp] theorem setArg2_rstN (v : Word) (s : State) : (setArg2 v s).rstN = s.rstN := rfl
@[simp] theorem setArg2_pnOut (v : Word) (s : State) : (setArg2 v s).pnOut = s.pnOut := rfl
@[simp] theorem setArg2_host (v : Word) (s : State) : (setArg2 v s).host = s.host := rfl
@[simp] theorem setArg2_sched (v : Word) (s : State) : (setArg2 v s).sched = s.sched := rfl
@[simp] theorem setArg2_responses (v : Word) (s : State) : (setArg2 v s).responses = s.responses := rfl
@[simp] theorem setArg2_taken (v : Word) (s : State) : (setArg2 v s).taken = s.taken := rfl
@[simp] theorem setArg2_names (v : Word) (s : State) : (setArg2 v s).names = s.names := rfl
@[simp] theorem setArg2_freeIdx (v : Word) (s : State) : (setArg2 v s).freeIdx = s.freeIdx := rfl

@[simp] theorem preShift_poly (p : Word) (k : Nat) (s : State) : (preShift p k s).poly = s.poly := rfl
@[simp] theorem preShift_order (p : Word) (k : Nat) (s : State) : (preShift p k s).order = s.order := rfl
@[simp] theorem preShift_lfsr (p : Word) (k : Nat) (s : State) : (preShift p k s).lfsr = s.lfsr := rfl
@[simp] theorem preShift_seed (p : Word) (k : Nat) (s : State) : (preShift p k s).seed = s.seed := rfl
@[simp] theorem preShift_ready (p : Word) (k : Nat) (s : State) : (preShift p k s).ready = s.ready := rfl
@[simp] theorem preShift_arg0 (p : Word) (k : Nat) (s : State) : (preShift p k s).arg0 = s.arg0 := rfl
@[simp] theorem preShift_arg1 (p : Word) (k : Nat) (s : State) : (preShift p k s).arg1 = s.arg1 := rfl
@[simp] theorem preShift_arg2 (p : Word) (k : Nat) (s : State) : (preShift p k s).arg2 = s.arg2 := rfl
@[simp] theorem preShift_result (p : Word) (k : Nat) (s : State) : (preShift p k s).result = s.result := rfl
@[simp] theorem preShift_code (p : Word) (k : Nat) (s : State) : (preShift p k s).code = s.code := rfl
@[simp] theorem preShift_busy (p : Word) (k : Nat) (s : State) : (preShift p k s).busy = s.busy := rfl
@[simp] theorem preShift_ovr (p : Word) (k : Nat) (s : State) : (preShift p k s).ovr = s.ovr := rfl
@[simp] theorem preShift_lcmd (p : Word) (k : Nat) (s : State) : (preShift p k s).lcmd = s.lcmd := rfl
@[simp] theorem preShift_larg0 (p : Word) (k : Nat) (s : State) : (preShift p k s).larg0 = s.larg0 := rfl
@[simp] theorem preShift_larg1 (p : Word) (k : Nat) (s : State) : (preShift p k s).larg1 = s.larg1 := rfl
@[simp] theorem preShift_larg2 (p : Word) (k : Nat) (s : State) : (preShift p k s).larg2 = s.larg2 := rfl
@[simp] theorem preShift_remain (p : Word) (k : Nat) (s : State) : (preShift p k s).remain = s.remain - 1 := rfl
@[simp] theorem preShift_begun (p : Word) (k : Nat) (s : State) : (preShift p k s).begun = s.begun := rfl
@[simp] theorem preShift_work (p : Word) (k : Nat) (s : State) : (preShift p k s).work = advance s.work p k := rfl
@[simp] theorem preShift_rstN (p : Word) (k : Nat) (s : State) : (preShift p k s).rstN = s.rstN := rfl
@[simp] theorem preShift_pnOut (p : Word) (k : Nat) (s : State) : (preShift p k s).pnOut = s.pnOut := rfl
@[simp] theorem preShift_host (p : Word) (k : Nat) (s : State) : (preShift p k s).host = s.host := rfl
@[simp] theorem preShift_sched (p : Word) (k : Nat) (s : State) : (preShift p k s).sched = s.sched := rfl
@[simp] theorem preShift_responses (p : Word) (k : Nat) (s : State) : (preShift p k s).responses = s.responses := rfl
@[simp] theorem preShift_taken (p : Word) (k : Nat) (s : State) : (preShift p k s).taken = s.taken := rfl
@[simp] theorem preShift_names (p : Word) (k : Nat) (s : State) : (preShift p k s).names = s.names := rfl
@[simp] theorem preShift_freeIdx (p : Word) (k : Nat) (s : State) : (preShift p k s).freeIdx = s.freeIdx := rfl

@[simp] theorem construct_poly (p : Word) (k : Nat) (r : Word) (s : State) : (construct p k r s).poly = p := rfl
@[simp] theorem construct_order (p : Word) (k : Nat) (r : Word) (s : State) : (construct p k r s).order = BitVec.ofNat 5 k := rfl
@[simp] theorem construct_lfsr (p : Word) (k : Nat) (r : Word) (s : State) : (construct p k r s).lfsr = r := rfl
@[simp] theorem construct_seed (p : Word) (k : Nat) (r : Word) (s : State) : (construct p k r s).seed = r := rfl
@[simp] theorem construct_ready (p : Word) (k : Nat) (r : Word) (s : State) : (construct p k r s).ready = true := rfl
@[simp] theorem construct_arg0 (p : Word) (k : Nat) (r : Word) (s : State) : (construct p k r s).arg0 = s.arg0 := rfl
@[simp] theorem construct_arg1 (p : Word) (k : Nat) (r : Word) (s : State) : (construct p k r s).arg1 = s.arg1 := rfl
@[simp] theorem construct_arg2 (p : Word) (k : Nat) (r : Word) (s : State) : (construct p k r s).arg2 = s.arg2 := rfl
@[simp] theorem construct_result (p : Word) (k : Nat) (r : Word) (s : State) : (construct p k r s).result = s.result := rfl
@[simp] theorem construct_code (p : Word) (k : Nat) (r : Word) (s : State) : (construct p k r s).code = s.code := rfl
@[simp] theorem construct_busy (p : Word) (k : Nat) (r : Word) (s : State) : (construct p k r s).busy = s.busy := rfl
@[simp] theorem construct_ovr (p : Word) (k : Nat) (r : Word) (s : State) : (construct p k r s).ovr = s.ovr := rfl
@[simp] theorem construct_lcmd (p : Word) (k : Nat) (r : Word) (s : State) : (construct p k r s).lcmd = s.lcmd := rfl
@[simp] theorem construct_larg0 (p : Word) (k : Nat) (r : Word) (s : State) : (construct p k r s).larg0 = s.larg0 := rfl
@[simp] theorem construct_larg1 (p : Word) (k : Nat) (r : Word) (s : State) : (construct p k r s).larg1 = s.larg1 := rfl
@[simp] theorem construct_larg2 (p : Word) (k : Nat) (r : Word) (s : State) : (construct p k r s).larg2 = s.larg2 := rfl
@[simp] theorem construct_remain (p : Word) (k : Nat) (r : Word) (s : State) : (construct p k r s).remain = s.remain := rfl
@[simp] theorem construct_begun (p : Word) (k : Nat) (r : Word) (s : State) : (construct p k r s).begun = s.begun := rfl
@[simp] theorem construct_work (p : Word) (k : Nat) (r : Word) (s : State) : (construct p k r s).work = s.work := rfl
@[simp] theorem construct_rstN (p : Word) (k : Nat) (r : Word) (s : State) : (construct p k r s).rstN = s.rstN := rfl
@[simp] theorem construct_pnOut (p : Word) (k : Nat) (r : Word) (s : State) : (construct p k r s).pnOut = s.pnOut := rfl
@[simp] theorem construct_host (p : Word) (k : Nat) (r : Word) (s : State) : (construct p k r s).host = s.host := rfl
@[simp] theorem construct_sched (p : Word) (k : Nat) (r : Word) (s : State) : (construct p k r s).sched = s.sched := rfl
@[simp] theorem construct_responses (p : Word) (k : Nat) (r : Word) (s : State) : (construct p k r s).responses = s.responses := rfl
@[simp] theorem construct_taken (p : Word) (k : Nat) (r : Word) (s : State) : (construct p k r s).taken = s.taken := rfl
@[simp] theorem construct_names (p : Word) (k : Nat) (r : Word) (s : State) : (construct p k r s).names = s.names := rfl
@[simp] theorem construct_freeIdx (p : Word) (k : Nat) (r : Word) (s : State) : (construct p k r s).freeIdx = s.freeIdx := rfl

@[simp] theorem advanceAndOffer_poly (s : State) : (advanceAndOffer s).poly = s.poly := rfl
@[simp] theorem advanceAndOffer_order (s : State) : (advanceAndOffer s).order = s.order := rfl
@[simp] theorem advanceAndOffer_lfsr (s : State) : (advanceAndOffer s).lfsr = advance s.lfsr s.poly s.order.toNat := rfl
@[simp] theorem advanceAndOffer_seed (s : State) : (advanceAndOffer s).seed = s.seed := rfl
@[simp] theorem advanceAndOffer_ready (s : State) : (advanceAndOffer s).ready = s.ready := rfl
@[simp] theorem advanceAndOffer_arg0 (s : State) : (advanceAndOffer s).arg0 = s.arg0 := rfl
@[simp] theorem advanceAndOffer_arg1 (s : State) : (advanceAndOffer s).arg1 = s.arg1 := rfl
@[simp] theorem advanceAndOffer_arg2 (s : State) : (advanceAndOffer s).arg2 = s.arg2 := rfl
@[simp] theorem advanceAndOffer_result (s : State) : (advanceAndOffer s).result = s.result := rfl
@[simp] theorem advanceAndOffer_code (s : State) : (advanceAndOffer s).code = s.code := rfl
@[simp] theorem advanceAndOffer_busy (s : State) : (advanceAndOffer s).busy = s.busy := rfl
@[simp] theorem advanceAndOffer_ovr (s : State) : (advanceAndOffer s).ovr = s.ovr := rfl
@[simp] theorem advanceAndOffer_lcmd (s : State) : (advanceAndOffer s).lcmd = s.lcmd := rfl
@[simp] theorem advanceAndOffer_larg0 (s : State) : (advanceAndOffer s).larg0 = s.larg0 := rfl
@[simp] theorem advanceAndOffer_larg1 (s : State) : (advanceAndOffer s).larg1 = s.larg1 := rfl
@[simp] theorem advanceAndOffer_larg2 (s : State) : (advanceAndOffer s).larg2 = s.larg2 := rfl
@[simp] theorem advanceAndOffer_remain (s : State) : (advanceAndOffer s).remain = s.remain - 1 := rfl
@[simp] theorem advanceAndOffer_begun (s : State) : (advanceAndOffer s).begun = s.begun := rfl
@[simp] theorem advanceAndOffer_work (s : State) : (advanceAndOffer s).work = s.work := rfl
@[simp] theorem advanceAndOffer_rstN (s : State) : (advanceAndOffer s).rstN = s.rstN := rfl
@[simp] theorem advanceAndOffer_pnOut (s : State) : (advanceAndOffer s).pnOut = some (departing s.lfsr) := rfl
@[simp] theorem advanceAndOffer_host (s : State) : (advanceAndOffer s).host = s.host := rfl
@[simp] theorem advanceAndOffer_sched (s : State) : (advanceAndOffer s).sched = s.sched := rfl
@[simp] theorem advanceAndOffer_responses (s : State) : (advanceAndOffer s).responses = s.responses := rfl
@[simp] theorem advanceAndOffer_taken (s : State) : (advanceAndOffer s).taken = s.taken := rfl
@[simp] theorem advanceAndOffer_names (s : State) : (advanceAndOffer s).names = s.names := rfl
@[simp] theorem advanceAndOffer_freeIdx (s : State) : (advanceAndOffer s).freeIdx = s.freeIdx := rfl

@[simp] theorem transferBeat_poly (b : Bool) (s : State) : (transferBeat b s).poly = s.poly := rfl
@[simp] theorem transferBeat_order (b : Bool) (s : State) : (transferBeat b s).order = s.order := rfl
@[simp] theorem transferBeat_lfsr (b : Bool) (s : State) : (transferBeat b s).lfsr = s.lfsr := rfl
@[simp] theorem transferBeat_seed (b : Bool) (s : State) : (transferBeat b s).seed = s.seed := rfl
@[simp] theorem transferBeat_ready (b : Bool) (s : State) : (transferBeat b s).ready = s.ready := rfl
@[simp] theorem transferBeat_arg0 (b : Bool) (s : State) : (transferBeat b s).arg0 = s.arg0 := rfl
@[simp] theorem transferBeat_arg1 (b : Bool) (s : State) : (transferBeat b s).arg1 = s.arg1 := rfl
@[simp] theorem transferBeat_arg2 (b : Bool) (s : State) : (transferBeat b s).arg2 = s.arg2 := rfl
@[simp] theorem transferBeat_result (b : Bool) (s : State) : (transferBeat b s).result = s.result := rfl
@[simp] theorem transferBeat_code (b : Bool) (s : State) : (transferBeat b s).code = s.code := rfl
@[simp] theorem transferBeat_busy (b : Bool) (s : State) : (transferBeat b s).busy = s.busy := rfl
@[simp] theorem transferBeat_ovr (b : Bool) (s : State) : (transferBeat b s).ovr = s.ovr := rfl
@[simp] theorem transferBeat_lcmd (b : Bool) (s : State) : (transferBeat b s).lcmd = s.lcmd := rfl
@[simp] theorem transferBeat_larg0 (b : Bool) (s : State) : (transferBeat b s).larg0 = s.larg0 := rfl
@[simp] theorem transferBeat_larg1 (b : Bool) (s : State) : (transferBeat b s).larg1 = s.larg1 := rfl
@[simp] theorem transferBeat_larg2 (b : Bool) (s : State) : (transferBeat b s).larg2 = s.larg2 := rfl
@[simp] theorem transferBeat_remain (b : Bool) (s : State) : (transferBeat b s).remain = s.remain := rfl
@[simp] theorem transferBeat_begun (b : Bool) (s : State) : (transferBeat b s).begun = s.begun := rfl
@[simp] theorem transferBeat_work (b : Bool) (s : State) : (transferBeat b s).work = s.work := rfl
@[simp] theorem transferBeat_rstN (b : Bool) (s : State) : (transferBeat b s).rstN = s.rstN := rfl
@[simp] theorem transferBeat_pnOut (b : Bool) (s : State) : (transferBeat b s).pnOut = none := rfl
@[simp] theorem transferBeat_host (b : Bool) (s : State) : (transferBeat b s).host = s.host := rfl
@[simp] theorem transferBeat_sched (b : Bool) (s : State) : (transferBeat b s).sched = s.sched := rfl
@[simp] theorem transferBeat_responses (b : Bool) (s : State) : (transferBeat b s).responses = s.responses := rfl
@[simp] theorem transferBeat_taken (b : Bool) (s : State) : (transferBeat b s).taken = s.taken ++ [b] := rfl
@[simp] theorem transferBeat_names (b : Bool) (s : State) : (transferBeat b s).names = s.names := rfl
@[simp] theorem transferBeat_freeIdx (b : Bool) (s : State) : (transferBeat b s).freeIdx = s.freeIdx := rfl

@[simp] theorem nameResult_poly (x : Option String) (v : Named) (s : State) : (nameResult x v s).poly = s.poly := rfl
@[simp] theorem nameResult_order (x : Option String) (v : Named) (s : State) : (nameResult x v s).order = s.order := rfl
@[simp] theorem nameResult_lfsr (x : Option String) (v : Named) (s : State) : (nameResult x v s).lfsr = s.lfsr := rfl
@[simp] theorem nameResult_seed (x : Option String) (v : Named) (s : State) : (nameResult x v s).seed = s.seed := rfl
@[simp] theorem nameResult_ready (x : Option String) (v : Named) (s : State) : (nameResult x v s).ready = s.ready := rfl
@[simp] theorem nameResult_arg0 (x : Option String) (v : Named) (s : State) : (nameResult x v s).arg0 = s.arg0 := rfl
@[simp] theorem nameResult_arg1 (x : Option String) (v : Named) (s : State) : (nameResult x v s).arg1 = s.arg1 := rfl
@[simp] theorem nameResult_arg2 (x : Option String) (v : Named) (s : State) : (nameResult x v s).arg2 = s.arg2 := rfl
@[simp] theorem nameResult_result (x : Option String) (v : Named) (s : State) : (nameResult x v s).result = s.result := rfl
@[simp] theorem nameResult_code (x : Option String) (v : Named) (s : State) : (nameResult x v s).code = s.code := rfl
@[simp] theorem nameResult_busy (x : Option String) (v : Named) (s : State) : (nameResult x v s).busy = s.busy := rfl
@[simp] theorem nameResult_ovr (x : Option String) (v : Named) (s : State) : (nameResult x v s).ovr = s.ovr := rfl
@[simp] theorem nameResult_lcmd (x : Option String) (v : Named) (s : State) : (nameResult x v s).lcmd = s.lcmd := rfl
@[simp] theorem nameResult_larg0 (x : Option String) (v : Named) (s : State) : (nameResult x v s).larg0 = s.larg0 := rfl
@[simp] theorem nameResult_larg1 (x : Option String) (v : Named) (s : State) : (nameResult x v s).larg1 = s.larg1 := rfl
@[simp] theorem nameResult_larg2 (x : Option String) (v : Named) (s : State) : (nameResult x v s).larg2 = s.larg2 := rfl
@[simp] theorem nameResult_remain (x : Option String) (v : Named) (s : State) : (nameResult x v s).remain = s.remain := rfl
@[simp] theorem nameResult_begun (x : Option String) (v : Named) (s : State) : (nameResult x v s).begun = s.begun := rfl
@[simp] theorem nameResult_work (x : Option String) (v : Named) (s : State) : (nameResult x v s).work = s.work := rfl
@[simp] theorem nameResult_rstN (x : Option String) (v : Named) (s : State) : (nameResult x v s).rstN = s.rstN := rfl
@[simp] theorem nameResult_pnOut (x : Option String) (v : Named) (s : State) : (nameResult x v s).pnOut = s.pnOut := rfl
@[simp] theorem nameResult_host (x : Option String) (v : Named) (s : State) : (nameResult x v s).host = s.host := rfl
@[simp] theorem nameResult_sched (x : Option String) (v : Named) (s : State) : (nameResult x v s).sched = s.sched := rfl
@[simp] theorem nameResult_responses (x : Option String) (v : Named) (s : State) : (nameResult x v s).responses = s.responses := rfl
@[simp] theorem nameResult_taken (x : Option String) (v : Named) (s : State) : (nameResult x v s).taken = s.taken := rfl
@[simp] theorem nameResult_names (x : Option String) (v : Named) (s : State) : (nameResult x v s).names = namesAfter x v s.names := rfl
@[simp] theorem nameResult_freeIdx (x : Option String) (v : Named) (s : State) : (nameResult x v s).freeIdx = s.freeIdx := rfl

@[simp] theorem progress_poly (s : State) : (progress s).poly = s.poly := rfl
@[simp] theorem progress_order (s : State) : (progress s).order = s.order := rfl
@[simp] theorem progress_lfsr (s : State) : (progress s).lfsr = s.lfsr := rfl
@[simp] theorem progress_seed (s : State) : (progress s).seed = s.seed := rfl
@[simp] theorem progress_ready (s : State) : (progress s).ready = s.ready := rfl
@[simp] theorem progress_arg0 (s : State) : (progress s).arg0 = s.arg0 := rfl
@[simp] theorem progress_arg1 (s : State) : (progress s).arg1 = s.arg1 := rfl
@[simp] theorem progress_arg2 (s : State) : (progress s).arg2 = s.arg2 := rfl
@[simp] theorem progress_result (s : State) : (progress s).result = s.result := rfl
@[simp] theorem progress_code (s : State) : (progress s).code = s.code := rfl
@[simp] theorem progress_busy (s : State) : (progress s).busy = s.busy := rfl
@[simp] theorem progress_ovr (s : State) : (progress s).ovr = s.ovr := rfl
@[simp] theorem progress_lcmd (s : State) : (progress s).lcmd = s.lcmd := rfl
@[simp] theorem progress_larg0 (s : State) : (progress s).larg0 = s.larg0 := rfl
@[simp] theorem progress_larg1 (s : State) : (progress s).larg1 = s.larg1 := rfl
@[simp] theorem progress_larg2 (s : State) : (progress s).larg2 = s.larg2 := rfl
@[simp] theorem progress_remain (s : State) : (progress s).remain = s.remain := rfl
@[simp] theorem progress_begun (s : State) : (progress s).begun = s.begun := rfl
@[simp] theorem progress_work (s : State) : (progress s).work = s.work := rfl
@[simp] theorem progress_rstN (s : State) : (progress s).rstN = s.rstN := rfl
@[simp] theorem progress_pnOut (s : State) : (progress s).pnOut = s.pnOut := rfl
@[simp] theorem progress_host (s : State) : (progress s).host = s.host := rfl
@[simp] theorem progress_sched (s : State) : (progress s).sched = s.sched := rfl
@[simp] theorem progress_responses (s : State) : (progress s).responses = s.responses := rfl
@[simp] theorem progress_taken (s : State) : (progress s).taken = s.taken := rfl
@[simp] theorem progress_names (s : State) : (progress s).names = s.names := rfl
@[simp] theorem progress_freeIdx (s : State) : (progress s).freeIdx = s.freeIdx + 1 := rfl

@[simp] theorem respond_poly (r : Response) (s : State) : (respond r s).poly = s.poly := rfl
@[simp] theorem respond_order (r : Response) (s : State) : (respond r s).order = s.order := rfl
@[simp] theorem respond_lfsr (r : Response) (s : State) : (respond r s).lfsr = s.lfsr := rfl
@[simp] theorem respond_seed (r : Response) (s : State) : (respond r s).seed = s.seed := rfl
@[simp] theorem respond_ready (r : Response) (s : State) : (respond r s).ready = s.ready := rfl
@[simp] theorem respond_arg0 (r : Response) (s : State) : (respond r s).arg0 = s.arg0 := rfl
@[simp] theorem respond_arg1 (r : Response) (s : State) : (respond r s).arg1 = s.arg1 := rfl
@[simp] theorem respond_arg2 (r : Response) (s : State) : (respond r s).arg2 = s.arg2 := rfl
@[simp] theorem respond_result (r : Response) (s : State) : (respond r s).result = s.result := rfl
@[simp] theorem respond_code (r : Response) (s : State) : (respond r s).code = s.code := rfl
@[simp] theorem respond_busy (r : Response) (s : State) : (respond r s).busy = s.busy := rfl
@[simp] theorem respond_ovr (r : Response) (s : State) : (respond r s).ovr = s.ovr := rfl
@[simp] theorem respond_lcmd (r : Response) (s : State) : (respond r s).lcmd = s.lcmd := rfl
@[simp] theorem respond_larg0 (r : Response) (s : State) : (respond r s).larg0 = s.larg0 := rfl
@[simp] theorem respond_larg1 (r : Response) (s : State) : (respond r s).larg1 = s.larg1 := rfl
@[simp] theorem respond_larg2 (r : Response) (s : State) : (respond r s).larg2 = s.larg2 := rfl
@[simp] theorem respond_remain (r : Response) (s : State) : (respond r s).remain = s.remain := rfl
@[simp] theorem respond_begun (r : Response) (s : State) : (respond r s).begun = s.begun := rfl
@[simp] theorem respond_work (r : Response) (s : State) : (respond r s).work = s.work := rfl
@[simp] theorem respond_rstN (r : Response) (s : State) : (respond r s).rstN = s.rstN := rfl
@[simp] theorem respond_pnOut (r : Response) (s : State) : (respond r s).pnOut = s.pnOut := rfl
@[simp] theorem respond_host (r : Response) (s : State) : (respond r s).host = s.host := rfl
@[simp] theorem respond_sched (r : Response) (s : State) : (respond r s).sched = s.sched := rfl
@[simp] theorem respond_responses (r : Response) (s : State) : (respond r s).responses = s.responses ++ [r] := rfl
@[simp] theorem respond_taken (r : Response) (s : State) : (respond r s).taken = s.taken := rfl
@[simp] theorem respond_names (r : Response) (s : State) : (respond r s).names = s.names := rfl
@[simp] theorem respond_freeIdx (r : Response) (s : State) : (respond r s).freeIdx = s.freeIdx := rfl

@[simp] theorem afterTurn_poly (s : State) : (afterTurn s).poly = s.poly := rfl
@[simp] theorem afterTurn_order (s : State) : (afterTurn s).order = s.order := rfl
@[simp] theorem afterTurn_lfsr (s : State) : (afterTurn s).lfsr = s.lfsr := rfl
@[simp] theorem afterTurn_seed (s : State) : (afterTurn s).seed = s.seed := rfl
@[simp] theorem afterTurn_ready (s : State) : (afterTurn s).ready = s.ready := rfl
@[simp] theorem afterTurn_arg0 (s : State) : (afterTurn s).arg0 = s.arg0 := rfl
@[simp] theorem afterTurn_arg1 (s : State) : (afterTurn s).arg1 = s.arg1 := rfl
@[simp] theorem afterTurn_arg2 (s : State) : (afterTurn s).arg2 = s.arg2 := rfl
@[simp] theorem afterTurn_result (s : State) : (afterTurn s).result = s.result := rfl
@[simp] theorem afterTurn_code (s : State) : (afterTurn s).code = s.code := rfl
@[simp] theorem afterTurn_busy (s : State) : (afterTurn s).busy = s.busy := rfl
@[simp] theorem afterTurn_ovr (s : State) : (afterTurn s).ovr = s.ovr := rfl
@[simp] theorem afterTurn_lcmd (s : State) : (afterTurn s).lcmd = s.lcmd := rfl
@[simp] theorem afterTurn_larg0 (s : State) : (afterTurn s).larg0 = s.larg0 := rfl
@[simp] theorem afterTurn_larg1 (s : State) : (afterTurn s).larg1 = s.larg1 := rfl
@[simp] theorem afterTurn_larg2 (s : State) : (afterTurn s).larg2 = s.larg2 := rfl
@[simp] theorem afterTurn_remain (s : State) : (afterTurn s).remain = s.remain := rfl
@[simp] theorem afterTurn_begun (s : State) : (afterTurn s).begun = s.begun := rfl
@[simp] theorem afterTurn_work (s : State) : (afterTurn s).work = s.work := rfl
@[simp] theorem afterTurn_rstN (s : State) : (afterTurn s).rstN = s.rstN := rfl
@[simp] theorem afterTurn_pnOut (s : State) : (afterTurn s).pnOut = s.pnOut := rfl
@[simp] theorem afterTurn_host (s : State) : (afterTurn s).host = s.host := rfl
@[simp] theorem afterTurn_sched (s : State) : (afterTurn s).sched = s.sched.tail := rfl
@[simp] theorem afterTurn_responses (s : State) : (afterTurn s).responses = s.responses := rfl
@[simp] theorem afterTurn_taken (s : State) : (afterTurn s).taken = s.taken := rfl
@[simp] theorem afterTurn_names (s : State) : (afterTurn s).names = s.names := rfl
@[simp] theorem afterTurn_freeIdx (s : State) : (afterTurn s).freeIdx = s.freeIdx := rfl

@[simp] theorem hardwareReset_poly (level : Bool) (s : State) : (hardwareReset level s).poly = 0#32 := rfl
@[simp] theorem hardwareReset_order (level : Bool) (s : State) : (hardwareReset level s).order = 0#5 := rfl
@[simp] theorem hardwareReset_lfsr (level : Bool) (s : State) : (hardwareReset level s).lfsr = 0#32 := rfl
@[simp] theorem hardwareReset_seed (level : Bool) (s : State) : (hardwareReset level s).seed = 0#32 := rfl
@[simp] theorem hardwareReset_ready (level : Bool) (s : State) : (hardwareReset level s).ready = false := rfl
@[simp] theorem hardwareReset_arg0 (level : Bool) (s : State) : (hardwareReset level s).arg0 = 0#32 := rfl
@[simp] theorem hardwareReset_arg1 (level : Bool) (s : State) : (hardwareReset level s).arg1 = 0#32 := rfl
@[simp] theorem hardwareReset_arg2 (level : Bool) (s : State) : (hardwareReset level s).arg2 = 0#32 := rfl
@[simp] theorem hardwareReset_result (level : Bool) (s : State) : (hardwareReset level s).result = 0#32 := rfl
@[simp] theorem hardwareReset_code (level : Bool) (s : State) : (hardwareReset level s).code = .ok := rfl
@[simp] theorem hardwareReset_busy (level : Bool) (s : State) : (hardwareReset level s).busy = false := rfl
@[simp] theorem hardwareReset_ovr (level : Bool) (s : State) : (hardwareReset level s).ovr = false := rfl
@[simp] theorem hardwareReset_lcmd (level : Bool) (s : State) : (hardwareReset level s).lcmd = 0#32 := rfl
@[simp] theorem hardwareReset_larg0 (level : Bool) (s : State) : (hardwareReset level s).larg0 = 0#32 := rfl
@[simp] theorem hardwareReset_larg1 (level : Bool) (s : State) : (hardwareReset level s).larg1 = 0#32 := rfl
@[simp] theorem hardwareReset_larg2 (level : Bool) (s : State) : (hardwareReset level s).larg2 = 0#32 := rfl
@[simp] theorem hardwareReset_remain (level : Bool) (s : State) : (hardwareReset level s).remain = 0 := rfl
@[simp] theorem hardwareReset_begun (level : Bool) (s : State) : (hardwareReset level s).begun = false := rfl
@[simp] theorem hardwareReset_work (level : Bool) (s : State) : (hardwareReset level s).work = 0#32 := rfl
@[simp] theorem hardwareReset_rstN (level : Bool) (s : State) : (hardwareReset level s).rstN = level := rfl
@[simp] theorem hardwareReset_pnOut (level : Bool) (s : State) : (hardwareReset level s).pnOut = none := rfl
@[simp] theorem hardwareReset_host (level : Bool) (s : State) : (hardwareReset level s).host = s.host := rfl
@[simp] theorem hardwareReset_sched (level : Bool) (s : State) : (hardwareReset level s).sched = s.sched := rfl
@[simp] theorem hardwareReset_responses (level : Bool) (s : State) : (hardwareReset level s).responses = s.responses := rfl
@[simp] theorem hardwareReset_taken (level : Bool) (s : State) : (hardwareReset level s).taken = s.taken := rfl
@[simp] theorem hardwareReset_names (level : Bool) (s : State) : (hardwareReset level s).names = s.names := rfl
@[simp] theorem hardwareReset_freeIdx (level : Bool) (s : State) : (hardwareReset level s).freeIdx = s.freeIdx + 1 := rfl

@[simp] theorem afterPoll_poly (rest : List HostAction) (s : State) : (afterPoll rest s).poly = s.poly := by
  unfold afterPoll; split <;> rfl
@[simp] theorem afterPoll_order (rest : List HostAction) (s : State) : (afterPoll rest s).order = s.order := by
  unfold afterPoll; split <;> rfl
@[simp] theorem afterPoll_lfsr (rest : List HostAction) (s : State) : (afterPoll rest s).lfsr = s.lfsr := by
  unfold afterPoll; split <;> rfl
@[simp] theorem afterPoll_seed (rest : List HostAction) (s : State) : (afterPoll rest s).seed = s.seed := by
  unfold afterPoll; split <;> rfl
@[simp] theorem afterPoll_ready (rest : List HostAction) (s : State) : (afterPoll rest s).ready = s.ready := by
  unfold afterPoll; split <;> rfl
@[simp] theorem afterPoll_arg0 (rest : List HostAction) (s : State) : (afterPoll rest s).arg0 = s.arg0 := by
  unfold afterPoll; split <;> rfl
@[simp] theorem afterPoll_arg1 (rest : List HostAction) (s : State) : (afterPoll rest s).arg1 = s.arg1 := by
  unfold afterPoll; split <;> rfl
@[simp] theorem afterPoll_arg2 (rest : List HostAction) (s : State) : (afterPoll rest s).arg2 = s.arg2 := by
  unfold afterPoll; split <;> rfl
@[simp] theorem afterPoll_result (rest : List HostAction) (s : State) : (afterPoll rest s).result = s.result := by
  unfold afterPoll; split <;> rfl
@[simp] theorem afterPoll_code (rest : List HostAction) (s : State) : (afterPoll rest s).code = s.code := by
  unfold afterPoll; split <;> rfl
@[simp] theorem afterPoll_busy (rest : List HostAction) (s : State) : (afterPoll rest s).busy = s.busy := by
  unfold afterPoll; split <;> rfl
@[simp] theorem afterPoll_ovr (rest : List HostAction) (s : State) : (afterPoll rest s).ovr = s.ovr := by
  unfold afterPoll; split <;> rfl
@[simp] theorem afterPoll_lcmd (rest : List HostAction) (s : State) : (afterPoll rest s).lcmd = s.lcmd := by
  unfold afterPoll; split <;> rfl
@[simp] theorem afterPoll_larg0 (rest : List HostAction) (s : State) : (afterPoll rest s).larg0 = s.larg0 := by
  unfold afterPoll; split <;> rfl
@[simp] theorem afterPoll_larg1 (rest : List HostAction) (s : State) : (afterPoll rest s).larg1 = s.larg1 := by
  unfold afterPoll; split <;> rfl
@[simp] theorem afterPoll_larg2 (rest : List HostAction) (s : State) : (afterPoll rest s).larg2 = s.larg2 := by
  unfold afterPoll; split <;> rfl
@[simp] theorem afterPoll_remain (rest : List HostAction) (s : State) : (afterPoll rest s).remain = s.remain := by
  unfold afterPoll; split <;> rfl
@[simp] theorem afterPoll_begun (rest : List HostAction) (s : State) : (afterPoll rest s).begun = s.begun := by
  unfold afterPoll; split <;> rfl
@[simp] theorem afterPoll_work (rest : List HostAction) (s : State) : (afterPoll rest s).work = s.work := by
  unfold afterPoll; split <;> rfl
@[simp] theorem afterPoll_rstN (rest : List HostAction) (s : State) : (afterPoll rest s).rstN = s.rstN := by
  unfold afterPoll; split <;> rfl
@[simp] theorem afterPoll_pnOut (rest : List HostAction) (s : State) : (afterPoll rest s).pnOut = s.pnOut := by
  unfold afterPoll; split <;> rfl
@[simp] theorem afterPoll_sched (rest : List HostAction) (s : State) : (afterPoll rest s).sched = s.sched := by
  unfold afterPoll; split <;> rfl
@[simp] theorem afterPoll_responses (rest : List HostAction) (s : State) : (afterPoll rest s).responses = s.responses := by
  unfold afterPoll; split <;> rfl
@[simp] theorem afterPoll_taken (rest : List HostAction) (s : State) : (afterPoll rest s).taken = s.taken := by
  unfold afterPoll; split <;> rfl
@[simp] theorem afterPoll_names (rest : List HostAction) (s : State) : (afterPoll rest s).names = s.names := by
  unfold afterPoll; split <;> rfl
@[simp] theorem afterPoll_freeIdx (rest : List HostAction) (s : State) : (afterPoll rest s).freeIdx = s.freeIdx := by
  unfold afterPoll; split <;> rfl

@[simp] theorem beginStep_poly (s : State) : (beginStep s).poly = s.poly := by
  unfold beginStep; split <;> rfl
@[simp] theorem beginStep_order (s : State) : (beginStep s).order = s.order := by
  unfold beginStep; split <;> rfl
@[simp] theorem beginStep_lfsr (s : State) : (beginStep s).lfsr = s.lfsr := by
  unfold beginStep; split <;> rfl
@[simp] theorem beginStep_seed (s : State) : (beginStep s).seed = s.seed := by
  unfold beginStep; split <;> rfl
@[simp] theorem beginStep_ready (s : State) : (beginStep s).ready = s.ready := by
  unfold beginStep; split <;> rfl
@[simp] theorem beginStep_arg0 (s : State) : (beginStep s).arg0 = s.arg0 := by
  unfold beginStep; split <;> rfl
@[simp] theorem beginStep_arg1 (s : State) : (beginStep s).arg1 = s.arg1 := by
  unfold beginStep; split <;> rfl
@[simp] theorem beginStep_arg2 (s : State) : (beginStep s).arg2 = s.arg2 := by
  unfold beginStep; split <;> rfl
@[simp] theorem beginStep_result (s : State) : (beginStep s).result = s.result := by
  unfold beginStep; split <;> rfl
@[simp] theorem beginStep_code (s : State) : (beginStep s).code = s.code := by
  unfold beginStep; split <;> rfl
@[simp] theorem beginStep_busy (s : State) : (beginStep s).busy = s.busy := by
  unfold beginStep; split <;> rfl
@[simp] theorem beginStep_ovr (s : State) : (beginStep s).ovr = s.ovr := by
  unfold beginStep; split <;> rfl
@[simp] theorem beginStep_lcmd (s : State) : (beginStep s).lcmd = s.lcmd := by
  unfold beginStep; split <;> rfl
@[simp] theorem beginStep_larg0 (s : State) : (beginStep s).larg0 = s.larg0 := by
  unfold beginStep; split <;> rfl
@[simp] theorem beginStep_larg1 (s : State) : (beginStep s).larg1 = s.larg1 := by
  unfold beginStep; split <;> rfl
@[simp] theorem beginStep_larg2 (s : State) : (beginStep s).larg2 = s.larg2 := by
  unfold beginStep; split <;> rfl
@[simp] theorem beginStep_remain (s : State) : (beginStep s).remain = s.remain := by
  unfold beginStep; split <;> rfl
@[simp] theorem beginStep_begun (s : State) : (beginStep s).begun = s.begun := by
  unfold beginStep; split <;> rfl
@[simp] theorem beginStep_work (s : State) : (beginStep s).work = s.work := by
  unfold beginStep; split <;> rfl
@[simp] theorem beginStep_rstN (s : State) : (beginStep s).rstN = s.rstN := by
  unfold beginStep; split <;> rfl
@[simp] theorem beginStep_pnOut (s : State) : (beginStep s).pnOut = s.pnOut := by
  unfold beginStep; split <;> rfl
@[simp] theorem beginStep_host (s : State) : (beginStep s).host = s.host := by
  unfold beginStep; split <;> rfl
@[simp] theorem beginStep_sched (s : State) : (beginStep s).sched = s.sched := by
  unfold beginStep; split <;> rfl
@[simp] theorem beginStep_responses (s : State) : (beginStep s).responses = s.responses := by
  unfold beginStep; split <;> rfl
@[simp] theorem beginStep_taken (s : State) : (beginStep s).taken = s.taken := by
  unfold beginStep; split <;> rfl
@[simp] theorem beginStep_names (s : State) : (beginStep s).names = s.names := by
  unfold beginStep; split <;> rfl

/-- With no beat on offer a turn of the block makes progress. -/
theorem beginStep_of_none {s : State} (h : s.pnOut = none) : beginStep s = progress s := by
  simp [beginStep, h]

/-- With a beat on offer a turn of the block makes none. -/
theorem beginStep_of_some {s : State} {bit : Bool} (h : s.pnOut = some bit) : beginStep s = s := by
  simp [beginStep, h]

end Sys2Proof.Machine
end

