-- ==== Sys2Proof/Laws/Commands.lean ====
section
/-! SUPPORT. What each command's meaning can answer, and the one inversion lemma of a command's step (41_engine.md). -/

namespace Sys2Proof.Machine

/-- INIT before its checks: it fails with nothing else written, or enters the pre-shift with the clamped value. -/
theorem startInit_cases (s : State) :
    (startInit s = complete .invalidArgument s ∧
      (s.larg0 = 0#32 ∨ s.larg2 = 0#32 ∨ hsb s.larg0 = 0)) ∨
    (startInit s = enterLoop s.larg1.toNat (setWork (s.larg2 &&& mask (hsb s.larg0)) s) ∧
      s.larg0 ≠ 0#32 ∧ s.larg2 ≠ 0#32 ∧ hsb s.larg0 ≠ 0) := by
  unfold startInit initPolynomial initValue initShift
  split
  · exact .inl ⟨rfl, .inl ‹_›⟩
  · split
    · exact .inl ⟨rfl, .inr (.inl ‹_›)⟩
    · split
      · exact .inl ⟨rfl, .inr (.inr ‹_›)⟩
      · exact .inr ⟨rfl, ‹_›, ‹_›, ‹_›⟩

/-- GENERATE before its checks: it fails with nothing else written, or enters its loop. -/
theorem startGenerate_cases (s : State) :
    (startGenerate s = complete .invalidArgument s ∧ (s.ready = false ∨ s.larg1.toInt < 0)) ∨
    (startGenerate s = enterLoop s.larg1.toInt.toNat s ∧ s.ready = true ∧ 0 ≤ s.larg1.toInt) := by
  unfold startGenerate generateCount
  split
  · exact .inl ⟨rfl, .inl ‹_›⟩
  · split
    · exact .inl ⟨rfl, .inr ‹_›⟩
    · exact .inr ⟨rfl, by simpa using ‹¬ s.ready = false›, by omega⟩

/-- The steps INIT can take. -/
theorem execInit_cases {s t : State} (h : execInit s = .next t) :
    (s.begun = false ∧ t = startInit s) ∨
    (s.begun = true ∧ s.remain = 0 ∧ t = finishInit s) ∨
    (s.begun = true ∧ s.remain ≠ 0 ∧ t = preShift s.larg0 (hsb s.larg0) s) := by
  unfold execInit at h
  split at h
  · split at h
    · exact .inr (.inl ⟨‹_›, ‹_›, by injection h with h; exact h.symm⟩)
    · exact .inr (.inr ⟨‹_›, ‹_›, by injection h with h; exact h.symm⟩)
  · exact .inl ⟨by simpa using ‹¬ s.begun = true›, by injection h with h; exact h.symm⟩

/-- The steps RESET can take. -/
theorem execReset_cases {s t : State} (h : execReset s = .next t) :
    (s.ready = true ∧ t = complete .ok (rewind s)) ∨
    (s.ready = false ∧ t = complete .invalidArgument s) := by
  unfold execReset at h
  split at h
  · exact .inl ⟨‹_›, by injection h with h; exact h.symm⟩
  · exact .inr ⟨by simpa using ‹¬ s.ready = true›, by injection h with h; exact h.symm⟩

/-- The steps GENERATE can take. -/
theorem execGenerate_cases {s t : State} (h : execGenerate s = .next t) :
    (s.begun = false ∧ t = startGenerate s) ∨
    (s.begun = true ∧ (∃ b, s.pnOut = some b) ∧ t = s) ∨
    (s.begun = true ∧ s.pnOut = none ∧ s.remain = 0 ∧ t = complete .ok s) ∨
    (s.begun = true ∧ s.pnOut = none ∧ s.remain ≠ 0 ∧ t = advanceAndOffer s) := by
  unfold execGenerate at h
  split at h
  · split at h
    · exact .inr (.inl ⟨‹_›, ⟨_, ‹_›⟩, by injection h with h; exact h.symm⟩)
    · split at h
      · exact .inr (.inr (.inl ⟨‹_›, ‹_›, ‹_›, by injection h with h; exact h.symm⟩))
      · exact .inr (.inr (.inr ⟨‹_›, ‹_›, ‹_›, by injection h with h; exact h.symm⟩))
  · exact .inl ⟨by simpa using ‹¬ s.begun = true›, by injection h with h; exact h.symm⟩

/-- The commands that answer a value (10_state.md R35). -/
abbrev answersAValue (i : Instr) : Prop := i.opcode = 0x1 ∨ i = .mlpoly ∨ i = .statesize

/-- A command that answers a value takes one step: RESULT, CODE and BUSY are written. -/
theorem exec_answersAValue (i : Instr) (s : State) (hi : answersAValue i) :
    ∃ v, exec i s = .next (returnValue v s) := by
  cases i <;> first | exact ⟨_, rfl⟩ | (exfalso; revert hi; simp [answersAValue, Instr.opcode])

/-- Every command answers a next state in every state. -/
theorem exec_next (i : Instr) (s : State) : ∃ t, exec i s = .next t := by
  cases i
  case init =>
    show ∃ t, execInit s = .next t
    unfold execInit
    split
    · split <;> exact ⟨_, rfl⟩
    · exact ⟨_, rfl⟩
  case reset =>
    show ∃ t, execReset s = .next t
    unfold execReset
    split <;> exact ⟨_, rfl⟩
  case generate =>
    show ∃ t, execGenerate s = .next t
    unfold execGenerate
    split
    · split
      · exact ⟨_, rfl⟩
      · split <;> exact ⟨_, rfl⟩
    · exact ⟨_, rfl⟩
  all_goals exact ⟨_, rfl⟩

/-- The command in progress answers a next state in every state. -/
theorem runCommand_next (s : State) : ∃ t, runCommand s = .next t := by
  unfold runCommand
  split
  · exact exec_next _ _
  · exact ⟨_, rfl⟩

/-- Everything one step of a command in progress can do. -/
theorem runCommand_cases {s t : State} (h : runCommand s = .next t) :
    ((∃ e, decode s.lcmd = .error e) ∧ t = complete .illegalCommand s) ∨
    (∃ i v, decode s.lcmd = .ok i ∧ answersAValue i ∧ t = returnValue v s) ∨
    (decode s.lcmd = .ok .init ∧ execInit s = .next t) ∨
    (decode s.lcmd = .ok .reset ∧ execReset s = .next t) ∨
    (decode s.lcmd = .ok .generate ∧ execGenerate s = .next t) := by
  unfold runCommand at h
  split at h
  · rename_i i hd
    by_cases hv : answersAValue i
    · obtain ⟨v, hv'⟩ := exec_answersAValue i s hv
      rw [hv'] at h
      injection h with h
      exact .inr (.inl ⟨i, v, hd, hv, h.symm⟩)
    · cases i
      case init => exact .inr (.inr (.inl ⟨hd, h⟩))
      case reset => exact .inr (.inr (.inr (.inl ⟨hd, h⟩)))
      case generate => exact .inr (.inr (.inr (.inr ⟨hd, h⟩)))
      all_goals exact absurd (by simp [answersAValue, Instr.opcode]) hv
  · injection h with h
    exact .inl ⟨⟨_, ‹_›⟩, h.symm⟩

end Sys2Proof.Machine
end

