-- ==== Sys2Proof/Laws/Turns.lean ====
section
/-! SUPPORT. What a step can do: whose turn it is, and everything that agent can do (70_reset_and_hazards.md R190). -/

namespace Sys2Proof.Machine

/-- The block's turn of a step. -/
theorem step_block {s : State} (h : nextAgent s = .block) : step s = blockTurn (afterTurn s) := by
  unfold step takeTurn
  unfold nextAgent at h
  split at h
  · rename_i a rest hs
    subst h
    simp [hs, afterTurn]
  · rename_i hs
    split at h
    · rename_i he
      have : afterTurn s = s := by cases s; simp_all [afterTurn]
      simp [hs, he, this]
    · cases h

/-- The host's turn of a step. -/
theorem step_host {s : State} (h : nextAgent s = .host) : step s = hostTurn (afterTurn s) := by
  unfold step takeTurn
  unfold nextAgent at h
  split at h
  · rename_i a rest hs
    subst h
    simp [hs, afterTurn]
  · rename_i hs
    split at h
    · cases h
    · rename_i he
      have : afterTurn s = s := by cases s; simp_all [afterTurn]
      simp [hs, he, this]

/-- The block's turn: nothing, or a step of the command in progress. -/
theorem blockTurn_cases {s t : State} (h : blockTurn s = .next t) :
    ((s.rstN && s.busy) = false ∧ t = s) ∨
    (s.rstN = true ∧ s.busy = true ∧ runCommand (beginStep s) = .next t) := by
  unfold blockTurn at h
  split at h
  · rename_i hb
    rw [Bool.and_eq_true] at hb
    exact .inr ⟨hb.1, hb.2, h⟩
  · rename_i hb
    injection h with h
    exact .inl ⟨by simpa using hb, h.symm⟩

/-- The registers of a host program stand at legal offsets. -/
@[simp] theorem legalAccess_regOffset (reg : WindowReg) : legalAccess (regOffset reg).val 4 = true := by
  cases reg <;> rfl

/-- The register at a register's offset is that register. -/
@[simp] theorem regAt_regOffset (reg : WindowReg) : regAt (regOffset reg).val = reg := by
  cases reg <;> rfl

/-- A turn of the block with a beat of GENERATE on offer changes nothing but the schedule (70_reset_and_hazards.md R190). -/
theorem step_block_waits {s : State} {bit : Bool} (ha : nextAgent s = .block) (hd : decode s.lcmd = .ok .generate)
    (hg : s.begun = true) (hp : s.pnOut = some bit) : step s = .next (afterTurn s) := by
  rw [step_block ha]
  unfold blockTurn
  split
  · rw [beginStep_of_some (bit := bit) (by simpa using hp)]
    simp [runCommand, hd, exec, execGenerate, hg, hp]
  · rfl

/-- A poll is a legal read of STATUS with `rst_n` released. -/
theorem pollStatus_cases {s t : State} {rest : List HostAction} (h : pollStatus s rest = .next t) :
    s.rstN = true ∧ t = busRead 0x10 (afterPoll rest s) := by
  have hp : pollStatus s rest = if (afterPoll rest s).rstN then
      .next (busRead 0x10 (afterPoll rest s)) else .refused .accessDuringReset := rfl
  rw [hp, afterPoll_rstN] at h
  split at h
  · injection h with h
    exact ⟨‹_›, h.symm⟩
  · cases h

/-- A `RD` is a legal read with `rst_n` released, and the name stands for the very data it returns. -/
theorem readAs_cases {s t : State} {reg : WindowReg} {x : String} (h : readAs reg x s = .next t) :
    s.rstN = true ∧ ∃ w, t = respond (.data w) (nameResult (some x) (.word w) s) := by
  have hp : readAs reg x s = if legalAccess (regOffset reg).val 4 then
      if s.rstN then .next (respond (.data (readWindow (regOffset reg).val s)) (nameRead reg x s))
      else .refused .accessDuringReset
      else .next (respond .error (nameRead reg x s)) := rfl
  rw [hp, legalAccess_regOffset] at h
  split at h
  · split at h
    · injection h with h
      exact ⟨‹_›, _, h.symm⟩
    · cases h
  · simp_all

/-- A `WR` of a named value is a legal write of that value with `rst_n` released. -/
theorem writeNamed_cases {s t : State} {reg : WindowReg} {x : String} (h : writeNamed reg x s = .next t) :
    s.rstN = true ∧ t = busWrite (regOffset reg).val (namedWord x s) s := by
  unfold writeNamed busAccess at h
  simp only [legalAccess_regOffset, if_true] at h
  split at h
  · injection h with h
    exact ⟨‹_›, h.symm⟩
  · cases h

/-- Everything the host's turn can do. -/
theorem hostTurn_cases {s t : State} (h : hostTurn s = .next t) :
    (s.host = [] ∧ t = s) ∨
    (∃ a rest, s.host = .access a :: rest ∧ t = respond .error (withHost rest s)) ∨
    (∃ off width rest, s.host = .access (.read off width) :: rest ∧ legalAccess off.val width = true ∧ s.rstN = true ∧
      t = busRead off.val (withHost rest s)) ∨
    (∃ off width v rest, s.host = .access (.write off width v) :: rest ∧ legalAccess off.val width = true ∧
      s.rstN = true ∧ t = busWrite off.val v (withHost rest s)) ∨
    (∃ rest, s.host = .waitIdle :: rest ∧ s.rstN = true ∧
      t = busRead 0x10 (afterPoll rest s)) ∨
    (∃ x rest, s.host = .take x :: rest ∧ t = takeBeat s x rest) ∨
    (∃ reg x rest w, s.host = .readAs reg x :: rest ∧ s.rstN = true ∧
      t = respond (.data w) (nameResult (some x) (.word w) (withHost rest s))) ∨
    (∃ reg x rest, s.host = .writeNamed reg x :: rest ∧ s.rstN = true ∧
      t = busWrite (regOffset reg).val (namedWord x s) (withHost rest s)) ∨
    (∃ k x rest, s.host = .takeCount k x :: rest ∧ t = startTake k x rest s) ∨
    (∃ level rest, s.host = .rstN level :: rest ∧ t = driveRstN level (withHost rest s)) := by
  unfold hostTurn at h
  split at h
  · injection h with h
    exact .inl ⟨‹_›, h.symm⟩
  · rename_i a rest hs
    unfold busAccess at h
    split at h
    · split at h
      · split at h
        · injection h with h
          exact .inr (.inr (.inl ⟨_, _, _, hs, ‹_›, ‹_›, h.symm⟩))
        · cases h
      · injection h with h
        exact .inr (.inl ⟨_, _, hs, h.symm⟩)
    · split at h
      · split at h
        · injection h with h
          exact .inr (.inr (.inr (.inl ⟨_, _, _, _, hs, ‹_›, ‹_›, h.symm⟩)))
        · cases h
      · injection h with h
        exact .inr (.inl ⟨_, _, hs, h.symm⟩)
  · obtain ⟨hr, w, ht⟩ := readAs_cases h
    exact .inr (.inr (.inr (.inr (.inr (.inr (.inl ⟨_, _, _, w, ‹_›, hr, ht⟩))))))
  · obtain ⟨hr, ht⟩ := writeNamed_cases h
    exact .inr (.inr (.inr (.inr (.inr (.inr (.inr (.inl ⟨_, _, _, ‹_›, hr, ht⟩)))))))
  · rename_i rest hs
    exact .inr (.inr (.inr (.inr (.inl ⟨rest, hs, pollStatus_cases h⟩))))
  · injection h with h
    exact .inr (.inr (.inr (.inr (.inr (.inr (.inr (.inr (.inl ⟨_, _, _, ‹_›, h.symm⟩))))))))
  · injection h with h
    exact .inr (.inr (.inr (.inr (.inr (.inl ⟨_, _, ‹_›, h.symm⟩)))))
  · injection h with h
    exact .inr (.inr (.inr (.inr (.inr (.inr (.inr (.inr (.inr ⟨_, _, ‹_›, h.symm⟩))))))))

/-- A step that answers a next state is a turn of one of the two agents. -/
theorem step_cases {s t : State} (h : step s = .next t) :
    (nextAgent s = .block ∧ blockTurn (afterTurn s) = .next t) ∨
    (nextAgent s = .host ∧ hostTurn (afterTurn s) = .next t) := by
  cases ha : nextAgent s with
  | block => exact .inl ⟨rfl, by rw [← step_block ha]; exact h⟩
  | host => exact .inr ⟨rfl, by rw [← step_host ha]; exact h⟩

/-- Everything a legal write can change. -/
theorem writeWindow_cases (off : Nat) (v : Word) (s : State) :
    writeWindow off v s = s ∨
    (regAt off = .arg0 ∧ writeWindow off v s = setArg0 v s) ∨
    (regAt off = .arg1 ∧ writeWindow off v s = setArg1 v s) ∨
    (regAt off = .arg2 ∧ writeWindow off v s = setArg2 v s) ∨
    (regAt off = .cmd ∧ s.busy = true ∧ writeWindow off v s = dropCommand s) ∨
    (regAt off = .cmd ∧ s.busy = false ∧ writeWindow off v s = accept v s) := by
  unfold writeWindow
  split <;> try simp_all
  unfold writeCmd
  cases hb : s.busy <;> simp

/-- Taking a beat: one on offer transfers, with none on offer nothing happens. -/
theorem takeBeat_cases (s : State) (x : Option String) (rest : List HostAction) :
    (∃ b, s.pnOut = some b ∧
      takeBeat s x rest = progress (transferBeat b (nameResult x (.bits (bitsSoFar x s ++ [b])) (withHost rest s)))) ∨
    (s.pnOut = none ∧ takeBeat s x rest = s) := by
  unfold takeBeat
  split
  · exact .inl ⟨_, ‹_›, rfl⟩
  · exact .inr ⟨‹_›, rfl⟩

/-- Driving `rst_n`: high on high does nothing, every other level resets. -/
theorem driveRstN_cases (level : Bool) (s : State) :
    (level = true ∧ s.rstN = true ∧ driveRstN level s = s) ∨
    ((level && s.rstN) = false ∧ driveRstN level s = hardwareReset level s) := by
  unfold driveRstN
  split
  · rename_i h
    rw [Bool.and_eq_true] at h
    exact .inl ⟨h.1, h.2, rfl⟩
  · rename_i h
    exact .inr ⟨by simpa using h, rfl⟩

/-- Whatever holds of every state the block's command in progress can step to holds of the one it steps to. -/
theorem runCommand_elim {s t : State} {P : State → Prop} (hs : runCommand s = .next t)
    (illegal : (∃ e, decode s.lcmd = .error e) → P (complete .illegalCommand s))
    (value : ∀ i v, decode s.lcmd = .ok i → answersAValue i → P (returnValue v s))
    (initFails : decode s.lcmd = .ok .init → s.begun = false → P (complete .invalidArgument s))
    (initStarts : decode s.lcmd = .ok .init → s.begun = false → s.larg0 ≠ 0#32 → s.larg2 ≠ 0#32 → hsb s.larg0 ≠ 0 →
      P (enterLoop s.larg1.toNat (setWork (s.larg2 &&& mask (hsb s.larg0)) s)))
    (initEnds : decode s.lcmd = .ok .init → s.begun = true → s.remain = 0 → P (finishInit s))
    (initShifts : decode s.lcmd = .ok .init → s.begun = true → s.remain ≠ 0 → P (preShift s.larg0 (hsb s.larg0) s))
    (resetRuns : decode s.lcmd = .ok .reset → s.ready = true → P (complete .ok (rewind s)))
    (resetFails : decode s.lcmd = .ok .reset → s.ready = false → P (complete .invalidArgument s))
    (generateFails : decode s.lcmd = .ok .generate → s.begun = false → P (complete .invalidArgument s))
    (generateStarts : decode s.lcmd = .ok .generate → s.begun = false → s.ready = true → 0 ≤ s.larg1.toInt →
      P (enterLoop s.larg1.toInt.toNat s))
    (generateWaits : decode s.lcmd = .ok .generate → s.begun = true → s.pnOut ≠ none → P s)
    (generateEnds : decode s.lcmd = .ok .generate → s.begun = true → s.pnOut = none → s.remain = 0 → P (complete .ok s))
    (generateShifts : decode s.lcmd = .ok .generate → s.begun = true → s.pnOut = none → s.remain ≠ 0 →
      P (advanceAndOffer s)) : P t := by
  rcases runCommand_cases hs with ⟨he, rfl⟩ | ⟨i, v, hd, hv, rfl⟩ | ⟨hd, hx⟩ | ⟨hd, hx⟩ | ⟨hd, hx⟩
  · exact illegal he
  · exact value i v hd hv
  · rcases execInit_cases hx with ⟨hg, rfl⟩ | ⟨hg, hm, rfl⟩ | ⟨hg, hm, rfl⟩
    · rcases startInit_cases s with ⟨he, _⟩ | ⟨he, h0, h2, hk⟩ <;> rw [he]
      · exact initFails hd hg
      · exact initStarts hd hg h0 h2 hk
    · exact initEnds hd hg hm
    · exact initShifts hd hg hm
  · rcases execReset_cases hx with ⟨hy, rfl⟩ | ⟨hy, rfl⟩
    · exact resetRuns hd hy
    · exact resetFails hd hy
  · rcases execGenerate_cases hx with ⟨hg, rfl⟩ | ⟨hg, ⟨b, hb⟩, rfl⟩ | ⟨hg, hp, hm, rfl⟩ | ⟨hg, hp, hm, rfl⟩
    · rcases startGenerate_cases s with ⟨he, _⟩ | ⟨he, hy, hn⟩ <;> rw [he]
      · exact generateFails hd hg
      · exact generateStarts hd hg hy hn
    · exact generateWaits hd hg (by simp [hb])
    · exact generateEnds hd hg hp hm
    · exact generateShifts hd hg hp hm

/-- Whatever holds of every state the host's turn can lead to holds of the one it leads to. -/
theorem hostTurn_elim {s t : State} {P : State → Prop} (hs : hostTurn s = .next t)
    (nothing : s.host = [] → P s)
    (error : ∀ a rest, s.host = .access a :: rest → P (respond .error (withHost rest s)))
    (read : ∀ a off n rest w, s.host = a :: rest → IsRead a off n → s.rstN = true →
      P (respond (.data w) (nameResult n (.word w) (withHost rest s))))
    (write : ∀ a off v rest x, s.host = a :: rest → IsWrite s a off v → legalAccess off.val 4 = true → s.rstN = true →
      (x = s ∨ (regAt off.val = .arg0 ∧ x = setArg0 v s) ∨ (regAt off.val = .arg1 ∧ x = setArg1 v s) ∨
        (regAt off.val = .arg2 ∧ x = setArg2 v s) ∨ (regAt off.val = .cmd ∧ s.busy = true ∧ x = dropCommand s) ∨
        (regAt off.val = .cmd ∧ s.busy = false ∧ x = accept v s)) →
      P (respond .ack (progress (withHost rest x))))
    (poll : ∀ rest w, s.host = .waitIdle :: rest → s.rstN = true → P (respond (.data w) (afterPoll rest s)))
    (starts : ∀ k x rest, s.host = .takeCount k x :: rest → P (startTake k x rest s))
    (taken : ∀ x rest b v, s.host = .take x :: rest → s.pnOut = some b →
      P (progress (transferBeat b (nameResult x v (withHost rest s)))))
    (waits : ∀ x rest, s.host = .take x :: rest → s.pnOut = none → P s)
    (noEdge : ∀ rest, s.host = .rstN true :: rest → s.rstN = true → P (withHost rest s))
    (resets : ∀ level rest, s.host = .rstN level :: rest → (level && s.rstN) = false →
      P (hardwareReset level (withHost rest s))) : P t := by
  have writes : ∀ a off v rest, s.host = a :: rest → IsWrite s a off v → legalAccess off.val 4 = true → s.rstN = true →
      P (busWrite off.val v (withHost rest s)) := by
    intro a off v rest hh ha hl hr
    rcases writeWindow_cases off.val v (withHost rest s) with e | ⟨hq, e⟩ | ⟨hq, e⟩ | ⟨hq, e⟩ | ⟨hq, hb, e⟩ | ⟨hq, hb, e⟩ <;>
      unfold busWrite <;> rw [e]
    · exact write a off v rest s hh ha hl hr (.inl rfl)
    · exact write a off v rest (setArg0 v s) hh ha hl hr (.inr (.inl ⟨hq, rfl⟩))
    · exact write a off v rest (setArg1 v s) hh ha hl hr (.inr (.inr (.inl ⟨hq, rfl⟩)))
    · exact write a off v rest (setArg2 v s) hh ha hl hr (.inr (.inr (.inr (.inl ⟨hq, rfl⟩))))
    · exact write a off v rest (dropCommand s) hh ha hl hr (.inr (.inr (.inr (.inr (.inl ⟨hq, hb, rfl⟩)))))
    · exact write a off v rest (accept v s) hh ha hl hr (.inr (.inr (.inr (.inr (.inr ⟨hq, hb, rfl⟩)))))
  rcases hostTurn_cases hs with ⟨hh, rfl⟩ | ⟨a, rest, hh, rfl⟩ | ⟨off, w, rest, hh, hl, hr, rfl⟩ |
    ⟨off, w, v, rest, hh, hl, hr, rfl⟩ | ⟨rest, hh, hr, rfl⟩ | ⟨x, rest, hh, rfl⟩ | ⟨reg, x, rest, w, hh, hr, rfl⟩ |
    ⟨reg, x, rest, hh, hr, rfl⟩ | ⟨k, x, rest, hh, rfl⟩ | ⟨l, rest, hh, rfl⟩
  · exact nothing hh
  · exact error a rest hh
  · obtain rfl : w = 4 := by simp [legalAccess] at hl; exact hl.1
    exact read _ off none rest _ hh (.inl ⟨rfl, rfl⟩) hr
  · obtain rfl : w = 4 := by simp [legalAccess] at hl; exact hl.1
    exact writes _ off v rest hh (.inl rfl) hl hr
  · exact poll rest _ hh hr
  · rcases takeBeat_cases s x rest with ⟨b, hb, e⟩ | ⟨hb, e⟩ <;> rw [e]
    · exact taken x rest b _ hh hb
    · exact waits x rest hh hb
  · exact read _ (regOffset reg) (some x) rest w hh (.inr ⟨reg, x, rfl, rfl, rfl⟩) hr
  · exact writes _ (regOffset reg) _ rest hh (.inr ⟨reg, x, rfl, rfl, rfl⟩) (legalAccess_regOffset reg) hr
  · exact starts k x rest hh
  · rcases driveRstN_cases l (withHost rest s) with ⟨rfl, hr, e⟩ | ⟨hl, e⟩ <;> rw [e]
    · exact noEdge rest hh hr
    · exact resets l rest hh hl

/-- Whatever holds of every state a step can lead to holds of the one it leads to. -/
theorem step_elim {s t : State} (hs : step s = .next t) (P : State → Prop)
    (blockIdle : nextAgent s = .block → (s.rstN && s.busy) = false → P (afterTurn s))
    (blockRuns : nextAgent s = .block → s.rstN = true → s.busy = true → runCommand (beginStep (afterTurn s)) = .next t → P t)
    (host : nextAgent s = .host → hostTurn (afterTurn s) = .next t → P t) : P t := by
  rcases step_cases hs with ⟨ha, hs⟩ | ⟨ha, hs⟩
  · rcases blockTurn_cases hs with ⟨hi, rfl⟩ | ⟨hr, hb, hs⟩
    · exact blockIdle ha hi
    · exact blockRuns ha hr hb hs
  · exact host ha hs

/-- A step that is no hardware reset leaves `rst_n` where it is. -/
theorem resetsNext_eq_false_iff {s : State} {level : Bool} {rest : List HostAction} (ha : nextAgent s = .host)
    (hh : s.host = .rstN level :: rest) : resetsNext s = false ↔ (level && s.rstN) = true := by
  simp [resetsNext, ha, hh]

end Sys2Proof.Machine
end

