-- ==== Sys2Proof/Laws/Bounds.lean ====
section
/-! SUPPORT. A command takes a finite number of steps that its argument bounds, and nothing but its own steps and hardware
reset ends it: no timeout, no cancellation (60_exceptions.md R171, R176). -/

namespace Sys2Proof.Machine

@[simp] theorem stepsOwed_beginStep (s : State) : stepsOwed (beginStep s) = stepsOwed s := by
  unfold beginStep; split <;> rfl

/-- The steps owed depend on the latched word, its first argument and the progress of the command alone. -/
theorem stepsOwed_congr {s t : State} (hl : t.lcmd = s.lcmd) (ha : t.larg1 = s.larg1) (hr : t.remain = s.remain)
    (hg : t.begun = s.begun) : stepsOwed t = stepsOwed s := by
  simp only [stepsOwed, advancesOwed, initShift, generateCount, hl, ha, hr, hg]

/-- With no beat on offer, a step of the command in progress completes it or uses up exactly one of the steps it owes. -/
theorem runCommand_countsDown {s t : State} (hp : s.pnOut = none) (h : runCommand s = .next t) :
    t.busy = false ∨ (t.busy = s.busy ∧ stepsOwed t + 1 = stepsOwed s) := by
  apply runCommand_elim (P := fun t => t.busy = false ∨ (t.busy = s.busy ∧ stepsOwed t + 1 = stepsOwed s)) h
  case initStarts =>
    intro hd hg _ _ _
    exact .inr ⟨rfl, by simp [stepsOwed, advancesOwed, initShift, hd, hg]⟩
  case initShifts =>
    intro hd hg hm
    exact .inr ⟨rfl, by simp [stepsOwed, advancesOwed, hd, hg]; omega⟩
  case generateStarts =>
    intro hd hg _ _
    exact .inr ⟨rfl, by simp [stepsOwed, advancesOwed, generateCount, hd, hg]⟩
  case generateShifts =>
    intro hd hg _ hm
    exact .inr ⟨rfl, by simp [stepsOwed, advancesOwed, hd, hg]; omega⟩
  case generateWaits => intro _ _ hq; exact absurd hp hq
  all_goals intros; exact .inl rfl

/-- With a beat of GENERATE on offer, a step of the command changes nothing of what it owes. -/
theorem runCommand_waits {s : State} {bit : Bool} (hd : decode s.lcmd = .ok .generate) (hg : s.begun = true)
    (hp : s.pnOut = some bit) : runCommand s = .next s := by
  simp [runCommand, hd, exec, execGenerate, hg, hp]

/-- The host's turn, short of hardware reset, neither ends a command in progress nor changes the steps it owes. -/
theorem hostTurn_keepsTheCommand {s t : State} (hb : s.busy = true) (ha : nextAgent s = .host) (hr : resetsNext s = false)
    (h : hostTurn (afterTurn s) = .next t) : t.busy = true ∧ stepsOwed t = stepsOwed s := by
  have keep : ∀ {t : State}, t.busy = s.busy → t.lcmd = s.lcmd → t.larg1 = s.larg1 → t.remain = s.remain →
      t.begun = s.begun → t.busy = true ∧ stepsOwed t = stepsOwed s :=
    fun h hl hx hm hg => ⟨h.trans hb, stepsOwed_congr hl hx hm hg⟩
  apply hostTurn_elim (P := fun t => t.busy = true ∧ stepsOwed t = stepsOwed s) h
  case write =>
    rintro a off v rest x _ _ _ _ (rfl | ⟨_, rfl⟩ | ⟨_, rfl⟩ | ⟨_, rfl⟩ | ⟨_, _, rfl⟩ | ⟨_, hi, rfl⟩)
    case inr.inr.inr.inr.inr => simp [hb] at hi
    all_goals apply keep <;> simp
  case resets =>
    intro level rest hh hl
    have hn := (resetsNext_eq_false_iff ha (by simpa using hh)).1 hr
    rw [afterTurn_rstN] at hl
    simp [hn] at hl
  all_goals intros; apply keep <;> simp [startTake]

/-- 60_exceptions.md R171, R176: a step that is no hardware reset leaves a command in progress with no more steps owed than
before, unless it is the block's own step that completes it. -/
theorem step_neverCancels {s t : State} (hi : CommandInv s) (hb : s.busy = true) (hr : resetsNext s = false)
    (h : step s = .next t) : (nextAgent s = .block ∧ t.busy = false) ∨ (t.busy = true ∧ stepsOwed t ≤ stepsOwed s) := by
  rcases step_cases h with ⟨ha, h⟩ | ⟨ha, h⟩
  · rcases blockTurn_cases h with ⟨_, rfl⟩ | ⟨_, _, h⟩
    · exact .inr ⟨hb, Nat.le_refl _⟩
    · cases hp : s.pnOut with
      | none =>
        rcases runCommand_countsDown (by simpa using hp) h with ht | ⟨ht, hm⟩
        · exact .inl ⟨ha, ht⟩
        · have hs : stepsOwed (beginStep (afterTurn s)) = stepsOwed s := stepsOwed_beginStep _
          refine .inr ⟨?_, by omega⟩
          rw [ht, beginStep_busy]
          exact hb
      | some bit =>
        obtain ⟨_, hg, hd⟩ := hi.1 (by simp [hp])
        rw [runCommand_waits (bit := bit) (by simpa using hd) (by simpa using hg) (by simpa using hp)] at h
        injection h with h
        subst h
        refine .inr ⟨by simpa using hb, Nat.le_of_eq ?_⟩
        exact stepsOwed_beginStep _
  · obtain ⟨h1, h2⟩ := hostTurn_keepsTheCommand hb ha hr h
    exact .inr ⟨h1, Nat.le_of_eq h2⟩

/-- An accepted command owes at most the checks, the number of advances its argument names, and the completion. -/
theorem stepsOwed_accept (v : Word) (s : State) :
    stepsOwed (accept v s) ≤ max s.arg1.toNat s.arg1.toInt.toNat + 2 := by
  unfold stepsOwed advancesOwed initShift generateCount
  split <;> simp

end Sys2Proof.Machine
end

