-- ==== Sys2Proof/Laws/Decode.lean ====
section
/-! SUPPORT. The fields of a command word as quotients, and the low bits of a Format B word (30_encoding.md R70, R77). -/

namespace Sys2Proof

/-- A field of a word is a quotient of its value. -/
theorem field_toNat (w : Word) (lo len : Nat) : (w.extractLsb' lo len).toNat = w.toNat / 2 ^ lo % 2 ^ len := by
  rw [BitVec.extractLsb'_toNat, Nat.shiftRight_eq_div_pow]

/-- The tap fields of a Format B word lie above its first `lo` bits. -/
theorem encodeTaps_low_bits (taps : List Nat) : ∀ lo i : Nat, i < lo → (encodeTaps lo taps).getLsbD i = false := by
  induction taps with
  | nil => intro lo i _; simp [encodeTaps]
  | cons t ts ih => intro lo i hi; simp [encodeTaps, hi, ih (lo + 5) i (by omega)]

/-- The seven bits that select a BUILDPOLY are the opcode and the number of taps. -/
theorem encodeFormatB_select (taps : List Nat) (hn : taps.length < 8) :
    encodeFormatB taps &&& 0x7F#32 = 0x1#32 ||| (BitVec.ofNat 32 taps.length <<< 4) := by
  have h : encodeTaps 7 taps &&& 0x7F#32 = 0#32 := by
    apply BitVec.eq_of_getLsbD_eq
    intro i _
    by_cases hi : i < 7
    · simp [encodeTaps_low_bits taps 7 i hi]
    · have : (0x7F#32).getLsbD i = false := by
        rw [BitVec.getLsbD_ofNat, Nat.testBit_lt_two_pow (x := 127)]
        · simp
        · calc 127 < 2 ^ 7 := by decide
            _ ≤ 2 ^ i := Nat.pow_le_pow_right (by omega) (by omega)
      simp [this]
  unfold encodeFormatB
  have hd : ∀ a b c : Word, (a ||| b) &&& c = (a &&& c) ||| (b &&& c) := by
    intro a b c
    apply BitVec.eq_of_getLsbD_eq
    intro i _
    simp [Bool.and_or_distrib_right]
  rw [hd, h]
  have : taps.length = 0 ∨ taps.length = 1 ∨ taps.length = 2 ∨ taps.length = 3 ∨ taps.length = 4 ∨ taps.length = 5 ∨
      taps.length = 6 ∨ taps.length = 7 := by omega
  rcases this with h | h | h | h | h | h | h | h <;> rw [h] <;> decide

end Sys2Proof
end

