-- ==== Sys2Proof/Laws/Names.lean ====
section
/-! SUPPORT. What a name of a host program stands for after a result has been named (30_encoding.md R78). -/

namespace Sys2Proof.Machine

/-- A name just given stands for the result it was given. -/
@[simp] theorem namedValue_nameResult_self (x : String) (v : Named) (s : State) :
    namedValue x (nameResult (some x) v s) = some v := by
  simp [namedValue, namesAfter]

/-- Leaving out another name's entries does not change what a name stands for. -/
theorem lookup_filter_ne {x y : String} (h : y ≠ x) (names : List (String × Named)) :
    (names.filter fun e => e.1 != x).lookup y = names.lookup y := by
  induction names with
  | nil => rfl
  | cons e rest ih =>
    obtain ⟨n, v⟩ := e
    by_cases hn : n = x
    · subst hn
      simp [List.lookup, ih, beq_eq_false_iff_ne.2 h]
    · rw [List.filter_cons_of_pos (by simpa using hn)]
      simp only [List.lookup, ih]

/-- Every other name stands for what it stood for. -/
theorem namedValue_nameResult_of_ne {x : Option String} {y : String} (h : x ≠ some y) (v : Named) (s : State) :
    namedValue y (nameResult x v s) = namedValue y s := by
  cases x with
  | none => rfl
  | some x =>
    have hy : y ≠ x := fun e => h (by rw [e])
    simp [namedValue, namesAfter, List.lookup, beq_eq_false_iff_ne.2 hy, lookup_filter_ne hy]

/-- A name given a word is written as that word (30_encoding.md R78). -/
@[simp] theorem namedWord_nameResult_self (x : String) (w : Word) (s : State) :
    namedWord x (nameResult (some x) (.word w) s) = w := by
  simp [namedWord]

/-- A name given bits stands for those bits. -/
@[simp] theorem namedBits_nameResult_self (x : String) (bs : List Bool) (s : State) :
    namedBits x (nameResult (some x) (.bits bs) s) = bs := by
  simp [namedBits]

end Sys2Proof.Machine
end

