-- ==== Sys2Proof/Laws/PerInstr.lean ====
section
/-! SUPPORT. One statement for every command: its canonical word matches its row of spec/opcode_table.json. -/

namespace Sys2Proof.Laws.CanonicalWordMatchesRow

/-- The canonical word of a command has, under the mask of the command's row of the opcode table, the row's value. -/
def Statement (i : Instr) : Prop := encode i &&& tableMask i = tableMatch i

theorem buildpoly1 (t0 : Nat) : Statement (.buildpoly1 t0) := by
  simpa [Statement, encode, tableMask, tableMatch] using encodeFormatB_select [t0] (by simp)

theorem buildpoly2 (t0 t1 : Nat) : Statement (.buildpoly2 t0 t1) := by
  simpa [Statement, encode, tableMask, tableMatch] using encodeFormatB_select [t0, t1] (by simp)

theorem buildpoly3 (t0 t1 t2 : Nat) : Statement (.buildpoly3 t0 t1 t2) := by
  simpa [Statement, encode, tableMask, tableMatch] using encodeFormatB_select [t0, t1, t2] (by simp)

theorem buildpoly4 (t0 t1 t2 t3 : Nat) : Statement (.buildpoly4 t0 t1 t2 t3) := by
  simpa [Statement, encode, tableMask, tableMatch] using encodeFormatB_select [t0, t1, t2, t3] (by simp)

theorem buildpoly5 (t0 t1 t2 t3 t4 : Nat) : Statement (.buildpoly5 t0 t1 t2 t3 t4) := by
  simpa [Statement, encode, tableMask, tableMatch] using encodeFormatB_select [t0, t1, t2, t3, t4] (by simp)

theorem mlpoly : Statement .mlpoly := by unfold Statement; decide

theorem statesize : Statement .statesize := by unfold Statement; decide

theorem init : Statement .init := by unfold Statement; decide

theorem reset : Statement .reset := by unfold Statement; decide

theorem generate : Statement .generate := by unfold Statement; decide

end Sys2Proof.Laws.CanonicalWordMatchesRow
end

