-- ==== Sys2Proof/Laws/Runs.lean ====
section
/-! SUPPORT. Runs of several steps, one after the other. -/

namespace Sys2Proof.Machine

/-- A run that starts with a step to `t` goes on as the run from `t`. -/
theorem stepTimes_of_step {s t : State} (n : Nat) (h : step s = .next t) : stepTimes (n + 1) s = stepTimes n t := by
  show (match step s with
    | .next t => stepTimes n t
    | .fault r => .fault r
    | .refused r => .refused r) = _
  rw [h]

/-- The steps of a command that start with one to `t` go on as those from `t`. -/
theorem execTimes_of_exec {i : Instr} {s t : State} (n : Nat) (h : exec i s = .next t) :
    execTimes (n + 1) i s = execTimes n i t := by
  show (match exec i s with
    | .next t => execTimes n i t
    | .fault r => .fault r
    | .refused r => .refused r) = _
  rw [h]

/-- Two runs compose: `m` steps to `t`, then `n` steps from `t`. -/
theorem stepTimes_add (m n : Nat) : ∀ s t : State, stepTimes m s = .next t → stepTimes (m + n) s = stepTimes n t := by
  induction m with
  | zero =>
    intro s t h
    injection h with h
    rw [Nat.zero_add, h]
  | succ m ih =>
    intro s t h
    cases hs : step s with
    | next u =>
      rw [stepTimes_of_step m hs] at h
      rw [Nat.succ_add, stepTimes_of_step (m + n) hs]
      exact ih u t h
    | fault r => simp [stepTimes, hs] at h
    | refused r => simp [stepTimes, hs] at h

/-- The steps of a command compose. -/
theorem execTimes_add (i : Instr) (m n : Nat) :
    ∀ s t : State, execTimes m i s = .next t → execTimes (m + n) i s = execTimes n i t := by
  induction m with
  | zero =>
    intro s t h
    injection h with h
    rw [Nat.zero_add, h]
  | succ m ih =>
    intro s t h
    cases hs : exec i s with
    | next u =>
      rw [execTimes_of_exec m hs] at h
      rw [Nat.succ_add, execTimes_of_exec (m + n) hs]
      exact ih u t h
    | fault r => simp [execTimes, hs] at h
    | refused r => simp [execTimes, hs] at h

end Sys2Proof.Machine
end

