-- ==== Sys2Proof/Tests/Slice0.lean ====
section
/-! SUPPORT. Tests of single steps, their expected values from the vectors of spec/95_test_vectors.md or by hand from the
rule named; words written out from 30_encoding.md; ill-formed commands; and a witness for the hypotheses of each statement. -/

namespace Sys2Proof.Machine.Tests

/-- Whether an outcome is a next state with a property. -/
def nextWith (p : State → Bool) : Result → Bool
  | .next t => p t
  | .fault _ => false
  | .refused _ => false

/-- The engine after `INIT 13,0,1` (V-I1). -/
def engine13 : State := { State.reset with poly := 13#32, order := 3#5, lfsr := 1#32, seed := 1#32, ready := true }

/-- A command just accepted, with its latched arguments. -/
def accepted (w a0 a1 a2 : Word) (s : State) : State :=
  { s with lcmd := w, larg0 := a0, larg1 := a1, larg2 := a2, busy := true, begun := false }

/-- A command in its loop, with `n` advances to perform. -/
def looping (n : Nat) (s : State) : State := { s with begun := true, remain := n }

/-- A state whose host has the given actions pending. -/
def hostHas (acts : List HostAction) (s : State) : State := { s with host := acts }

/-- GENERATE 3 of the engine of V-I1, in its loop, with no beat on offer. -/
def generating : State := looping 3 (accepted 6#32 0#32 3#32 0#32 engine13)

/-- The same with the bit 1 on offer and LFSR advanced once (V-A1). -/
def offering : State := { generating with lfsr := 4#32, remain := 2, pnOut := some true }

/-- INIT 13,2,9 in its pre-shift, nothing shifted yet. -/
def preShifting : State := { looping 2 (accepted 4#32 13#32 2#32 9#32 State.reset) with work := 1#32 }

/-- INIT 13,2,9 with its pre-shift done: the register is 6 (V-I7). -/
def preShifted : State := { preShifting with remain := 0, work := 6#32 }

/-! ### Decoding: a word of every command, and reserved words (V-B, V-D) -/

theorem test_decode_buildpoly1 : decode 0x00000F91#32 = .ok (.buildpoly1 31) := by decide
theorem test_decode_buildpoly2_ignored_taps : decode 0xF9C221A1#32 = .ok (.buildpoly2 3 2) := by decide
theorem test_decode_buildpoly3 : decode 0x00043031#32 = .ok (.buildpoly3 0 3 2) := by decide
/-- By hand from R77: 1 + 4*2^4 + 9*2^7 + 5*2^12 + 2*2^17. -/
theorem test_decode_buildpoly4 : decode 0x000454C1#32 = .ok (.buildpoly4 9 5 2 0) := by decide
theorem test_decode_buildpoly5 : decode 0xDF3BEFD1#32 = .ok (.buildpoly5 31 30 29 28 27) := by decide
theorem test_decode_mlpoly_ignored_bits : decode 0x12345672#32 = .ok .mlpoly := by decide
theorem test_decode_statesize : decode 0x80000003#32 = .ok .statesize := by decide
theorem test_decode_init : decode 0xFFFFFFF4#32 = .ok .init := by decide
theorem test_decode_reset : decode 0x00000005#32 = .ok .reset := by decide
theorem test_decode_generate : decode 0xFFFFFFF6#32 = .ok .generate := by decide
theorem test_decode_zero_is_illegal : decode 0x00000000#32 = .error (.reservedOpcode 0) := by decide
theorem test_decode_ones_is_illegal : decode 0xFFFFFFFF#32 = .error (.reservedOpcode 15) := by decide
theorem test_decode_cnt_0_is_illegal : decode 0x00000001#32 = .error (.reservedCount 0) := by decide
theorem test_decode_cnt_7_is_illegal : decode 0xFFFFFFF1#32 = .error (.reservedCount 7) := by decide
theorem test_decodeTableWord : decodeTableWord 32 0x010A6451 = some (.buildpoly5 8 6 5 4 0) := by decide
theorem test_decodeTableWord_reserved : decodeTableWord 32 0x00000061 = none := by decide
theorem test_disassemble : disassemble 0x000021B1#32 = "BUILDPOLY3 3,2,0" := by decide
theorem test_disassemble_reserved : disassemble 0x00000007#32 = "ILLEGAL 0x7" := by decide

/-! ### WellFormed refuses a tap beyond 31 in each place (30_encoding.md R71) -/

theorem test_illFormed_buildpoly1 : ¬ WellFormed (.buildpoly1 32) := by decide
theorem test_illFormed_buildpoly2 : ¬ WellFormed (.buildpoly2 31 32) := by decide
theorem test_illFormed_buildpoly3 : ¬ WellFormed (.buildpoly3 0 31 32) := by decide
theorem test_illFormed_buildpoly4 : ¬ WellFormed (.buildpoly4 0 0 32 0) := by decide
theorem test_illFormed_buildpoly5 : ¬ WellFormed (.buildpoly5 0 0 0 0 32) := by decide

/-! ### The advance (V-A) -/

theorem test_advance_13 : (advance 0x4#32 13#32 3, departing 0x4#32) = (0x6#32, false) := by decide
theorem test_advance_order_31 : advance 0x12345678#32 0x90000001#32 31 = 0x491A2B3C#32 := by decide
theorem test_advance_order_1 : advance 0x1#32 0x3#32 1 = 0x1#32 := by decide

/-! ### One step of each command -/

/-- V-B5. -/
theorem test_buildpoly1 : nextWith (fun t => t.result == 0x80000000#32 && t.code == .ok && !t.busy)
    (exec (.buildpoly1 31) (accepted 0x00000F91#32 0#32 0#32 0#32 engine13)) = true := by decide
/-- V-B8: a repeated tap sets its bit once. -/
theorem test_buildpoly2 : nextWith (fun t => t.result == 0x20#32) (exec (.buildpoly2 5 5) State.reset) = true := by decide
/-- V-B2: the order of the taps does not matter. -/
theorem test_buildpoly3 : nextWith (fun t => t.result == 0xD#32) (exec (.buildpoly3 0 3 2) State.reset) = true := by decide
/-- By hand from R100: 2^9 + 2^5 + 2^2 + 2^0. -/
theorem test_buildpoly4 : nextWith (fun t => t.result == 0x225#32) (exec (.buildpoly4 9 5 2 0) State.reset) = true := by decide
/-- V-B17. -/
theorem test_buildpoly5 : nextWith (fun t => t.result == 0xF8000000#32)
    (exec (.buildpoly5 31 30 29 28 27) State.reset) = true := by decide
/-- V-M11. -/
theorem test_mlpoly_31 : nextWith (fun t => t.result == 0x90000001#32)
    (exec .mlpoly (accepted 2#32 31#32 0#32 0#32 State.reset)) = true := by decide
/-- V-M6: all 32 bits of the order are compared, and the code is OK. -/
theorem test_mlpoly_high_bit : nextWith (fun t => t.result == 0#32 && t.code == .ok)
    (exec .mlpoly (accepted 2#32 0x80000003#32 0#32 0#32 { State.reset with result := 5#32 })) = true := by decide
/-- V-S2. -/
theorem test_statesize : nextWith (fun t => t.result == 16#32 && t.lfsr == 1#32 && t.ready)
    (exec .statesize engine13) = true := by decide
/-- V-I17: the clamp of order 31. -/
theorem test_init_clamps : nextWith (fun t => t.work == 0x7FFFFFFF#32 && t.remain == 0 && t.begun && t.busy && !t.ready)
    (exec .init (accepted 4#32 0x80000001#32 0#32 0xFFFFFFFF#32 State.reset)) = true := by decide
/-- V-I9: order 0 is refused and nothing is written. -/
theorem test_init_refuses_order_0 : nextWith (fun t => t.code == .invalidArgument && !t.busy && !t.ready && t.poly == 0#32)
    (exec .init (accepted 4#32 1#32 0#32 1#32 State.reset)) = true := by decide
/-- V-R4: RESET restores the seed taken after the pre-shift. -/
theorem test_reset_restores_seed : nextWith (fun t => t.lfsr == 6#32 && t.seed == 6#32 && t.code == .ok)
    (exec .reset { engine13 with seed := 6#32, lfsr := 1#32 }) = true := by decide
/-- V-R1. -/
theorem test_reset_uninitialized : nextWith (fun t => t.code == .invalidArgument && t.lfsr == 0#32)
    (exec .reset (accepted 5#32 0#32 0#32 0#32 State.reset)) = true := by decide
/-- V-A13: one advance of GENERATE offers the departing bit 0. -/
theorem test_generate_advances : nextWith (fun t => t.lfsr == 0x491A2B3C#32 && t.pnOut == some false && t.remain == 4 && t.busy)
    (exec .generate { looping 5 (accepted 6#32 0#32 5#32 0#32 engine13) with
      poly := 0x90000001#32, order := 31#5, lfsr := 0x12345678#32 }) = true := by decide
/-- V-G10: the most negative count is refused and LFSR stays. -/
theorem test_generate_negative : nextWith (fun t => t.code == .invalidArgument && !t.busy && t.lfsr == 1#32 && t.pnOut == none)
    (exec .generate (accepted 6#32 0#32 0x80000000#32 0#32 engine13)) = true := by decide

/-! ### Steps of the block, the bus and the ports -/

/-- V-D6: an accepted illegal word, READY = 1. -/
theorem test_step_illegal_word : nextWith (fun t => statusWord t == 0x22#32)
    (step (accepted 7#32 0#32 0#32 0#32 engine13)) = true := by decide
/-- A placed STATESIZE word runs as the next step, from reset. -/
theorem test_step_placed : nextWith (fun t => t.result == 16#32) (step (State.reset.withFetchWord 32 3)) = true := by decide
/-- V-X5: a misaligned write of a command word starts nothing. -/
theorem test_bus_misaligned : nextWith (fun t => t.responses == [.error] && !t.busy)
    (step (hostHas [.access (.write 2 4 5#32)] engine13)) = true := by decide
/-- V-X7: a one-byte write to CMD starts nothing. -/
theorem test_bus_byte_write : nextWith (fun t => t.responses == [.error] && !t.busy)
    (step (hostHas [.access (.write 0 1 6#32)] engine13)) = true := by decide
/-- V-X9: a write to LFSR is acknowledged and ignored. -/
theorem test_bus_lfsr_read_only : nextWith (fun t => t.responses == [.ack] && t.lfsr == 1#32)
    (step (hostHas [.access (.write 0x20 4 5#32)] engine13)) = true := by decide
/-- V-X12: the ORDER register, bits [31:5] reading 0. -/
theorem test_bus_read_order : nextWith (fun t => t.responses == [.data 0x1F#32])
    (step (hostHas [.access (.read 0x1C 4)] { engine13 with order := 31#5 })) = true := by decide
/-- V-T1 and V-T2: STATUS after reset and after INIT. -/
theorem test_status : statusWord State.reset = 0x00#32 ∧ statusWord engine13 = 0x20#32 := by decide
/-- V-T4: a CMD write while BUSY is dropped and sets OVR. -/
theorem test_cmd_dropped : nextWith (fun t => t.ovr && t.busy && t.lcmd == 6#32 && t.responses == [.ack])
    (step (hostHas [.access (.write 0 4 5#32)] offering)) = true := by decide
/-- V-T6: acceptance clears OVR. -/
theorem test_cmd_accepted : nextWith (fun t => !t.ovr && t.busy && t.lcmd == 5#32)
    (step (hostHas [.access (.write 0 4 5#32)] { engine13 with ovr := true })) = true := by decide
/-- 20_memory.md R53: a turn of the block with a beat on offer is no progress, so a read while busy stays the same. -/
theorem test_wait_is_no_progress : nextWith (fun t => t.freeIdx == offering.freeIdx && t.pnOut == some true && t.busy)
    (step { offering with sched := [.block] }) = true := by decide
/-- 10_state.md R33: a beat on offer transfers to a host that takes it. -/
theorem test_take : nextWith (fun t => t.taken == [true] && t.pnOut == none && t.host == [])
    (step (hostHas [.take none] offering)) = true := by decide
/-- 70_reset_and_hazards.md R180: reset abandons a GENERATE, and beats already taken stay taken. -/
theorem test_hardware_reset : nextWith (fun t => !t.busy && !t.ready && t.pnOut == none && t.taken == [true] && !t.rstN)
    (step (hostHas [.rstN false] { offering with taken := [true] })) = true := by decide
/-- P2 of 95_test_vectors.md, its first four statements: a named result is an operand of later statements. -/
theorem test_program_p2 :
    programActions (expand (.buildpoly [3, 2, 0]) ++ [.rd .result "p"] ++
      expand (.init (.name "p") (.lit 2#32) (.lit 9#32)) ++ [.rd .lfsr "l0"]) =
    [.access (.write 0x00 4 0x000021B1#32), .waitIdle, .readAs .result "p", .writeNamed .arg0 "p",
      .access (.write 0x08 4 2#32), .access (.write 0x0C 4 9#32), .access (.write 0x00 4 4#32), .waitIdle,
      .readAs .lfsr "l0"] := by decide
/-- 30_encoding.md R79: the expansion of `GEN 5 -> a`, and of a `GEN` of a negative count, which takes nothing. -/
theorem test_expand_gen :
    programActions (expand (.gen (.lit 5#32) "a")) =
      [.access (.write 0x08 4 5#32), .access (.write 0x00 4 6#32), .takeCount (.lit 5) "a", .waitIdle] ∧
    genCount (.lit 0xFFFFFFFF#32) = .lit 0 := by decide
/-- P2: `RD RESULT -> p` reads 13 and names it. -/
theorem test_rd_names : nextWith (fun t => t.responses == [.data 13#32] && t.names == [("p", .word 13#32)] && t.host == [])
    (step (hostHas [.readAs .result "p"] { engine13 with result := 13#32 })) = true := by decide
/-- P2: `WR ARG0, p` writes the latest data named p. -/
theorem test_wr_named : nextWith (fun t => t.arg0 == 13#32 && t.responses == [.ack])
    (step (hostHas [.writeNamed .arg0 "p"] { engine13 with names := [("q", .word 1#32), ("p", .word 13#32)] })) = true := by
  decide
/-- A name read again stands for the later data only. -/
theorem test_rd_renames : nextWith (fun t => t.names == [("l", .word 1#32), ("z", .word 16#32)])
    (step (hostHas [.readAs .lfsr "l"] { engine13 with names := [("z", .word 16#32), ("l", .word 6#32)] })) = true := by decide
/-- `TAKE 2 -> b` starts with no bits and two beats to take. -/
theorem test_take_count : nextWith (fun t => t.names == [("b", .bits [])] &&
    t.host == [.take (some "b"), .take (some "b"), .waitIdle])
    (step (hostHas [.takeCount (.lit 2) "b", .waitIdle] engine13)) = true := by decide
/-- The bit of a beat joins the bits of its name at the end. -/
theorem test_take_named : nextWith (fun t => t.names == [("b", .bits [false, true])] && t.taken == [true])
    (step (hostHas [.take (some "b")] { offering with names := [("b", .bits [false])] })) = true := by decide

/-! ### Witnesses: for each statement with hypotheses, concrete values that meet them, clause by clause -/

theorem inv_engine13 : BlockInv engine13 := ⟨⟨by decide, by decide⟩, ⟨by decide, by decide⟩, by decide⟩
theorem inv_preShifting : BlockInv preShifting := ⟨⟨by decide, by decide⟩, ⟨by decide, by decide⟩, by decide⟩
theorem inv_preShifted : BlockInv preShifted := ⟨⟨by decide, by decide⟩, ⟨by decide, by decide +kernel⟩, by decide⟩
theorem inv_generating : BlockInv generating := ⟨⟨by decide, by decide⟩, ⟨by decide, by decide⟩, by decide⟩
theorem inv_generated : BlockInv (looping 0 generating) := ⟨⟨by decide, by decide⟩, ⟨by decide, by decide⟩, by decide⟩
theorem inv_offering : BlockInv offering := ⟨⟨by decide, by decide⟩, ⟨by decide, by decide⟩, by decide⟩
theorem inv_heldInReset : BlockInv { State.reset with rstN := false } := ⟨⟨by decide, by decide⟩, ⟨by decide, by decide⟩, by decide⟩
theorem inv_hostHas {s : State} (acts : List HostAction) (h : BlockInv s) : BlockInv (hostHas acts s) := h

theorem witness_DecodeOfEncodeIsTheCommand : WellFormed (.buildpoly5 31 30 0 28 27) ∧ WellFormed (.buildpoly1 0) ∧
    WellFormed .generate := by decide

theorem witness_DecodedCommandsAreWellFormed : decode 0xFFFFFFD1#32 = .ok (.buildpoly5 31 31 31 31 31) := by decide

theorem witness_DecodingFollowsTheOpcodeTable : decode 0xDF3BEFD1#32 = .ok (.buildpoly5 31 30 29 28 27) ∧
    0xDF3BEFD1#32 &&& tableMask (.buildpoly5 0 0 0 0 0) = tableMatch (.buildpoly5 0 0 0 0 0) := by decide

theorem witness_IllegalEncodingsCompleteWithNoOtherEffect :
    (BlockRuns (accepted 0x71#32 0#32 0#32 0#32 engine13) ∧
      decode (accepted 0x71#32 0#32 0#32 0#32 engine13).lcmd = .error (.reservedCount 7)) ∧
    (decode 0xF9C221A1#32 = .ok (.buildpoly2 3 2) ∧
      0xF9C221A1#32 &&& meaningfulBits (.buildpoly2 3 2) = 0x000021A1#32 &&& meaningfulBits (.buildpoly2 3 2)) := by decide

theorem witness_StepRunsTheCommandInProgress : BlockRuns (accepted 5#32 0#32 0#32 0#32 engine13) ∧
    decode (accepted 5#32 0#32 0#32 0#32 engine13).lcmd = .ok .reset := by decide

theorem witness_PlacedCommandRunsNext : decodeTableWord 32 0x21B1 = some (.buildpoly3 3 2 0) := by decide

theorem witness_AgentsWithoutAStepChangeNothing :
    (nextAgent { engine13 with sched := [.block] } = .block ∧ { engine13 with sched := [.block] }.busy = false) ∧
    (BlockRuns { offering with sched := [.block] } ∧ decode { offering with sched := [.block] }.lcmd = .ok .generate ∧
      { offering with sched := [.block] }.begun = true ∧ { offering with sched := [.block] }.pnOut = some true) ∧
    (nextAgent State.reset = .host ∧ State.reset.host = []) := by decide

theorem witness_BuildpolyWordSetsExactlyItsTapBits :
    (BlockRuns (accepted 0x00000F91#32 0#32 0#32 0#32 engine13) ∧ fieldValue 0x00000F91#32 0 4 = 1 ∧
      fieldValue 0x00000F91#32 4 3 = 1) ∧
    (BlockRuns (accepted 0xDF3BEFD1#32 0#32 0#32 0#32 engine13) ∧ fieldValue 0xDF3BEFD1#32 0 4 = 1 ∧
      fieldValue 0xDF3BEFD1#32 4 3 = 5) ∧
    (BlockRuns (accepted 0x61#32 0#32 0#32 0#32 engine13) ∧ fieldValue 0x61#32 0 4 = 1 ∧
      ¬ (1 ≤ fieldValue 0x61#32 4 3 ∧ fieldValue 0x61#32 4 3 ≤ 5)) ∧
    (BlockRuns (accepted 0x000021B1#32 0#32 0#32 0#32 engine13)) := by decide

theorem witness_BuildpolyCompletesWithTheTapsSet : (Instr.buildpoly5 31 31 0 5 4).opcode = 0x1 ∧
    WellFormed (.buildpoly5 31 31 0 5 4) := by decide

theorem witness_BuildpolyResultLaws :
    ((Instr.buildpoly2 5 5).opcode = 0x1 ∧ WellFormed (.buildpoly2 5 5) ∧ ¬ (Instr.buildpoly2 5 5).taps.Nodup) ∧
    ((Instr.buildpoly3 31 28 0).opcode = 0x1 ∧ WellFormed (.buildpoly3 31 28 0) ∧
      (Instr.buildpoly3 31 28 0).taps.Nodup) := by decide

/-- The orders 3 and 31, 2 and 32, and one with a high bit set. -/
theorem witness_MlpolyLooksUpTheOrder :
    (3 ≤ (accepted 2#32 3#32 0#32 0#32 State.reset).larg0.toNat ∧ (accepted 2#32 3#32 0#32 0#32 State.reset).larg0.toNat ≤ 31) ∧
    (3 ≤ (accepted 2#32 31#32 0#32 0#32 State.reset).larg0.toNat ∧ (accepted 2#32 31#32 0#32 0#32 State.reset).larg0.toNat ≤ 31) ∧
    ¬ (3 ≤ (2#32 : Word).toNat ∧ (2#32 : Word).toNat ≤ 31) ∧ ¬ (3 ≤ (32#32 : Word).toNat ∧ (32#32 : Word).toNat ≤ 31) ∧
    ¬ (3 ≤ (0x80000003#32 : Word).toNat ∧ (0x80000003#32 : Word).toNat ≤ 31) := by decide

theorem witness_RomEntriesObeyTheirLaws : (3 ≤ 31 ∧ 31 ≤ 31) ∧ (0x80000000#32).getLsbD 0 = false := by decide

theorem witness_AdvanceShiftsAndInsertsTheTapXor :
    (1 ≤ 1 ∧ 1 ≤ 31 ∧ 1#32 >>> 1 = 0#32) ∧ (1 ≤ 31 ∧ 31 ≤ 31 ∧ 0x7FFFFFFF#32 >>> 31 = 0#32) := by decide

theorem witness_AdvanceCornerCases : 1#32 >>> 1 = 0#32 ∧ (0x80000000#32).getLsbD 0 = false ∧
    0x7FFFFFFF#32 >>> 31 = 0#32 := by decide

theorem witness_RegisterHoldsTheNextOutputBits : 1 ≤ 31 ∧ 31 ≤ 31 ∧ 0x12345678#32 >>> 31 = 0#32 ∧ 7 < 8 ∧ 30 < 31 := by decide

theorem witness_OutputObeysTheRecurrence : (1 ≤ 1 ∧ 1 ≤ 31 ∧ 1#32 >>> 1 = 0#32) ∧
    (1 ≤ 31 ∧ 31 ≤ 31 ∧ 0x12345678#32 >>> 31 = 0#32) := by decide

theorem witness_ZeroRegisterIsFixedAndNeverReached : 1 ≤ 31 ∧ 31 ≤ 31 ∧ (0x90000001#32).getLsbD 0 = true ∧
    0x40000000#32 >>> 31 = 0#32 ∧ 0x40000000#32 ≠ 0#32 := by decide

theorem witness_TableRegistersVisitEveryNonzeroValueOnce : (3 ≤ 3 ∧ 3 ≤ 31 ∧ 7#32 ≠ 0#32 ∧ 7#32 >>> 3 = 0#32) ∧
    (3 ≤ 31 ∧ 31 ≤ 31 ∧ 0x40000000#32 ≠ 0#32 ∧ 0x40000000#32 >>> 31 = 0#32) := by decide

theorem witness_TableSequencesHaveFullPeriodAndBalance : (3 ≤ 3 ∧ 3 ≤ 31 ∧ 1#32 ≠ 0#32 ∧ 1#32 >>> 3 = 0#32) ∧
    (3 ≤ 31 ∧ 31 ≤ 31 ∧ 1#32 ≠ 0#32 ∧ 1#32 >>> 31 = 0#32) ∧ 0 < 6 ∧ 6 < 2 ^ 3 - 1 := by decide

/-- Each failing check alone, the passing checks, a pre-shift step, and the end. -/
theorem witness_InitStepsAndCompletes :
    ((accepted 4#32 0#32 0#32 1#32 State.reset).begun = false ∧ (accepted 4#32 0#32 0#32 1#32 State.reset).larg0 = 0#32) ∧
    (accepted 4#32 13#32 0#32 0#32 State.reset).larg2 = 0#32 ∧ hsb (accepted 4#32 1#32 0#32 1#32 State.reset).larg0 = 0 ∧
    ((accepted 4#32 2#32 0#32 1#32 State.reset).larg0 ≠ 0#32 ∧ (accepted 4#32 2#32 0#32 1#32 State.reset).larg2 ≠ 0#32 ∧
      hsb (accepted 4#32 2#32 0#32 1#32 State.reset).larg0 ≠ 0) ∧
    (preShifting.begun = true ∧ preShifting.remain = 1 + 1) ∧ (preShifted.begun = true ∧ preShifted.remain = 0) := by decide

theorem witness_InitConstructsTheEngine :
    ((accepted 4#32 1#32 0#32 1#32 State.reset).begun = false ∧ (accepted 4#32 1#32 0#32 1#32 State.reset).larg0 = 1#32) ∧
    ((accepted 4#32 13#32 2#32 9#32 State.reset).begun = false ∧ (accepted 4#32 13#32 2#32 9#32 State.reset).larg0 ≠ 0#32 ∧
      (accepted 4#32 13#32 2#32 9#32 State.reset).larg2 ≠ 0#32 ∧ (accepted 4#32 13#32 2#32 9#32 State.reset).larg0 ≠ 1#32) := by
  decide

/-- X7: the initial values 9 and 1 with order 3. -/
theorem witness_InitIgnoresBitsBeyondTheOrder :
    (accepted 4#32 13#32 2#32 9#32 State.reset).begun = false ∧ 13#32 ≠ 0#32 ∧ 13#32 ≠ 1#32 ∧
    9#32 &&& mask (hsb 13#32) ≠ 0#32 ∧ 1#32 &&& mask (hsb 13#32) = 9#32 &&& mask (hsb 13#32) := by decide

theorem witness_PreShiftCountsModuloThePeriod : 0 < 7 ∧ advanceTimes 13#32 3 7 1#32 = 1#32 := by decide +kernel

theorem witness_InitResultWhateverComesBetween : BlockInv preShifted ∧ BlockRuns preShifted ∧
    decode preShifted.lcmd = .ok .init ∧ preShifted.begun = true ∧ preShifted.remain = 0 :=
  ⟨inv_preShifted, by decide⟩

theorem witness_ResetCommandRewinds : (engine13.ready = true ∧ engine13.lfsr = engine13.seed) ∧ State.reset.ready = false := by
  decide

theorem witness_GenerateStepsAndCompletes :
    (State.reset.begun = false ∧ State.reset.ready = false) ∧
    ((accepted 6#32 0#32 0xFFFFFFFF#32 0#32 engine13).begun = false ∧
      (accepted 6#32 0#32 0xFFFFFFFF#32 0#32 engine13).larg1.toInt < 0) ∧
    ((accepted 6#32 0#32 0x7FFFFFFF#32 0#32 engine13).ready = true ∧
      0 ≤ (accepted 6#32 0#32 0x7FFFFFFF#32 0#32 engine13).larg1.toInt) ∧
    (generating.begun = true ∧ generating.pnOut = none ∧ generating.remain = 2 + 1) ∧
    (offering.begun = true ∧ offering.pnOut = some true) ∧
    ((looping 0 generating).begun = true ∧ (looping 0 generating).pnOut = none ∧ (looping 0 generating).remain = 0) := by decide

/-- GENERATE 2 just accepted, with a host that takes two beats. -/
theorem witness_GenerateEmitsItsBits :
    (State.reset.begun = false ∧ State.reset.ready = false) ∧
    (let s := hostHas [.take none, .take none, .waitIdle] (accepted 6#32 0#32 2#32 0#32 engine13)
     s.rstN = true ∧ s.busy = true ∧ s.begun = false ∧ s.pnOut = none ∧ s.sched = [] ∧ decode s.lcmd = .ok .generate ∧
     s.ready = true ∧ s.larg1.toInt = (2 : Nat) ∧ s.host = List.replicate 2 (.take none) ++ [.waitIdle]) := by decide

/-- An advance; the transfer of a beat; and a completion. -/
theorem witness_GenerateDeliversWhatItPromises :
    (BlockInv generating ∧ BlockInv (hostHas [.take none] offering) ∧ BlockInv (looping 0 generating)) ∧
    (∀ s ∈ [generating, hostHas [.take none] offering, looping 0 generating],
      s.rstN = true ∧ s.busy = true ∧ s.begun = true ∧ decode s.lcmd = .ok .generate ∧ resetsNext s = false) ∧
    nextWith (fun t => t.busy) (step generating) = true ∧ nextWith (fun t => t.busy) (step (hostHas [.take none] offering)) = true ∧
    nextWith (fun t => !t.busy) (step (looping 0 generating)) = true :=
  ⟨⟨inv_generating, inv_hostHas _ inv_offering, inv_generated⟩, by decide⟩

theorem witness_GenerateSplitsIntoTwo : Idle engine13 ∧ engine13.ready = true ∧ 0 ≤ (3#32 : Word).toInt ∧
    0 ≤ (0x7FFFFFFC#32 : Word).toInt ∧ (3#32 : Word).toNat + (0x7FFFFFFC#32 : Word).toNat < 2 ^ 31 := by decide

theorem witness_RewindReproducesTheBits : Idle engine13 ∧ engine13.ready = true ∧ engine13.lfsr = engine13.seed ∧
    0 ≤ (5#32 : Word).toInt := by decide

theorem witness_PreShiftStartsTheStreamLater : Idle State.reset ∧ 13#32 ≠ 0#32 ∧ 13#32 ≠ 1#32 ∧ 9#32 ≠ 0#32 ∧
    (2#32 : Word).toNat + (5#32 : Word).toNat < 2 ^ 31 := by decide

/-- A command just accepted that fails and one that does not; and a command in its loop that completes. -/
theorem witness_InvalidArgumentHasExactlyTheseCauses :
    ((accepted 5#32 0#32 0#32 0#32 State.reset).busy = true ∧ (accepted 5#32 0#32 0#32 0#32 State.reset).begun = false ∧
      nextWith (fun t => !t.busy && t.code == .invalidArgument) (exec .reset (accepted 5#32 0#32 0#32 0#32 State.reset)) = true) ∧
    nextWith (fun t => !t.busy && t.code != .invalidArgument) (exec .reset (accepted 5#32 0#32 0#32 0#32 engine13)) = true ∧
    (preShifted.busy = true ∧ preShifted.begun = true ∧ nextWith (fun t => !t.busy) (exec .init preShifted) = true) := by decide

theorem witness_FailingCommandsHaveNoOtherEffect : BlockRuns (accepted 5#32 0#32 0#32 0#32 State.reset) ∧
    nextWith (fun t => !t.busy && t.code != .ok) (step (accepted 5#32 0#32 0#32 0#32 State.reset)) = true := by decide

/-- A wrong width alone and a wrong alignment alone; a drop; an illegal word; both causes of GENERATE's failure. -/
theorem witness_ConditionsHaveTheirPriority :
    (HostActs (hostHas [.access (.write 0 8 5#32)] engine13) (.access (.write 0 8 5#32)) [] ∧
      HostActs (hostHas [.access (.write 2 4 5#32)] engine13) (.access (.write 2 4 5#32)) []) ∧
    (HostActs (hostHas [.access (.write 0 4 5#32)] offering) (.access (.write 0 4 5#32)) [] ∧ offering.busy = true ∧
      IsWrite (hostHas [.access (.write 0 4 5#32)] offering) (.access (.write 0 4 5#32)) 0x00 5#32) ∧
    (BlockRuns (accepted 0#32 0#32 0#32 0#32 State.reset) ∧
      decode (accepted 0#32 0#32 0#32 0#32 State.reset).lcmd = .error (.reservedOpcode 0)) ∧
    (BlockRuns (accepted 6#32 0#32 0xFFFFFFFF#32 0#32 State.reset) ∧
      decode (accepted 6#32 0#32 0xFFFFFFFF#32 0#32 State.reset).lcmd = .ok .generate ∧
      (accepted 6#32 0#32 0xFFFFFFFF#32 0#32 State.reset).begun = false ∧ State.reset.ready = false ∧
      (accepted 6#32 0#32 0xFFFFFFFF#32 0#32 State.reset).larg1.toInt < 0) :=
  ⟨by decide, ⟨by decide, by decide, .inl rfl⟩, by decide, by decide⟩

/-- A read of a wrong width, a misaligned read at the last offset, and a misaligned write. -/
theorem witness_IllegalAccessesHaveNoEffect :
    (nextAgent (hostHas [.access (.read 0x10 2)] engine13) = .host ∧ (2 ≠ 4 ∨ (0x10 : Fin 64).val % 4 ≠ 0)) ∧
    (nextAgent (hostHas [.access (.read 63 4)] engine13) = .host ∧ (4 ≠ 4 ∨ (63 : Fin 64).val % 4 ≠ 0)) ∧
    (nextAgent (hostHas [.access (.write 2 4 5#32)] engine13) = .host ∧ (4 ≠ 4 ∨ (2 : Fin 64).val % 4 ≠ 0)) := by decide

/-- A bare read at aligned offsets of the window, and a `RD`, while BUSY = 0. -/
theorem witness_IdleReadsReturnTheRegisters :
    (∀ off ∈ ([0x00, 0x04, 0x08, 0x0C, 0x10, 0x14, 0x18, 0x1C, 0x20, 0x24, 0x28, 0x3C] : List (Fin 64)),
      HostActs (hostHas [.access (.read off 4)] engine13) (.access (.read off 4)) [] ∧
        engine13.busy = false ∧ off.val % 4 = 0) ∧
    (∀ off, IsRead (.access (.read off 4)) off none) ∧
    (HostActs (hostHas [.readAs .result "p"] engine13) (.readAs .result "p") [] ∧ IsRead (.readAs .result "p") 0x14 (some "p")) :=
  ⟨by decide, fun _ => .inl ⟨rfl, rfl⟩, by decide, .inr ⟨_, _, rfl, rfl, rfl⟩⟩

/-- A bare read at aligned offsets of the window, and a `RD`, while BUSY = 1. -/
theorem witness_BusyReadsAreExactOnlyWhereStated :
    (∀ off ∈ ([0x00, 0x04, 0x08, 0x0C, 0x10, 0x14, 0x18, 0x1C, 0x20, 0x24, 0x28, 0x3C] : List (Fin 64)),
      HostActs (hostHas [.access (.read off 4)] offering) (.access (.read off 4)) [] ∧
        offering.busy = true ∧ off.val % 4 = 0) ∧
    (∀ off, IsRead (.access (.read off 4)) off none) ∧
    (HostActs (hostHas [.readAs .result "p"] offering) (.readAs .result "p") [] ∧ IsRead (.readAs .result "p") 0x14 (some "p")) :=
  ⟨by decide, fun _ => .inl ⟨rfl, rfl⟩, by decide, .inr ⟨_, _, rfl, rfl, rfl⟩⟩

/-- One `RD`; a bare read and a `RD` of the same register; and the two with a turn of the waiting block in between. -/
theorem witness_ReadsHaveNoSideEffects :
    (HostActs (hostHas [.readAs .result "p"] engine13) (.readAs .result "p") [] ∧
      IsRead (.readAs .result "p") 0x14 (some "p") ∧ (0x14 : Fin 64).val % 4 = 0) ∧
    (let s := { hostHas [.access (.read 0x20 4), .readAs .lfsr "l"] offering with sched := [.host, .host] }
     s.sched = .host :: .host :: [] ∧ HostActs s (.access (.read 0x20 4)) (.readAs .lfsr "l" :: [])) ∧
    IsRead (.access (.read 0x20 4)) 0x20 none ∧ IsRead (.readAs .lfsr "l") 0x20 (some "l") ∧
    (let s := { hostHas [.access (.read 0x20 4), .readAs .lfsr "l"] offering with sched := [.host, .block, .host] }
     s.sched = .host :: List.replicate 1 .block ++ .host :: [] ∧
     HostActs s (.access (.read 0x20 4)) (.readAs .lfsr "l" :: []) ∧ s.pnOut = some true ∧
     decode s.lcmd = .ok .generate ∧ s.begun = true) ∧
    engine13.busy = false :=
  ⟨⟨by decide, .inr ⟨_, _, rfl, rfl, rfl⟩, by decide⟩, by decide, .inl ⟨rfl, rfl⟩, .inr ⟨_, _, rfl, rfl, rfl⟩, by decide,
    by decide⟩

/-- CMD while idle and while busy, the three ARG registers, STATUS and the last offset; and a `WR` of a named value. -/
theorem witness_LegalWritesByOffset :
    (∀ off ∈ ([0x00, 0x04, 0x08, 0x0C, 0x10, 0x3C] : List (Fin 64)),
      HostActs (hostHas [.access (.write off 4 5#32)] engine13) (.access (.write off 4 5#32)) [] ∧ off.val % 4 = 0) ∧
    engine13.busy = false ∧
    (HostActs (hostHas [.access (.write 0 4 5#32)] offering) (.access (.write 0 4 5#32)) [] ∧ offering.busy = true) ∧
    (∀ s off, IsWrite s (.access (.write off 4 5#32)) off 5#32) ∧
    (let s := hostHas [.writeNamed .arg0 "p"] { engine13 with names := [("p", .word 13#32)] }
     HostActs s (.writeNamed .arg0 "p") [] ∧ IsWrite s (.writeNamed .arg0 "p") 0x04 13#32) :=
  ⟨by decide, by decide, by decide, fun _ _ => .inl rfl, by decide, .inr ⟨_, _, rfl, rfl, by decide⟩⟩

theorem witness_CmdWritesAreAcceptedOrDropped :
    (HostActs (hostHas [.access (.write 0 4 5#32)] engine13) (.access (.write 0 4 5#32)) [] ∧ engine13.busy = false) ∧
    (HostActs (hostHas [.access (.write 0 4 5#32)] offering) (.access (.write 0 4 5#32)) [] ∧ offering.busy = true) ∧
    (∀ s, IsWrite s (.access (.write 0 4 5#32)) 0x00 5#32) := ⟨by decide, by decide, fun _ => .inl rfl⟩

theorem witness_ArgReadsReturnWhatWasWritten :
    (∀ off ∈ ([0x04, 0x08, 0x0C] : List (Fin 64)),
      let s := { hostHas [.access (.write off 4 5#32), .access (.read off 4)] offering with sched := [.host, .host] }
      s.sched = .host :: .host :: [] ∧ HostActs s (.access (.write off 4 5#32)) (.access (.read off 4) :: [])) ∧
    (∀ s off, IsWrite s (.access (.write off 4 5#32)) off 5#32) ∧ (∀ off, IsRead (.access (.read off 4)) off none) :=
  ⟨by decide, fun _ _ => .inl rfl, fun _ => .inl ⟨rfl, rfl⟩⟩

theorem witness_WindowAddressesAndByteLanes : windowOffset (Config.pnBase + 63) = some 63 ∧ 3 < 4 ∧ 7 < 8 := by
  refine ⟨?_, by decide, by decide⟩
  unfold windowOffset
  rw [dif_pos (by omega)]
  simp only [Nat.add_sub_cancel_left]
  rfl

/-- A write to an ARG register while a command is in progress. -/
theorem witness_LatchedArgumentsAreKeptWhileBusy :
    offering.busy = true ∧ resetsNext (hostHas [.access (.write 8 4 9#32)] offering) = false ∧
    nextWith (fun t => t.arg1 == 9#32) (step (hostHas [.access (.write 8 4 9#32)] offering)) = true := by decide

/-- INIT's end, RESET, an advance of GENERATE, and a write to each ARG register change what they may. -/
theorem witness_EngineStateHasOnlyItsWriters :
    (∀ s ∈ [preShifted, accepted 5#32 0#32 0#32 0#32 { engine13 with lfsr := 7#32 }, generating,
        hostHas [.access (.write 4 4 9#32)] engine13, hostHas [.access (.write 8 4 9#32)] engine13,
        hostHas [.access (.write 12 4 9#32)] engine13], resetsNext s = false) ∧
    nextWith (fun t => t.poly != 0#32 && t.order != 0#5 && t.seed != 0#32 && t.lfsr != 0#32) (step preShifted) = true ∧
    nextWith (fun t => t.lfsr != 7#32) (step (accepted 5#32 0#32 0#32 0#32 { engine13 with lfsr := 7#32 })) = true ∧
    nextWith (fun t => t.lfsr != 1#32) (step generating) = true ∧
    nextWith (fun t => t.arg0 != 0#32) (step (hostHas [.access (.write 4 4 9#32)] engine13)) = true ∧
    nextWith (fun t => t.arg1 != 0#32) (step (hostHas [.access (.write 8 4 9#32)] engine13)) = true ∧
    nextWith (fun t => t.arg2 != 0#32) (step (hostHas [.access (.write 12 4 9#32)] engine13)) = true := by decide +kernel

/-- STATESIZE, and a hardware reset after it. -/
theorem witness_ResultHasOnlyItsWriters :
    nextWith (fun t => t.result != 0#32) (step (accepted 3#32 0#32 0#32 0#32 State.reset)) = true ∧
    nextWith (fun t => t.result != 16#32) (step (hostHas [.rstN false] { State.reset with result := 16#32 })) = true := by decide

/-- A reset; a failing command, an acceptance, INIT's end, a dropped CMD write and a write to STATUS. -/
theorem witness_StatusFieldsAndTheirWriters :
    (resetsNext (hostHas [.rstN false] offering) = true ∧ nextWith (fun _ => true) (step (hostHas [.rstN false] offering)) = true) ∧
    (∀ s ∈ [accepted 5#32 0#32 0#32 0#32 State.reset, hostHas [.access (.write 0 4 5#32)] engine13, preShifted,
        hostHas [.access (.write 0 4 5#32)] offering, hostHas [.access (.write 16 4 5#32)] engine13], resetsNext s = false) ∧
    nextWith (fun t => t.code != .ok) (step (accepted 5#32 0#32 0#32 0#32 State.reset)) = true ∧
    nextWith (fun t => t.busy) (step (hostHas [.access (.write 0 4 5#32)] engine13)) = true ∧
    nextWith (fun t => t.ready && !t.busy) (step preShifted) = true ∧
    (writesNext .cmd (hostHas [.access (.write 0 4 5#32)] offering) = true ∧
      nextWith (fun t => t.ovr) (step (hostHas [.access (.write 0 4 5#32)] offering)) = true) ∧
    writesNext .status (hostHas [.access (.write 16 4 5#32)] engine13) = true := by decide

/-- A reset of a ready engine; INIT that ends, and INIT that fails; RESET and GENERATE, ready and not; and MLPOLY. -/
theorem witness_LifecycleOfTheEngine :
    (engine13.ready = true ∧ nextWith (fun t => !t.ready) (step (hostHas [.rstN false] engine13)) = true) ∧
    (BlockRuns preShifted ∧ decode preShifted.lcmd = .ok .init ∧
      nextWith (fun t => !t.busy && t.code == .ok) (step preShifted) = true) ∧
    nextWith (fun t => t.code != .ok) (step (accepted 4#32 1#32 0#32 1#32 engine13)) = true ∧
    (BlockRuns (accepted 5#32 0#32 0#32 0#32 State.reset) ∧
      decode (accepted 5#32 0#32 0#32 0#32 State.reset).lcmd = .ok .reset ∧ State.reset.ready = false) ∧
    (BlockRuns generating ∧ decode generating.lcmd = .ok .generate) ∧
    (BlockRuns (accepted 2#32 3#32 0#32 0#32 engine13) ∧ decode (accepted 2#32 3#32 0#32 0#32 engine13).lcmd = .ok .mlpoly) := by
  decide

/-- `rst_n` driven low in the middle of a GENERATE, and its rising edge. -/
theorem witness_HardwareResetLeavesTheResetValues : resetsNext (hostHas [.rstN false] offering) = true ∧
    resetsNext (hostHas [.rstN true] { State.reset with rstN := false }) = true := by decide

theorem witness_AssertedResetHoldsTheBlock :
    BlockInv (hostHas [.rstN true] { State.reset with rstN := false }) ∧
    nextWith (fun t => t.rstN) (step (hostHas [.rstN true] { State.reset with rstN := false })) = true :=
  ⟨inv_hostHas _ inv_heldInReset, by decide⟩

/-- INIT in its pre-shift, GENERATE with a beat on offer, and the idle engine, each with a next state. -/
theorem witness_EveryStepKeepsTheInvariant :
    (BlockInv preShifting ∧ BlockInv preShifted ∧ BlockInv offering ∧ BlockInv generating ∧ BlockInv engine13) ∧
    ∀ s ∈ [preShifting, preShifted, offering, generating, engine13], nextWith (fun _ => true) (step s) = true :=
  ⟨⟨inv_preShifting, inv_preShifted, inv_offering, inv_generating, inv_engine13⟩, by decide⟩

theorem witness_EveryStepKeepsLfsrAnAdvanceOfSeed : LfsrFromSeed generating ∧
    nextWith (fun _ => true) (step generating) = true := ⟨fun _ => ⟨0, rfl⟩, by decide⟩

/-- Two idle states that differ in all their hidden state, and two in a GENERATE that differ in INIT's local register. -/
theorem witness_HiddenStateIsReadOnlyByItsCommand :
    SameButHidden engine13 { engine13 with
      lcmd := 7#32, larg0 := 1#32, larg1 := 2#32, larg2 := 3#32, remain := 4, begun := true, work := 5#32 } ∧
    SameButHidden generating { generating with work := 5#32 } := by decide

theorem witness_OfferedBeatHoldsUntilItTransfers : BlockInv (hostHas [.take none] offering) ∧
    (hostHas [.take none] offering).pnOut = some true ∧ resetsNext (hostHas [.take none] offering) = false ∧
    nextWith (fun _ => true) (step (hostHas [.take none] offering)) = true := ⟨inv_hostHas _ inv_offering, by decide⟩

theorem witness_GenerateWithoutItsBeatsHangs :
    let s := hostHas [.waitIdle, .access (.write 0 4 5#32)] offering
    BlockInv s ∧ s.rstN = true ∧ s.pnOut = some true ∧
    ∀ a ∈ s.host, (∀ x, a ≠ .take x) ∧ (∀ k x, a ≠ .takeCount k x) ∧ a ≠ .rstN false ∧ a ≠ .rstN true :=
  ⟨inv_hostHas _ inv_offering, by decide, by decide, by simp [hostHas]⟩

theorem witness_CommandsNotWaitingComplete : BlockInv preShifting ∧ preShifting.rstN = true ∧ preShifting.busy = true ∧
    preShifting.sched = [] ∧ decode preShifting.lcmd ≠ .ok .generate := ⟨inv_preShifting, by decide⟩

end Sys2Proof.Machine.Tests
end

/-! PROOFS. The state of the block (10_state.md): its invariant, its hidden state, and who writes what. -/

namespace Sys2Proof.Machine

/-! ### The invariant of the block -/

/-- Taking a turn off the schedule is not seen by the invariant. -/
theorem blockInv_afterTurn {s : State} (hi : BlockInv s) : BlockInv (afterTurn s) := hi

/-- The start of a block's turn is not seen by the invariant. -/
theorem blockInv_beginStep {s : State} (hi : BlockInv s) : BlockInv (beginStep s) := by
  unfold beginStep
  split <;> exact hi

/-- What the end of a poll does to the host's actions is not seen by the invariant. -/
theorem blockInv_afterPoll {s : State} (rest : List HostAction) (hi : BlockInv s) : BlockInv (afterPoll rest s) := by
  unfold afterPoll
  split <;> exact hi

/-- With `rst_n` released the invariant is the engine's and the command's. -/
theorem blockInv_of_released {s : State} (hr : s.rstN = true) (he : EngineInv s) (hc : CommandInv s) : BlockInv s :=
  ⟨he, hc, fun h => by simp [hr] at h⟩

/-- With `rst_n` released and no command in progress only the engine's part of the invariant says anything. -/
theorem blockInv_of_idle {s : State} (hr : s.rstN = true) (hb : s.busy = false) (hp : s.pnOut = none)
    (he : EngineInv s) : BlockInv s :=
  blockInv_of_released hr he ⟨fun h => absurd hp h, fun h => by simp [hb] at h⟩

/-- A beat is on offer in no other command than GENERATE. -/
theorem pnOut_eq_none_of_not_generate {s : State} (hc : CommandInv s) (hd : decode s.lcmd ≠ .ok .generate) :
    s.pnOut = none := by
  by_contra hp
  exact hd (hc.1 hp).2.2

/-- A beat is on offer only after the command's checks. -/
theorem pnOut_eq_none_of_not_begun {s : State} (hc : CommandInv s) (hg : s.begun = false) : s.pnOut = none := by
  by_contra hp
  obtain ⟨_, hg', _⟩ := hc.1 hp
  simp [hg] at hg'

/-- A beat is on offer only while a command is in progress. -/
theorem pnOut_eq_none_of_idle {s : State} (hc : CommandInv s) (hb : s.busy = false) : s.pnOut = none := by
  by_contra hp
  obtain ⟨hb', _⟩ := hc.1 hp
  simp [hb] at hb'

/-- An INIT in progress that has passed its checks is in its pre-shift. -/
theorem initRunning_of_inv {s : State} (hc : CommandInv s) (hb : s.busy = true) (hg : s.begun = true)
    (hd : decode s.lcmd = .ok .init) : InitRunning s := by
  rcases hc.2 hb hg with h | ⟨hd', _⟩
  · exact h
  · simp [hd] at hd'

/-- A GENERATE in progress that has passed its checks is in its loop. -/
theorem generateRunning_of_inv {s : State} (hc : CommandInv s) (hb : s.busy = true) (hg : s.begun = true)
    (hd : decode s.lcmd = .ok .generate) : GenerateRunning s := by
  rcases hc.2 hb hg with ⟨hd', _⟩ | h
  · simp [hd] at hd'
  · exact h

/-- INIT's register stays within INIT's order (41_engine.md R126). -/
theorem work_fits_of_initRunning {s : State} (h : InitRunning s) : s.work >>> hsb s.larg0 = 0#32 := by
  obtain ⟨_, _, _, hk, _, hw⟩ := h
  have hk32 : hsb s.larg0 < 32 := hsb_lt _
  rw [hw]
  exact advanceTimes_fits _ _ _ hk (by unfold initPolynomial; omega) _ (clamp_fits _ _ hk32)

/-- INIT enters its pre-shift with the clamped value and no advance done. -/
theorem initRunning_of_start {s : State} (hd : decode s.lcmd = .ok .init) (h0 : s.larg0 ≠ 0#32) (h2 : s.larg2 ≠ 0#32)
    (hk : hsb s.larg0 ≠ 0) :
    InitRunning (enterLoop s.larg1.toNat (setWork (s.larg2 &&& mask (hsb s.larg0)) s)) := by
  refine ⟨hd, h0, h2, Nat.one_le_iff_ne_zero.2 hk, Nat.le_refl _, ?_⟩
  simp [initShift, initPolynomial, initValue]

/-- One more advance of INIT's register is one advance fewer to perform. -/
theorem initRunning_preShift {s : State} (h : InitRunning s) (hm : s.remain ≠ 0) :
    InitRunning (preShift s.larg0 (hsb s.larg0) s) := by
  obtain ⟨hd, h0, h2, hk, hle, hw⟩ := h
  refine ⟨hd, h0, h2, hk, Nat.le_trans (Nat.sub_le _ _) hle, ?_⟩
  have hn : initShift s - (s.remain - 1) = initShift s - s.remain + 1 := by omega
  show advance s.work s.larg0 (hsb s.larg0) = advanceTimes s.larg0 (hsb s.larg0) (initShift s - (s.remain - 1)) _
  rw [hn, advanceTimes_succ, hw]
  rfl

/-- INIT's end constructs an engine that meets R26. -/
theorem engineInv_finishInit {s : State} (h : InitRunning s) : EngineInv (finishInit s) := by
  have hf := work_fits_of_initRunning h
  obtain ⟨_, h0, _, hk, _⟩ := h
  have hord : (finishInit s).order.toNat = hsb s.larg0 := order_toNat_hsb _
  refine ⟨fun _ => ?_, fun hy => by cases hy⟩
  rw [hord]
  exact ⟨h0, hk, rfl, hf, hf⟩

/-- RESET keeps R26: LFSR takes a SEED that fits. -/
theorem engineInv_rewind {s : State} (he : EngineInv s) : EngineInv (rewind s) := by
  refine ⟨fun hy => ?_, fun hy => ?_⟩
  · obtain ⟨h0, h1, hk, _, hseed⟩ := he.1 hy
    exact ⟨h0, h1, hk, hseed, hseed⟩
  · obtain ⟨h0, ho, _, hseed⟩ := he.2 hy
    exact ⟨h0, ho, hseed, hseed⟩

/-- An advance of GENERATE keeps R26: LFSR stays within ORDER bits. -/
theorem engineInv_advanceAndOffer {s : State} (he : EngineInv s) (hy : s.ready = true) :
    EngineInv (advanceAndOffer s) := by
  obtain ⟨h0, h1, hk, hlfsr, hseed⟩ := he.1 hy
  have h32 : s.order.toNat ≤ 32 := by have := s.order.isLt; omega
  exact ⟨fun _ => ⟨h0, h1, hk, advance_fits _ _ _ h1 h32 hlfsr, hseed⟩, fun hn => by simp [hy] at hn⟩

/-- A step of the command in progress keeps the invariant. -/
theorem runCommand_keepsInv {s t : State} (hi : BlockInv s) (hr : s.rstN = true) (hb : s.busy = true)
    (h : runCommand s = .next t) : BlockInv t := by
  obtain ⟨he, hc, -⟩ := id hi
  have notGenerate : ∀ {d}, decode s.lcmd = d → d ≠ .ok .generate → s.pnOut = none :=
    fun hd hn => pnOut_eq_none_of_not_generate hc (by rwa [hd])
  apply runCommand_elim h
  case illegal =>
    rintro ⟨e, hd⟩
    exact blockInv_of_idle hr rfl (notGenerate hd (by simp)) he
  case value =>
    intro i v hd hv
    have hn : i ≠ .generate := by rintro rfl; simp [answersAValue, Instr.opcode] at hv
    exact blockInv_of_idle hr rfl (notGenerate hd (by simpa using hn)) he
  case initFails => exact fun hd _ => blockInv_of_idle hr rfl (notGenerate hd (by simp)) he
  case initStarts =>
    intro hd _ h0 h2 hk
    have hp := notGenerate hd (by simp)
    exact blockInv_of_released hr he ⟨fun h => absurd hp h, fun _ _ => .inl (initRunning_of_start hd h0 h2 hk)⟩
  case initEnds =>
    intro hd hg _
    exact blockInv_of_idle hr rfl (notGenerate hd (by simp)) (engineInv_finishInit (initRunning_of_inv hc hb hg hd))
  case initShifts =>
    intro hd hg hm
    have hp := notGenerate hd (by simp)
    exact blockInv_of_released hr he
      ⟨fun h => absurd hp h, fun _ _ => .inl (initRunning_preShift (initRunning_of_inv hc hb hg hd) hm)⟩
  case resetRuns =>
    intro hd _
    have he' : EngineInv (rewind s) := engineInv_rewind he
    exact blockInv_of_idle hr rfl (notGenerate hd (by simp)) he'
  case resetFails => exact fun hd _ => blockInv_of_idle hr rfl (notGenerate hd (by simp)) he
  case generateFails => exact fun _ hg => blockInv_of_idle hr rfl (pnOut_eq_none_of_not_begun (s := s) hc hg) he
  case generateStarts =>
    intro hd hg hy hn
    have hp := pnOut_eq_none_of_not_begun hc hg
    exact blockInv_of_released hr he ⟨fun h => absurd hp h, fun _ _ => .inr ⟨hd, hy, hn, Nat.le_refl _⟩⟩
  case generateWaits => exact fun _ _ _ => hi
  case generateEnds => exact fun _ _ hp _ => blockInv_of_idle hr rfl hp he
  case generateShifts =>
    intro hd hg _ _
    obtain ⟨_, hy, hn, hle⟩ := generateRunning_of_inv hc hb hg hd
    exact blockInv_of_released hr (engineInv_advanceAndOffer he hy)
      ⟨fun _ => ⟨hb, hg, hd⟩, fun _ _ => .inr ⟨hd, hy, hn, Nat.le_trans (Nat.sub_le _ _) hle⟩⟩

/-- Hardware reset leaves the reset values (10_state.md R39). -/
theorem atResetValues_hardwareReset (level : Bool) (s : State) : AtResetValues (hardwareReset level s) :=
  ⟨rfl, rfl, rfl, rfl, rfl, rfl, rfl, rfl, rfl, rfl, rfl, rfl, rfl⟩

/-- The reset values meet the invariant (10_state.md R27). -/
theorem blockInv_of_atResetValues {s : State} (h : AtResetValues s) : BlockInv s := by
  obtain ⟨hpoly, horder, hlfsr, hseed, hready, _, _, _, _, hbusy, _, _, hpn⟩ := id h
  refine ⟨⟨fun hy => ?_, fun _ => ⟨hpoly, horder, hlfsr, hseed⟩⟩, ⟨fun hp => absurd hpn hp, fun hb => ?_⟩, fun _ => h⟩
  · simp [hready] at hy
  · simp [hbusy] at hb

/-- An acceptance keeps the invariant: the command accepted has not begun, and no beat is on offer. -/
theorem blockInv_accept {s : State} (v : Word) (hi : BlockInv s) (hr : s.rstN = true) (hb : s.busy = false) :
    BlockInv (accept v s) := by
  obtain ⟨he, hc, -⟩ := hi
  have hp := pnOut_eq_none_of_idle hc hb
  exact blockInv_of_released hr he ⟨fun h => absurd hp h, fun _ h => by simp at h⟩

/-- A transfer keeps the invariant: nothing is on offer after it. -/
theorem blockInv_transferBeat {s : State} (b : Bool) (hi : BlockInv s) : BlockInv (transferBeat b s) := by
  obtain ⟨he, hc, hreset⟩ := hi
  refine ⟨he, ⟨fun h => absurd rfl h, hc.2⟩, fun hr => ?_⟩
  obtain ⟨h1, h2, h3, h4, h5, h6, h7, h8, h9, h10, h11, h12, _⟩ := hreset hr
  exact ⟨h1, h2, h3, h4, h5, h6, h7, h8, h9, h10, h11, h12, rfl⟩

/-- The host's turn keeps the invariant. -/
theorem hostTurn_keepsInv {s t : State} (hi : BlockInv s) (h : hostTurn s = .next t) : BlockInv t := by
  obtain ⟨he, hc, -⟩ := id hi
  apply hostTurn_elim h
  case write =>
    intro a off v rest x _ _ _ hr hx
    suffices BlockInv x from this
    rcases hx with rfl | ⟨_, rfl⟩ | ⟨_, rfl⟩ | ⟨_, rfl⟩ | ⟨_, _, rfl⟩ | ⟨_, hb, rfl⟩
    case inl => exact hi
    case inr.inr.inr.inr.inr => exact blockInv_accept v hi hr hb
    all_goals exact blockInv_of_released hr he hc
  case poll => exact fun rest _ _ _ => blockInv_afterPoll rest hi
  case taken => exact fun x rest b v _ _ => blockInv_transferBeat (s := nameResult x v (withHost rest s)) b hi
  case resets => exact fun level rest _ _ => blockInv_of_atResetValues (atResetValues_hardwareReset level _)
  all_goals intros; exact hi

/-- Settles O55: the block's turn and the host's turn each keep the invariant. -/
theorem everyStepKeepsTheInvariant : Obligations.EveryStepKeepsTheInvariant := by
  intro s t hi h
  refine step_elim h BlockInv ?blockIdle ?blockRuns ?host
  case blockIdle => exact fun _ _ => blockInv_afterTurn hi
  case blockRuns =>
    intro _ hr hb h
    exact runCommand_keepsInv (blockInv_beginStep (blockInv_afterTurn hi)) (by simpa using hr) (by simpa using hb) h
  case host => exact fun _ h => hostTurn_keepsInv (blockInv_afterTurn hi) h

/-- Settles O54: the reset values meet the invariant, and READY = 0 asks nothing of LFSR. -/
theorem invariantHoldsAtReset : Obligations.InvariantHoldsAtReset :=
  ⟨blockInv_of_atResetValues (by decide), fun hy => by cases hy⟩

end Sys2Proof.Machine

namespace Sys2Proof.Machine

/-! ### Hidden state (10_state.md R38) -/

theorem sameButHidden_refl (s : State) : SameButHidden s s :=
  ⟨rfl, fun _ => ⟨rfl, rfl, rfl, rfl, rfl⟩, fun _ _ => ⟨rfl, fun _ => rfl⟩⟩

/-- With no command in progress all hidden state may differ. -/
theorem sameButHidden_of_idle {s t : State} (h : withHidden t s = s) (hb : s.busy = false) : SameButHidden s t :=
  ⟨h, fun hb' => by simp [hb] at hb', fun hb' => by simp [hb] at hb'⟩

/-- What depends on no hidden state is the same of two states that differ only in it. -/
theorem eq_of_sameButHidden {α : Type} {s t : State} (h : SameButHidden s t) (f : State → α)
    (hf : f (withHidden t s) = f t) : f t = f s :=
  hf.symm.trans (congrArg f h.1)

/-- `s` with another REMAIN and another local register of INIT: what may differ while a command is in progress. -/
def withLoopState (n : Nat) (r : Word) (s : State) : State := { s with remain := n, work := r }

/-- While a command is in progress, two states that agree on all a rule may read differ at most in REMAIN and INIT's local
register. -/
theorem eq_withLoopState_of_busy {s t : State} (h : SameButHidden s t) (hb : s.busy = true) :
    t = withLoopState t.remain t.work s := by
  obtain ⟨hs, hbusy, -⟩ := h
  obtain ⟨hl, h0, h1, h2, hg⟩ := hbusy hb
  calc t = withHidden (withHidden t s) t := rfl
    _ = withHidden s t := by rw [hs]
    _ = withLoopState t.remain t.work s := by simp only [withHidden, withLoopState, ← hl, ← h0, ← h1, ← h2, ← hg]

/-- In its pre-shift INIT may read all hidden state. -/
theorem eq_of_sameButHidden_init {s t : State} (h : SameButHidden s t) (hb : s.busy = true) (hg : s.begun = true)
    (hd : decode s.lcmd = .ok .init) : t = s := by
  have ht := eq_withLoopState_of_busy h hb
  obtain ⟨hm, hw⟩ := h.2.2 hb hg
  rw [ht, ← hm, ← hw hd]
  rfl

/-- INIT's checks read neither REMAIN nor the local register, and write both where they pass. -/
theorem startInit_withLoopState (n : Nat) (r : Word) (s : State) :
    SameButHidden (startInit s) (startInit (withLoopState n r s)) := by
  have hl : startInit (withLoopState n r s) =
      if initPolynomial s = 0#32 then complete .invalidArgument (withLoopState n r s)
      else if initValue s = 0#32 then complete .invalidArgument (withLoopState n r s)
      else if hsb (initPolynomial s) = 0 then complete .invalidArgument (withLoopState n r s)
      else enterLoop (initShift s) (setWork (initValue s &&& mask (hsb (initPolynomial s))) s) := rfl
  rw [hl]
  unfold startInit
  split
  · exact sameButHidden_of_idle rfl rfl
  · split
    · exact sameButHidden_of_idle rfl rfl
    · split
      · exact sameButHidden_of_idle rfl rfl
      · exact sameButHidden_refl _

/-- GENERATE's checks read neither REMAIN nor the local register, and write REMAIN where they pass. -/
theorem startGenerate_withLoopState (n : Nat) (r : Word) {s : State} (hd : decode s.lcmd = .ok .generate) :
    SameButHidden (startGenerate s) (startGenerate (withLoopState n r s)) := by
  have hl : startGenerate (withLoopState n r s) =
      if s.ready = false then complete .invalidArgument (withLoopState n r s)
      else if generateCount s < 0 then complete .invalidArgument (withLoopState n r s)
      else enterLoop (generateCount s).toNat (withLoopState n r s) := rfl
  rw [hl]
  unfold startGenerate
  split
  · exact sameButHidden_of_idle rfl rfl
  · split
    · exact sameButHidden_of_idle rfl rfl
    · exact ⟨rfl, fun _ => ⟨rfl, rfl, rfl, rfl, rfl⟩, fun _ _ => ⟨rfl, fun hi => by simp [hd] at hi⟩⟩

/-- INIT's next step, from two states that differ only in hidden state it may not read. -/
theorem execInit_sameButHidden {s t : State} (h : SameButHidden s t) (hb : s.busy = true)
    (hd : decode s.lcmd = .ok .init) : SameOutcomeButHidden (execInit s) (execInit t) := by
  cases hg : s.begun with
  | true =>
    rw [eq_of_sameButHidden_init h hb hg hd]
    obtain ⟨u, hu⟩ : ∃ u, execInit s = .next u := exec_next .init s
    rw [hu]
    exact sameButHidden_refl u
  | false =>
    rw [eq_withLoopState_of_busy h hb]
    have hs : ∀ n r, execInit (withLoopState n r s) = .next (startInit (withLoopState n r s)) := by
      intro n r; simp [execInit, withLoopState, hg]
    have hs' : execInit s = .next (startInit s) := by simp [execInit, hg]
    rw [hs, hs']
    exact startInit_withLoopState _ _ _

/-- In GENERATE's loop two states that agree on all a rule may read differ only in INIT's local register. -/
theorem eq_setWork_of_sameButHidden {s t : State} (h : SameButHidden s t) (hb : s.busy = true) (hg : s.begun = true) :
    t = setWork t.work s := by
  have ht := eq_withLoopState_of_busy h hb
  rw [← (h.2.2 hb hg).1] at ht
  exact ht

/-- GENERATE's next step, from two states that differ only in hidden state it may not read. -/
theorem execGenerate_sameButHidden {s t : State} (h : SameButHidden s t) (hb : s.busy = true)
    (hd : decode s.lcmd = .ok .generate) : SameOutcomeButHidden (execGenerate s) (execGenerate t) := by
  cases hg : s.begun with
  | true =>
    have hwork : ∀ {u : State} (w : Word), u.lcmd = s.lcmd → SameButHidden u (setWork w u) := fun w hl =>
      ⟨rfl, fun _ => ⟨rfl, rfl, rfl, rfl, rfl⟩, fun _ _ => ⟨rfl, fun hi => by simp [hl, hd] at hi⟩⟩
    rw [eq_setWork_of_sameButHidden h hb hg]
    unfold execGenerate
    rw [setWork_begun, setWork_pnOut, setWork_remain, if_pos hg, if_pos hg]
    cases s.pnOut with
    | some b => exact hwork (u := s) _ rfl
    | none =>
      by_cases hm : s.remain = 0
      · simp only [hm, if_true]
        exact hwork (u := complete .ok s) _ rfl
      · simp only [hm, if_false]
        exact hwork (u := advanceAndOffer s) _ rfl
  | false =>
    rw [eq_withLoopState_of_busy h hb]
    have hs : ∀ n r, execGenerate (withLoopState n r s) = .next (startGenerate (withLoopState n r s)) := by
      intro n r; simp [execGenerate, withLoopState, hg]
    have hs' : execGenerate s = .next (startGenerate s) := by simp [execGenerate, hg]
    rw [hs, hs']
    exact startGenerate_withLoopState _ _ hd

/-- RESET's step reads no hidden state but the command itself. -/
theorem execReset_sameButHidden (n : Nat) (r : Word) (s : State) :
    SameOutcomeButHidden (execReset s) (execReset (withLoopState n r s)) := by
  have hl : execReset (withLoopState n r s) =
      if s.ready then .next (complete .ok (rewind (withLoopState n r s)))
      else .next (complete .invalidArgument (withLoopState n r s)) := rfl
  rw [hl]
  unfold execReset
  split <;> exact sameButHidden_of_idle rfl rfl

/-- The command in progress takes the same step from two states that differ only in hidden state it may not read. -/
theorem runCommand_sameButHidden {s t : State} (h : SameButHidden s t) (hb : s.busy = true) :
    SameOutcomeButHidden (runCommand s) (runCommand t) := by
  have ht := eq_withLoopState_of_busy h hb
  have hl : t.lcmd = s.lcmd := by rw [ht]; rfl
  unfold runCommand
  rw [hl]
  split
  · rename_i i hd
    cases i
    case init => exact execInit_sameButHidden h hb hd
    case generate => exact execGenerate_sameButHidden h hb hd
    case reset => rw [ht]; exact execReset_sameButHidden _ _ _
    all_goals rw [ht]; exact sameButHidden_of_idle rfl rfl
  · rw [ht]; exact sameButHidden_of_idle rfl rfl

/-! The host's operations write no hidden state, so they keep two states related. -/

theorem progress_sameButHidden {s t : State} (h : SameButHidden s t) : SameButHidden (progress s) (progress t) :=
  ⟨congrArg progress h.1, h.2⟩

theorem respond_sameButHidden {s t : State} (h : SameButHidden s t) (r : Response) :
    SameButHidden (respond r s) (respond r t) :=
  ⟨congrArg (respond r) h.1, h.2⟩

theorem withHost_sameButHidden {s t : State} (h : SameButHidden s t) (rest : List HostAction) :
    SameButHidden (withHost rest s) (withHost rest t) :=
  ⟨congrArg (withHost rest) h.1, h.2⟩

theorem nameResult_sameButHidden {s t : State} (h : SameButHidden s t) (x : Option String) (v : Named) :
    SameButHidden (nameResult x v s) (nameResult x v t) :=
  ⟨congrArg (nameResult x v) h.1, h.2⟩

theorem transferBeat_sameButHidden {s t : State} (h : SameButHidden s t) (b : Bool) :
    SameButHidden (transferBeat b s) (transferBeat b t) :=
  ⟨congrArg (transferBeat b) h.1, h.2⟩

/-- An acceptance latches the same word and arguments whatever was latched before. -/
theorem accept_sameButHidden {s t : State} (h : SameButHidden s t) (v : Word) :
    SameButHidden (accept v s) (accept v t) := by
  have h0 : t.arg0 = s.arg0 := eq_of_sameButHidden h State.arg0 rfl
  have h1 : t.arg1 = s.arg1 := eq_of_sameButHidden h State.arg1 rfl
  have h2 : t.arg2 = s.arg2 := eq_of_sameButHidden h State.arg2 rfl
  have hs : withHidden (accept v t) (accept v s) = accept v s :=
    calc withHidden (accept v t) (accept v s) = withHidden (accept v (withHidden t s)) (accept v s) := rfl
      _ = accept v s := by rw [h.1]; rfl
  exact ⟨hs, fun _ => ⟨rfl, h0.symm, h1.symm, h2.symm, rfl⟩, fun _ hg => by simp at hg⟩

/-- A legal write does the same to two states that differ only in hidden state no rule may read. -/
theorem busWrite_sameButHidden {s t : State} (h : SameButHidden s t) (off : Nat) (v : Word) :
    SameButHidden (busWrite off v s) (busWrite off v t) := by
  suffices SameButHidden (writeWindow off v s) (writeWindow off v t) from
    respond_sameButHidden (progress_sameButHidden this) .ack
  have hb : t.busy = s.busy := eq_of_sameButHidden h State.busy rfl
  unfold writeWindow
  split
  case h_1 =>
    unfold writeCmd
    rw [hb]
    split
    · exact ⟨congrArg dropCommand h.1, h.2⟩
    · exact accept_sameButHidden h v
  case h_2 => exact ⟨congrArg (setArg0 v) h.1, h.2⟩
  case h_3 => exact ⟨congrArg (setArg1 v) h.1, h.2⟩
  case h_4 => exact ⟨congrArg (setArg2 v) h.1, h.2⟩
  all_goals exact h

/-- A `RD` names the same data in both states. -/
theorem nameRead_sameButHidden {s t : State} (h : SameButHidden s t) (reg : WindowReg) (x : String) :
    SameButHidden (nameRead reg x s) (nameRead reg x t) := by
  have hw : readWindow (regOffset reg).val t = readWindow (regOffset reg).val s :=
    eq_of_sameButHidden h (readWindow (regOffset reg).val) rfl
  unfold nameRead
  rw [hw]
  exact nameResult_sameButHidden h _ _

/-- A `TAKE` takes the same number of beats in both states. -/
theorem startTake_sameButHidden {s t : State} (h : SameButHidden s t) (k : Count) (x : String)
    (rest : List HostAction) : SameButHidden (startTake k x rest s) (startTake k x rest t) := by
  have hk : countOf k t = countOf k s := eq_of_sameButHidden h (countOf k) rfl
  unfold startTake
  rw [hk]
  exact nameResult_sameButHidden (withHost_sameButHidden h _) _ _

/-- A legal read returns the same data in both states. -/
theorem busRead_sameButHidden {s t : State} (h : SameButHidden s t) (off : Nat) :
    SameButHidden (busRead off s) (busRead off t) := by
  have hw : readWindow off t = readWindow off s := eq_of_sameButHidden h (readWindow off) rfl
  unfold busRead
  rw [hw]
  exact respond_sameButHidden h _

/-- A bus access does the same to two states that differ only in hidden state no rule may read. -/
theorem busAccess_sameButHidden {s t : State} (h : SameButHidden s t) (a : Access) :
    SameOutcomeButHidden (busAccess a s) (busAccess a t) := by
  have hr : t.rstN = s.rstN := eq_of_sameButHidden h State.rstN rfl
  have herror : SameButHidden (respond .error s) (respond .error t) :=
    respond_sameButHidden h .error
  unfold busAccess
  rw [hr]
  split
  case h_1 off width =>
    split
    · split
      · exact busRead_sameButHidden h off.val
      · rfl
    · exact herror
  case h_2 off width v =>
    split
    · split
      · exact busWrite_sameButHidden h off.val v
      · rfl
    · exact herror

/-- Whether a poll is over depends on BUSY, on no hidden state. -/
theorem afterPoll_sameButHidden {s t : State} (h : SameButHidden s t) (rest : List HostAction) :
    SameButHidden (afterPoll rest s) (afterPoll rest t) := by
  have hb : t.busy = s.busy := eq_of_sameButHidden h State.busy rfl
  unfold afterPoll
  rw [hb]
  split
  · exact h
  · exact withHost_sameButHidden h rest

/-- Taking a beat reads no hidden state. -/
theorem takeBeat_sameButHidden {s t : State} (h : SameButHidden s t) (x : Option String) (rest : List HostAction) :
    SameButHidden (takeBeat s x rest) (takeBeat t x rest) := by
  have hp : t.pnOut = s.pnOut := eq_of_sameButHidden h State.pnOut rfl
  have hbits : bitsSoFar x t = bitsSoFar x s := eq_of_sameButHidden h (bitsSoFar x) rfl
  unfold takeBeat
  rw [hp, hbits]
  cases s.pnOut with
  | some b =>
    exact progress_sameButHidden
      (transferBeat_sameButHidden (nameResult_sameButHidden (withHost_sameButHidden h rest) x _) b)
  | none => exact h

/-- Driving `rst_n` reads no hidden state. -/
theorem driveRstN_sameButHidden {s t : State} (h : SameButHidden s t) (level : Bool) :
    SameButHidden (driveRstN level s) (driveRstN level t) := by
  have hr : t.rstN = s.rstN := eq_of_sameButHidden h State.rstN rfl
  unfold driveRstN
  rw [hr]
  split
  · exact h
  · exact sameButHidden_of_idle (congrArg (hardwareReset level) h.1) rfl

/-- The host's turn reads no hidden state. -/
theorem hostTurn_sameButHidden {s t : State} (h : SameButHidden s t) :
    SameOutcomeButHidden (hostTurn s) (hostTurn t) := by
  have hh : t.host = s.host := eq_of_sameButHidden h State.host rfl
  have hrest := withHost_sameButHidden h
  unfold hostTurn
  rw [hh]
  split
  case h_1 => exact h
  case h_2 a rest _ => exact busAccess_sameButHidden (hrest rest) a
  case h_3 reg x rest _ => exact busAccess_sameButHidden (nameRead_sameButHidden (hrest rest) reg x) _
  case h_4 reg x rest _ =>
    have hw : namedWord x (withHost rest t) = namedWord x (withHost rest s) :=
      eq_of_sameButHidden (hrest rest) (namedWord x) rfl
    unfold writeNamed
    rw [hw]
    exact busAccess_sameButHidden (hrest rest) _
  case h_5 rest _ => exact busAccess_sameButHidden (afterPoll_sameButHidden h rest) _
  case h_6 k x rest _ => exact startTake_sameButHidden h k x rest
  case h_7 x rest _ => exact takeBeat_sameButHidden h x rest
  case h_8 level rest _ => exact driveRstN_sameButHidden (hrest rest) level

/-- The start of a block's turn reads no hidden state. -/
theorem beginStep_sameButHidden {s t : State} (h : SameButHidden s t) : SameButHidden (beginStep s) (beginStep t) := by
  have hp : t.pnOut = s.pnOut := eq_of_sameButHidden h State.pnOut rfl
  unfold beginStep
  rw [hp]
  split
  · exact h
  · exact progress_sameButHidden h

/-- The block's turn reads no hidden state that the command in progress may not read. -/
theorem blockTurn_sameButHidden {s t : State} (h : SameButHidden s t) :
    SameOutcomeButHidden (blockTurn s) (blockTurn t) := by
  have hr : t.rstN = s.rstN := eq_of_sameButHidden h State.rstN rfl
  have hb : t.busy = s.busy := eq_of_sameButHidden h State.busy rfl
  unfold blockTurn
  rw [hr, hb]
  split
  · rename_i hrun
    rw [Bool.and_eq_true] at hrun
    exact runCommand_sameButHidden (beginStep_sameButHidden h) (by simpa using hrun.2)
  · exact h

/-- Settles O57: the same agent moves in both states, and neither agent reads what may differ. -/
theorem hiddenStateIsReadOnlyByItsCommand : Obligations.HiddenStateIsReadOnlyByItsCommand := by
  intro s t h
  have ha : nextAgent t = nextAgent s := eq_of_sameButHidden h nextAgent rfl
  have hturn : SameButHidden (afterTurn s) (afterTurn t) := ⟨congrArg afterTurn h.1, h.2⟩
  cases hs : nextAgent s with
  | block =>
    rw [step_block hs, step_block (ha.trans hs)]
    exact blockTurn_sameButHidden hturn
  | host =>
    rw [step_host hs, step_host (ha.trans hs)]
    exact hostTurn_sameButHidden hturn

end Sys2Proof.Machine

namespace Sys2Proof.Machine

/-! ### Hardware reset, reads and legal writes as steps -/

/-- A step that is a hardware reset is the host's, and resets whatever is going on (70_reset_and_hazards.md R180). -/
theorem step_of_resetsNext {s : State} (h : resetsNext s = true) :
    ∃ level rest, s.host = .rstN level :: rest ∧
      step s = .next (hardwareReset level (withHost rest (afterTurn s))) := by
  unfold resetsNext at h
  rw [Bool.and_eq_true, beq_iff_eq] at h
  obtain ⟨ha, h⟩ := h
  split at h
  case h_1 level rest hh =>
    refine ⟨level, rest, hh, ?_⟩
    rw [step_host ha, hostTurn, afterTurn_host, hh]
    show Host.Outcome.next (driveRstN level _) = _
    rcases driveRstN_cases level (withHost rest (afterTurn s)) with ⟨hl, hr, -⟩ | ⟨-, he⟩
    · rw [withHost_rstN, afterTurn_rstN] at hr
      simp [hl, hr] at h
    · rw [he]
  case h_2 => cases h

/-- Settles O52: by what a hardware reset step is. -/
theorem hardwareResetLeavesTheResetValues : Obligations.HardwareResetLeavesTheResetValues := by
  refine ⟨fun s h => ?_, by decide, rfl⟩
  obtain ⟨level, rest, hh, hs⟩ := step_of_resetsNext h
  exact ⟨_, hs, atResetValues_hardwareReset _ _, rfl, rfl, rfl, by rw [hh]; rfl⟩

theorem busAccess_legalRead {s : State} {off : Fin 64} (hl : legalAccess off.val 4 = true) (hr : s.rstN = true) :
    busAccess (.read off 4) s = .next (busRead off.val s) := by
  simp [busAccess, hl, hr]

theorem busAccess_legalWrite {s : State} {off : Fin 64} {width : Nat} (hl : legalAccess off.val width = true)
    (hr : s.rstN = true) (v : Word) : busAccess (.write off width v) s = .next (busWrite off.val v s) := by
  simp [busAccess, hl, hr]

/-- A legal read hands the register's data to the host, and names it if it is to be named (20_memory.md R53). -/
theorem step_read {s : State} {a : HostAction} {off : Fin 64} {x : Option String} {rest : List HostAction}
    (h : HostActs s a rest) (ha : IsRead a off x) (hoff : off.val % 4 = 0) :
    step s = .next { afterTurn s with
      host := rest, responses := s.responses ++ [.data (readWindow off.val s)],
      names := namesAfter x (.word (readWindow off.val s)) s.names } := by
  obtain ⟨hn, hh, hr⟩ := h
  have hl : legalAccess off.val 4 = true := by simp [legalAccess, hoff]
  rw [step_host hn, hostTurn, afterTurn_host, hh]
  rcases ha with ⟨rfl, rfl⟩ | ⟨reg, n, rfl, rfl, rfl⟩
  · show busAccess (.read off 4) (withHost rest (afterTurn s)) = _
    rw [busAccess_legalRead hl (by simpa using hr)]
    rfl
  · show busAccess (.read (regOffset reg) 4) (nameRead reg n (withHost rest (afterTurn s))) = _
    rw [busAccess_legalRead hl (by simpa [nameRead] using hr)]
    rfl

/-- The offsets from 0x28 on are reserved (10_state.md R30). -/
theorem regAt_of_reserved {off : Nat} (h : 0x28 ≤ off) : regAt off = .reserved := by
  unfold regAt
  split
  case h_11 => rfl
  all_goals omega

/-- The number that STATUS reads as, by the weights of its fields (10_state.md R34). -/
theorem statusFields_toNat : ∀ (c : BitVec 2) (b y o : Bool),
    (statusFields c b y o).toNat = c.toNat + 16 * b.toNat + 32 * y.toNat + 64 * o.toNat := by
  decide

/-- While BUSY = 0 a read of a view returns the register itself. -/
theorem exactWhenIdle_of_idle {s : State} (hb : s.busy = false) (off : Nat) (v : Word) : exactWhenIdle off v s = v := by
  simp [exactWhenIdle, hb]

/-- While BUSY = 0 a read of STATUS returns the STATUS word. -/
theorem readStatus_of_idle {s : State} (hb : s.busy = false) (off : Nat) : readStatus off s = statusWord s := by
  simp [readStatus, hb]

/-- Settles O40: the read of each offset, one register at a time. -/
theorem idleReadsReturnTheRegisters : Obligations.IdleReadsReturnTheRegisters := by
  intro s a off x rest h ha hb hoff
  have hv := exactWhenIdle_of_idle hb
  refine ⟨readWindow off.val s, step_read h ha hoff, ?_, ?_, ?_, ?_, ?status, ?_, ?_, ?order, ?_, ?_, ?reserved⟩
  case status =>
    intro ho
    rw [ho, readWindow, regAt, readStatus_of_idle hb, statusWord, statusFields_toNat, hb]
    simp
  case order =>
    intro ho
    have := s.order.isLt
    simp [readWindow, regAt, ho, hv]
    omega
  case reserved => intro ho; simp [readWindow, regAt_of_reserved ho]
  all_goals intro ho; simp [readWindow, regAt, ho, hv]

/-- A write of the host that is next, and to which register. -/
theorem writesNext_of_isWrite {s : State} {a : HostAction} {off : Fin 64} {v : Word} {rest : List HostAction}
    {reg : WindowReg} (h : HostActs s a rest) (hw : IsWrite (afterTurn s) a off v) (hl : legalAccess off.val 4 = true)
    (hq : regAt off.val = reg) : writesNext reg s = true := by
  obtain ⟨hn, hh, hr⟩ := h
  rcases hw with rfl | ⟨r, n, rfl, rfl, _⟩
  · simp [writesNext, hn, hh, hr, hl, hq]
  · simp [writesNext, hn, hh, hr, ← hq]

/-- A step that is a legal write performs it. -/
theorem step_of_writesNext {s : State} {reg : WindowReg} (h : writesNext reg s = true) :
    ∃ off v rest, regAt off = reg ∧ step s = .next (busWrite off v (withHost rest (afterTurn s))) := by
  unfold writesNext at h
  rw [Bool.and_eq_true, Bool.and_eq_true, beq_iff_eq] at h
  obtain ⟨⟨hn, hr⟩, h⟩ := h
  split at h
  case h_1 off width v rest hh =>
    rw [Bool.and_eq_true, beq_iff_eq] at h
    refine ⟨off.val, v, rest, h.2, ?_⟩
    rw [step_host hn, hostTurn, afterTurn_host, hh]
    exact busAccess_legalWrite h.1 (by simpa using hr) v
  case h_2 r x rest hh =>
    obtain rfl : r = reg := by simpa using h
    refine ⟨(regOffset r).val, namedWord x (withHost rest (afterTurn s)), rest, regAt_regOffset r, ?_⟩
    rw [step_host hn, hostTurn, afterTurn_host, hh]
    exact busAccess_legalWrite (legalAccess_regOffset r) (by simpa using hr) _
  case h_3 => cases h

end Sys2Proof.Machine

namespace Sys2Proof.Machine

/-! ### Who writes what -/

/-- What a step keeps that is no hardware reset and no step of the command in progress: the engine, RESULT and CODE, and with
no legal write to their register the ARG registers, BUSY and OVR. -/
structure KeptButForWrites (s t : State) : Prop where
  engine : SameEngine s t
  result : t.result = s.result
  code : t.code = s.code
  arg0 : writesNext .arg0 s = false → t.arg0 = s.arg0
  arg1 : writesNext .arg1 s = false → t.arg1 = s.arg1
  arg2 : writesNext .arg2 s = false → t.arg2 = s.arg2
  busy : writesNext .cmd s = false → t.busy = s.busy
  ovr : writesNext .cmd s = false → t.ovr = s.ovr

/-- Where a hardware reset step leads. -/
theorem eq_hardwareReset_of_resetsNext {s t : State} (hr : resetsNext s = true) (h : step s = .next t) :
    ∃ level rest, t = hardwareReset level (withHost rest (afterTurn s)) := by
  obtain ⟨level, rest, -, hs⟩ := step_of_resetsNext hr
  rw [hs] at h
  injection h with h
  exact ⟨level, rest, h.symm⟩

/-- Where a step leads that is a legal write. -/
theorem eq_busWrite_of_writesNext {s t : State} {reg : WindowReg} (hw : writesNext reg s = true)
    (h : step s = .next t) : ∃ off v rest, regAt off = reg ∧ t = busWrite off v (withHost rest (afterTurn s)) := by
  obtain ⟨off, v, rest, hq, hs⟩ := step_of_writesNext hw
  rw [hs] at h
  injection h with h
  exact ⟨off, v, rest, hq, h.symm⟩

/-- What a turn keeps unless it writes the register `reg` has changed only by a write to it. -/
theorem writesNext_of_ne {α : Type} {a b : α} {reg : WindowReg} {s : State} (hk : writesNext reg s = false → a = b)
    (hne : a ≠ b) : writesNext reg s = true := by
  by_contra hw
  exact hne (hk (by simpa using hw))

/-- A host's turn that is no hardware reset gives `rst_n` no edge (70_reset_and_hazards.md R180). -/
theorem no_edge_of_resetsNext_false {s : State} {level : Bool} {rest : List HostAction} (ha : nextAgent s = .host)
    (hr : resetsNext s = false) (hh : (afterTurn s).host = .rstN level :: rest) :
    (level && (afterTurn s).rstN) ≠ false := by
  have hn := (resetsNext_eq_false_iff ha (by simpa using hh)).1 hr
  simpa using hn

/-- The host's turn, short of hardware reset, writes registers only by legal writes to them. -/
theorem hostTurn_keptButForWrites {s t : State} (ha : nextAgent s = .host) (hr : resetsNext s = false)
    (h : hostTurn (afterTurn s) = .next t) : KeptButForWrites s t := by
  apply hostTurn_elim h
  case write =>
    intro a off v rest x hh hw hl hrst hx
    have hwn : writesNext (regAt off.val) s = true :=
      writesNext_of_isWrite ⟨ha, by simpa using hh, by simpa using hrst⟩ hw hl rfl
    rcases hx with rfl | ⟨hq, rfl⟩ | ⟨hq, rfl⟩ | ⟨hq, rfl⟩ | ⟨hq, _, rfl⟩ | ⟨hq, _, rfl⟩
    case inl => constructor <;> simp [SameEngine]
    all_goals
      rw [hq] at hwn
      constructor <;> simp [SameEngine, hwn]
  case resets => exact fun level rest hh hl => (no_edge_of_resetsNext_false ha hr hh hl).elim
  all_goals
    intros
    constructor <;> simp [SameEngine, startTake]

/-- A step that is no hardware reset keeps the registers but for legal writes, or is a step of the command in progress. -/
theorem step_keptButForWrites_or_runs {s t : State} (hr : resetsNext s = false) (h : step s = .next t) :
    KeptButForWrites s t ∨ (BlockRuns s ∧ runCommand (beginStep (afterTurn s)) = .next t) := by
  rcases step_cases h with ⟨ha, h⟩ | ⟨ha, h⟩
  · rcases blockTurn_cases h with ⟨_, rfl⟩ | ⟨hrst, hb, h⟩
    · exact .inl (by constructor <;> simp [SameEngine])
    · exact .inr ⟨⟨ha, hrst, hb⟩, h⟩
  · exact .inl (hostTurn_keptButForWrites ha hr h)

/-- What a step of the command in progress does to the engine: nothing, but for INIT's end, a RESET with READY = 1, and an
advance of GENERATE. -/
theorem runCommand_engine_cases {s t : State} (h : runCommand s = .next t) :
    SameEngine s t ∨ (decode s.lcmd = .ok .init ∧ t = finishInit s) ∨
    (decode s.lcmd = .ok .reset ∧ t = complete .ok (rewind s)) ∨
    (decode s.lcmd = .ok .generate ∧ s.begun = true ∧ t = advanceAndOffer s) := by
  apply runCommand_elim h
  case initEnds => exact fun hd _ _ => .inr (.inl ⟨hd, rfl⟩)
  case resetRuns => exact fun hd _ => .inr (.inr (.inl ⟨hd, rfl⟩))
  case generateShifts => exact fun hd hg _ _ => .inr (.inr (.inr ⟨hd, hg, rfl⟩))
  all_goals intros; exact .inl ⟨rfl, rfl, rfl, rfl, rfl⟩

/-- A step of the command in progress keeps the ARG registers and OVR. -/
theorem runCommand_keepsArgs {s t : State} (h : runCommand s = .next t) :
    t.arg0 = s.arg0 ∧ t.arg1 = s.arg1 ∧ t.arg2 = s.arg2 ∧ t.ovr = s.ovr := by
  apply runCommand_elim h
  all_goals intros; exact ⟨rfl, rfl, rfl, rfl⟩

/-- A step of the command in progress keeps RESULT, or is that of a command that returns a value. -/
theorem runCommand_result_cases {s t : State} (h : runCommand s = .next t) :
    t.result = s.result ∨ ∃ i v, decode s.lcmd = .ok i ∧ answersAValue i ∧ t = returnValue v s := by
  apply runCommand_elim h
  case value => exact fun i v hd hv => .inr ⟨i, v, hd, hv, rfl⟩
  all_goals intros; exact .inl rfl

/-- A step of the command in progress completes it or keeps CODE. -/
theorem runCommand_code_cases {s t : State} (h : runCommand s = .next t) : t.code = s.code ∨ t.busy = false := by
  apply runCommand_elim h
  case initStarts => exact fun _ _ _ _ _ => .inl rfl
  case initShifts => exact fun _ _ _ => .inl rfl
  case generateStarts => exact fun _ _ _ _ => .inl rfl
  case generateWaits => exact fun _ _ _ => .inl rfl
  case generateShifts => exact fun _ _ _ _ => .inl rfl
  all_goals intros; exact .inr rfl

/-- A change of POLY, ORDER, SEED or READY is INIT's end. -/
theorem finishInit_of_construction_ne {s t : State} (h : runCommand s = .next t)
    (hne : t.poly ≠ s.poly ∨ t.order ≠ s.order ∨ t.seed ≠ s.seed ∨ t.ready ≠ s.ready) :
    decode s.lcmd = .ok .init ∧ t = finishInit s := by
  rcases runCommand_engine_cases h with ⟨h1, h2, _, h4, h5⟩ | hinit | ⟨_, rfl⟩ | ⟨_, _, rfl⟩
  · simp [h1, h2, h4, h5] at hne
  · exact hinit
  · simp at hne
  · simp at hne

/-- Settles O48: the writers of the engine state in the command in progress, those of the ARG registers in the host. -/
theorem engineStateHasOnlyItsWriters : Obligations.EngineStateHasOnlyItsWriters := by
  intro s t hr h
  rcases step_keptButForWrites_or_runs hr h with hk | ⟨hruns, h⟩
  · obtain ⟨hpoly, horder, hlfsr, hseed, -⟩ := hk.engine
    exact ⟨fun hne => by simp [hpoly, horder, hseed] at hne, fun hne => absurd hlfsr hne,
      writesNext_of_ne hk.arg0, writesNext_of_ne hk.arg1, writesNext_of_ne hk.arg2⟩
  · obtain ⟨harg0, harg1, harg2, -⟩ := runCommand_keepsArgs h
    simp only [beginStep_arg0, beginStep_arg1, beginStep_arg2, afterTurn_arg0, afterTurn_arg1, afterTurn_arg2]
      at harg0 harg1 harg2
    refine ⟨fun hne => ?_, fun hne => ?_, fun hne => absurd harg0 hne, fun hne => absurd harg1 hne,
      fun hne => absurd harg2 hne⟩
    · obtain ⟨hd, rfl⟩ := finishInit_of_construction_ne h (by simpa [or_assoc] using hne.imp_right (.imp_right .inl))
      exact ⟨hruns, by simpa using hd, rfl, rfl⟩
    · refine ⟨hruns, ?_⟩
      rcases runCommand_engine_cases h with ⟨_, _, hlfsr, _⟩ | ⟨hd, rfl⟩ | ⟨hd, rfl⟩ | ⟨hd, hg, rfl⟩
      · exact absurd (by simpa using hlfsr) hne
      · exact .inl ⟨by simpa using hd, rfl, rfl⟩
      · exact .inr (.inl ⟨by simpa using hd, rfl, rfl⟩)
      · exact .inr (.inr ⟨by simpa using hd, by simpa using hg⟩)

/-- Settles O49: hardware reset, and the commands that return a value. -/
theorem resultHasOnlyItsWriters : Obligations.ResultHasOnlyItsWriters := by
  intro s t h hne
  cases hr : resetsNext s with
  | true =>
    obtain ⟨level, rest, rfl⟩ := eq_hardwareReset_of_resetsNext hr h
    exact .inl ⟨rfl, rfl⟩
  | false =>
    rcases step_keptButForWrites_or_runs hr h with hk | ⟨hruns, h⟩
    · exact absurd hk.result hne
    · rcases runCommand_result_cases h with he | ⟨i, v, hd, hv, rfl⟩
      · exact absurd (by simpa using he) hne
      · exact .inr ⟨hruns, rfl, rfl, i, by simpa using hd, hv⟩

/-- The fields of a STATUS word stand where R34 places them. -/
theorem statusFields_places : ∀ (c : BitVec 2) (b y o : Bool),
    (statusFields c b y o).extractLsb' 0 2 = c ∧ (statusFields c b y o).extractLsb' 2 2 = 0#2 ∧
    (statusFields c b y o).getLsbD 4 = b ∧ (statusFields c b y o).getLsbD 5 = y ∧
    (statusFields c b y o).getLsbD 6 = o ∧ statusFields c b y o >>> 7 = 0#32 := by
  decide

/-- A legal CMD write leaves BUSY = 1, and OVR as BUSY was (20_memory.md R58, R59). -/
theorem busWrite_cmd {off : Nat} (hq : regAt off = .cmd) (v : Word) (s : State) :
    (busWrite off v s).busy = true ∧ (busWrite off v s).ovr = s.busy := by
  cases hb : s.busy <;> simp [busWrite, writeWindow, writeCmd, hq, hb]

/-- A legal write to STATUS keeps it (20_memory.md R54). -/
theorem busWrite_status {off : Nat} (hq : regAt off = .status) (v : Word) (s : State) :
    statusWord (busWrite off v s) = statusWord s := by
  simp [busWrite, writeWindow, statusWord, hq]

/-- A step that writes CMD leaves BUSY = 1, and OVR as BUSY was. -/
theorem step_writesCmd {s t : State} (hw : writesNext .cmd s = true) (h : step s = .next t) :
    t.busy = true ∧ t.ovr = s.busy := by
  obtain ⟨off, v, rest, hq, rfl⟩ := eq_busWrite_of_writesNext hw h
  simpa using busWrite_cmd hq v (withHost rest (afterTurn s))

/-- A step that writes STATUS keeps it. -/
theorem step_writesStatus {s t : State} (hw : writesNext .status s = true) (h : step s = .next t) :
    statusWord t = statusWord s := by
  obtain ⟨off, v, rest, hq, rfl⟩ := eq_busWrite_of_writesNext hw h
  exact busWrite_status hq v (withHost rest (afterTurn s))

/-- A hardware reset leaves STATUS 0. -/
theorem statusWord_of_resetsNext {s t : State} (hr : resetsNext s = true) (h : step s = .next t) :
    statusWord t = 0#32 := by
  obtain ⟨level, rest, rfl⟩ := eq_hardwareReset_of_resetsNext hr h
  have hz : statusFields (codeBits .ok) false false false = 0#32 := by decide
  exact hz

/-- Settles O50: the places of the fields, then each field's writers. -/
theorem statusFieldsAndTheirWriters : Obligations.StatusFieldsAndTheirWriters := by
  refine ⟨fun s => statusFields_places _ _ _ _, ⟨rfl, rfl, rfl, fun c => by cases c <;> decide⟩,
    fun s t => statusWord_of_resetsNext, fun s t hr h => ?_⟩
  refine ⟨fun hne => ?code, fun hne => ?busy, fun hne => ?ready, fun hne => ?ovr, fun hw => step_writesCmd hw h,
    fun hw => step_writesStatus hw h⟩
  case code =>
    rcases step_keptButForWrites_or_runs hr h with hk | ⟨hruns, h⟩
    · exact absurd hk.code hne
    · rcases runCommand_code_cases h with he | hb
      · exact absurd (by simpa using he) hne
      · exact ⟨hruns, hb⟩
  case busy =>
    rcases step_keptButForWrites_or_runs hr h with hk | ⟨hruns, -⟩
    · have hw := writesNext_of_ne hk.busy hne
      obtain ⟨hb, -⟩ := step_writesCmd hw h
      exact .inl ⟨by simpa [hb] using hne, hw⟩
    · exact .inr ⟨hruns.2.2, hruns⟩
  case ready =>
    rcases step_keptButForWrites_or_runs hr h with hk | ⟨hruns, h⟩
    · obtain ⟨-, -, -, -, hready⟩ := hk.engine
      exact absurd hready hne
    · obtain ⟨hd, rfl⟩ := finishInit_of_construction_ne h (.inr (.inr (.inr (by simpa using hne))))
      exact ⟨rfl, hruns, by simpa using hd, rfl, rfl⟩
  case ovr =>
    rcases step_keptButForWrites_or_runs hr h with hk | ⟨-, h⟩
    · have hw := writesNext_of_ne hk.ovr hne
      exact ⟨hw, (step_writesCmd hw h).2⟩
    · obtain ⟨-, -, -, hovr⟩ := runCommand_keepsArgs h
      exact absurd (by simpa using hovr) hne

/-! ### LFSR after SEED, and the beat on offer -/

/-- A step that keeps the engine keeps LFSR an advance of SEED. -/
theorem lfsrFromSeed_of_sameEngine {s t : State} (he : SameEngine s t) (h : LfsrFromSeed s) : LfsrFromSeed t := by
  obtain ⟨hpoly, horder, hlfsr, hseed, hready⟩ := he
  unfold LfsrFromSeed
  rwa [hpoly, horder, hlfsr, hseed, hready]

/-- One advance of GENERATE is one advance more after SEED. -/
theorem lfsrFromSeed_advanceAndOffer {s : State} (h : LfsrFromSeed s) : LfsrFromSeed (advanceAndOffer s) := by
  intro hy
  obtain ⟨n, hn⟩ := h hy
  refine ⟨n + 1, ?_⟩
  show advance s.lfsr s.poly s.order.toNat = advanceTimes s.poly s.order.toNat (n + 1) s.seed
  rw [advanceTimes_succ, ← hn]

/-- A step of the command in progress keeps LFSR an advance of SEED. -/
theorem runCommand_keepsLfsrFromSeed {s t : State} (hi : LfsrFromSeed s) (h : runCommand s = .next t) :
    LfsrFromSeed t := by
  rcases runCommand_engine_cases h with he | ⟨-, rfl⟩ | ⟨-, rfl⟩ | ⟨-, -, rfl⟩
  · exact lfsrFromSeed_of_sameEngine he hi
  · exact fun _ => ⟨0, rfl⟩
  · exact fun _ => ⟨0, rfl⟩
  · exact lfsrFromSeed_advanceAndOffer hi

/-- Settles O56: hardware reset makes READY 0, INIT and RESET set LFSR to SEED, and GENERATE advances it. -/
theorem everyStepKeepsLfsrAnAdvanceOfSeed : Obligations.EveryStepKeepsLfsrAnAdvanceOfSeed := by
  intro s t hi h
  cases hr : resetsNext s with
  | true =>
    obtain ⟨level, rest, rfl⟩ := eq_hardwareReset_of_resetsNext hr h
    exact fun hy => by cases hy
  | false =>
    rcases step_keptButForWrites_or_runs hr h with hk | ⟨-, h⟩
    · exact lfsrFromSeed_of_sameEngine hk.engine hi
    · exact runCommand_keepsLfsrFromSeed (lfsrFromSeed_of_sameEngine (by simp [SameEngine]) hi) h

/-- The beat `b`, on offer in `s`, is still on offer in `t`, or it has just transferred to a host that takes it. -/
def BeatHoldsOrTransfers (s : State) (b : Bool) (t : State) : Prop :=
  (t.pnOut = some b ∧ t.taken = s.taken ∧ t.lfsr = s.lfsr ∧ t.busy = true) ∨
  (t.pnOut = none ∧ t.taken = s.taken ++ [b] ∧ t.lfsr = s.lfsr ∧ t.busy = true ∧ ∃ x, s.host.head? = some (.take x))

/-- The host's turn, short of hardware reset, touches a beat on offer only by taking it. -/
theorem hostTurn_beatHoldsOrTransfers {s t : State} {b : Bool} (ha : nextAgent s = .host) (hr : resetsNext s = false)
    (hb : s.busy = true) (hp : s.pnOut = some b) (h : hostTurn (afterTurn s) = .next t) :
    BeatHoldsOrTransfers s b t := by
  apply hostTurn_elim h
  case taken =>
    intro x rest b' v hh hp'
    obtain rfl : b = b' := by simpa [hp] using hp'
    rw [afterTurn_host] at hh
    exact .inr (by simp [hb, hh])
  case write =>
    rintro a off v rest x - - - - (rfl | ⟨-, rfl⟩ | ⟨-, rfl⟩ | ⟨-, rfl⟩ | ⟨-, -, rfl⟩ | ⟨-, hidle, rfl⟩)
    case inr.inr.inr.inr.inr => simp [hb] at hidle
    all_goals exact .inl (by simp [hb, hp])
  case resets => exact fun level rest hh hl => (no_edge_of_resetsNext_false ha hr hh hl).elim
  all_goals intros; exact .inl (by simp [startTake, hb, hp])

/-- Settles O58: the block waits, and of the host's actions short of reset only a take touches the beat. -/
theorem offeredBeatHoldsUntilItTransfers : Obligations.OfferedBeatHoldsUntilItTransfers := by
  intro s t b hi hp hr h
  obtain ⟨-, ⟨hoffer, -⟩, -⟩ := hi
  obtain ⟨hb, hg, hd⟩ := hoffer (by simp [hp])
  cases ha : nextAgent s with
  | block =>
    rw [step_block_waits ha hd hg hp] at h
    injection h with h
    subst h
    exact .inl ⟨hp, rfl, rfl, hb⟩
  | host =>
    rw [step_host ha] at h
    rcases hostTurn_beatHoldsOrTransfers ha hr hb hp h with hk | ⟨h1, h2, h3, h4, h5⟩
    · exact .inl hk
    · exact .inr ⟨h1, h2, h3, h4, rfl, h5⟩

end Sys2Proof.Machine

/-! PROOFS. Bus accesses and command acceptance (20_memory.md): what one access does, and what a running command keeps. -/

namespace Sys2Proof.Machine

/-! ### A command in progress -/

/-- What every turn keeps of a command in progress that is neither its own step nor a hardware reset: the command and its
hidden state, the engine, and the bits taken followed by the one on offer. -/
structure CommandUndisturbed (s t : State) : Prop where
  busy : t.busy = s.busy
  begun : t.begun = s.begun
  lcmd : t.lcmd = s.lcmd
  larg0 : t.larg0 = s.larg0
  larg1 : t.larg1 = s.larg1
  larg2 : t.larg2 = s.larg2
  remain : t.remain = s.remain
  work : t.work = s.work
  engine : SameEngine s t
  beats : t.taken ++ t.pnOut.toList = s.taken ++ s.pnOut.toList

/-- Taking a turn off the schedule disturbs no command. -/
theorem commandUndisturbed_afterTurn (s : State) : CommandUndisturbed s (afterTurn s) := by
  constructor <;> simp [SameEngine]

/-- The start of a block's turn disturbs no command. -/
theorem commandUndisturbed_beginStep (s : State) : CommandUndisturbed s (beginStep (afterTurn s)) := by
  constructor <;> simp [SameEngine]

/-- The host's turn, short of hardware reset, disturbs no command in progress: a CMD write is dropped, and a take moves the
bit on offer to the end of the bits taken (20_memory.md R59, R64, 10_state.md R33). -/
theorem hostTurn_commandUndisturbed {s t : State} (hb : s.busy = true) (ha : nextAgent s = .host)
    (hr : resetsNext s = false) (h : hostTurn (afterTurn s) = .next t) : CommandUndisturbed s t := by
  apply hostTurn_elim h
  case write =>
    rintro a off v rest x - - - - (rfl | ⟨-, rfl⟩ | ⟨-, rfl⟩ | ⟨-, rfl⟩ | ⟨-, -, rfl⟩ | ⟨-, hidle, rfl⟩)
    case inr.inr.inr.inr.inr => simp [hb] at hidle
    all_goals constructor <;> simp [SameEngine]
  case taken =>
    rintro x rest b v - hp
    rw [afterTurn_pnOut] at hp
    constructor <;> simp [SameEngine, hp]
  case resets => exact fun level rest hh hl => (no_edge_of_resetsNext_false ha hr hh hl).elim
  all_goals intros; constructor <;> simp [SameEngine, startTake]

/-- A step short of hardware reset leaves a command in progress undisturbed, or is that command's own. -/
theorem step_commandUndisturbed_or_runs {s t : State} (hb : s.busy = true) (hr : resetsNext s = false)
    (h : step s = .next t) :
    CommandUndisturbed s t ∨ (BlockRuns s ∧ runCommand (beginStep (afterTurn s)) = .next t) := by
  apply step_elim h (fun t => CommandUndisturbed s t ∨ (BlockRuns s ∧ runCommand (beginStep (afterTurn s)) = .next t))
  case blockIdle => exact fun _ _ => .inl (commandUndisturbed_afterTurn s)
  case blockRuns => exact fun ha hrst _ hrun => .inr ⟨⟨ha, hrst, hb⟩, hrun⟩
  case host => exact fun ha hh => .inl (hostTurn_commandUndisturbed hb ha hr hh)

/-- A command's own step keeps the word and arguments it was accepted with. -/
theorem runCommand_keepsLatched {s t : State} (h : runCommand s = .next t) :
    t.lcmd = s.lcmd ∧ t.larg0 = s.larg0 ∧ t.larg1 = s.larg1 ∧ t.larg2 = s.larg2 := by
  apply runCommand_elim h
  all_goals intros; exact ⟨rfl, rfl, rfl, rfl⟩

/-- Settles O47: neither the command's own step nor any other short of hardware reset writes what it latched. -/
theorem latchedArgumentsAreKeptWhileBusy : Obligations.LatchedArgumentsAreKeptWhileBusy := by
  intro s t hb hr h
  rcases step_commandUndisturbed_or_runs hb hr h with hk | ⟨-, hrun⟩
  · exact ⟨hk.lcmd, hk.larg0, hk.larg1, hk.larg2⟩
  · simpa using runCommand_keepsLatched hrun

/-! ### What a GENERATE in progress owes -/

/-- The promise of a GENERATE depends on the engine, REMAIN, and the bits taken and on offer alone. -/
theorem promise_of_commandUndisturbed {s t : State} (hk : CommandUndisturbed s t) :
    promisedBits t = promisedBits s ∧ promisedLfsr t = promisedLfsr s := by
  obtain ⟨hpoly, horder, hlfsr, -, -⟩ := hk.engine
  simp only [promisedBits, promisedLfsr, hpoly, horder, hlfsr, hk.remain, hk.beats, and_self]

/-- An advance that offers its bit keeps the promise: the first bit still to come is now on offer (41_engine.md R132). -/
theorem promise_advanceAndOffer {s : State} (hp : s.pnOut = none) (hm : s.remain ≠ 0) :
    promisedBits (advanceAndOffer s) = promisedBits s ∧ promisedLfsr (advanceAndOffer s) = promisedLfsr s := by
  obtain ⟨m, hm⟩ := Nat.exists_eq_succ_of_ne_zero hm
  simp [promisedBits, promisedLfsr, hp, hm, outputBits, advanceTimes]

/-- With no advance left and no beat on offer the promise has been kept. -/
theorem promise_of_nothing_owed {s : State} (hp : s.pnOut = none) (hm : s.remain = 0) :
    promisedBits s = s.taken ∧ promisedLfsr s = s.lfsr := by
  simp [promisedBits, promisedLfsr, hp, hm, outputBits]

/-- In `t` the GENERATE in progress in `s` goes on, owing what it owed. -/
def PromiseKept (s t : State) : Prop :=
  t.busy = true ∧ t.begun = true ∧ decode t.lcmd = .ok .generate ∧ promisedBits t = promisedBits s ∧
    promisedLfsr t = promisedLfsr s

/-- In `t` the GENERATE in progress in `s` has completed with all that it owed delivered. -/
def PromiseDelivered (s t : State) : Prop :=
  t.busy = false ∧ t.code = .ok ∧ t.taken = promisedBits s ∧ t.lfsr = promisedLfsr s ∧ t.pnOut = none

/-- A step of GENERATE in its loop keeps its promise, and its completion delivers it. -/
theorem execGenerate_promise {s t : State} (hb : s.busy = true) (hg : s.begun = true)
    (hd : decode s.lcmd = .ok .generate) (h : execGenerate s = .next t) : PromiseKept s t ∨ PromiseDelivered s t := by
  rcases execGenerate_cases h with ⟨hg', -⟩ | ⟨-, -, rfl⟩ | ⟨-, hp, hm, rfl⟩ | ⟨-, hp, hm, rfl⟩
  · simp [hg] at hg'
  · exact .inl ⟨hb, hg, hd, rfl, rfl⟩
  · obtain ⟨hbits, hlfsr⟩ := promise_of_nothing_owed hp hm
    exact .inr ⟨rfl, rfl, hbits.symm, hlfsr.symm, hp⟩
  · exact .inl ⟨hb, hg, hd, promise_advanceAndOffer hp hm⟩

/-- A step short of hardware reset keeps the promise of a GENERATE in its loop, or completes it with the promise delivered. -/
theorem step_promise {s t : State} (hb : s.busy = true) (hg : s.begun = true) (hd : decode s.lcmd = .ok .generate)
    (hr : resetsNext s = false) (h : step s = .next t) : PromiseKept s t ∨ PromiseDelivered s t := by
  rcases step_commandUndisturbed_or_runs hb hr h with hk | ⟨-, hrun⟩
  · exact .inl ⟨hk.busy.trans hb, hk.begun.trans hg, by rw [hk.lcmd, hd], promise_of_commandUndisturbed hk⟩
  · have hstart := commandUndisturbed_beginStep s
    obtain ⟨hbits, hlfsr⟩ := promise_of_commandUndisturbed hstart
    have hexec : execGenerate (beginStep (afterTurn s)) = .next t := by
      rwa [runCommand, hstart.lcmd, hd] at hrun
    have hp := execGenerate_promise (hstart.busy.trans hb) (hstart.begun.trans hg) (by rw [hstart.lcmd, hd]) hexec
    rwa [PromiseKept, PromiseDelivered, hbits, hlfsr] at hp

/-- Settles O32: the promise is an invariant of the loop, and the completion delivers it. -/
theorem generateDeliversWhatItPromises : Obligations.GenerateDeliversWhatItPromises := by
  intro s t _ _ hb hg hd hr h
  rcases step_promise hb hg hd hr h with ⟨hbt, hkept⟩ | ⟨hbt, hdelivered⟩
  · exact ⟨fun _ => hkept, fun hf => by simp [hbt] at hf⟩
  · exact ⟨fun hf => by simp [hbt] at hf, fun _ => hdelivered⟩

/-! ### A placed command -/

/-- The block's turn with a command in progress runs that command's meaning (30_encoding.md R73). -/
theorem step_of_blockRuns {s : State} {i : Instr} (h : BlockRuns s) (hd : decode s.lcmd = .ok i) :
    step s = exec i (blockStarts s) := by
  obtain ⟨ha, hr, hb⟩ := h
  rw [step_block ha]
  simp [blockTurn, runCommand, blockStarts, hr, hb, hd]

/-- A table word that stands for a command decodes to it. -/
theorem decode_of_decodeTableWord {nbits w : Nat} {i : Instr} (h : decodeTableWord nbits w = some i) :
    decode (tableWord nbits w) = .ok i := by
  unfold decodeTableWord at h
  split at h
  · rename_i j hj
    injection h with h
    rw [hj, h]
  · cases h

/-- Settles O8: the placed word is in progress and the block's turn is next. -/
theorem placedCommandRunsNext : Obligations.PlacedCommandRunsNext := by
  intro s nbits w i hi
  have hruns : BlockRuns (s.withFetchWord nbits w) := ⟨rfl, rfl, rfl⟩
  have hstart : blockStarts (s.withFetchWord nbits w) =
      progress (accept (tableWord nbits w) { s with rstN := true, pnOut := none }) :=
    beginStep_of_none rfl
  rw [step_of_blockRuns hruns (decode_of_decodeTableWord hi), hstart]

/-! ### Accesses as steps -/

/-- An access of another width or at another offset than a legal one (20_memory.md R51). -/
theorem legalAccess_eq_false {off width : Nat} (h : width ≠ 4 ∨ off % 4 ≠ 0) : legalAccess off width = false := by
  rcases h with h | h <;> simp [legalAccess, h]

/-- Settles O39: an illegal access, read or write, is answered before anything else is looked at. -/
theorem illegalAccessesHaveNoEffect : Obligations.IllegalAccessesHaveNoEffect := by
  intro s a rest ha hh hill
  rw [step_host ha, hostTurn, afterTurn_host, hh]
  cases a with
  | read off width =>
    show busAccess (.read off width) (withHost rest (afterTurn s)) = _
    rw [busAccess, legalAccess_eq_false hill]
    rfl
  | write off width v =>
    show busAccess (.write off width v) (withHost rest (afterTurn s)) = _
    rw [busAccess, legalAccess_eq_false hill]
    rfl

/-- A legal write, bare or of a named value, performs the write (20_memory.md R54). -/
theorem step_write {s : State} {a : HostAction} {off : Fin 64} {v : Word} {rest : List HostAction}
    (h : HostActs s a rest) (ha : IsWrite s a off v) (hoff : off.val % 4 = 0) :
    step s = .next (busWrite off.val v (withHost rest (afterTurn s))) := by
  obtain ⟨hn, hh, hr⟩ := h
  have hl : legalAccess off.val 4 = true := by simp [legalAccess, hoff]
  rw [step_host hn, hostTurn, afterTurn_host, hh]
  rcases ha with rfl | ⟨reg, n, rfl, rfl, rfl⟩
  · exact busAccess_legalWrite hl (by simpa using hr) v
  · exact busAccess_legalWrite hl (by simpa using hr) _

/-- A write of the window writes nothing of the host's side of the state. -/
@[simp] theorem writeWindow_hostSide (off : Nat) (v : Word) (s : State) :
    (writeWindow off v s).sched = s.sched ∧ (writeWindow off v s).host = s.host ∧
    (writeWindow off v s).rstN = s.rstN ∧ (writeWindow off v s).responses = s.responses ∧
    (writeWindow off v s).names = s.names ∧ (writeWindow off v s).freeIdx = s.freeIdx := by
  rcases writeWindow_cases off v s with h | ⟨-, h⟩ | ⟨-, h⟩ | ⟨-, h⟩ | ⟨-, -, h⟩ | ⟨-, -, h⟩ <;> rw [h] <;> simp

/-- A write of the window does not see the schedule and the host's actions. -/
theorem writeWindow_withHost_afterTurn (off : Nat) (v : Word) (rest : List HostAction) (s : State) :
    writeWindow off v (withHost rest (afterTurn s)) = withHost rest (afterTurn (writeWindow off v s)) := by
  unfold writeWindow
  cases regAt off
  case cmd =>
    show writeCmd v (withHost rest (afterTurn s)) = withHost rest (afterTurn (writeCmd v s))
    unfold writeCmd
    rw [withHost_busy, afterTurn_busy]
    cases s.busy <;> rfl
  all_goals rfl

/-- The state after a host's legal write: the register's, and on the host's side the acknowledgement. -/
theorem busWrite_withHost_afterTurn (off : Nat) (v : Word) (rest : List HostAction) (s : State) :
    busWrite off v (withHost rest (afterTurn s)) = { writeWindow off v s with
      sched := s.sched.tail, host := rest, responses := s.responses ++ [.ack], freeIdx := s.freeIdx + 1 } := by
  have hside : ∀ t : State, respond .ack (progress (withHost rest (afterTurn t))) = { t with
      sched := t.sched.tail, host := rest, responses := t.responses ++ [.ack], freeIdx := t.freeIdx + 1 } :=
    fun _ => rfl
  obtain ⟨hsched, -, -, hresponses, -, hfree⟩ := writeWindow_hostSide off v s
  rw [busWrite, writeWindow_withHost_afterTurn, hside, hsched, hresponses, hfree]

/-- What a legal write does on the host's side. -/
theorem busWrite_hostSide (off : Nat) (v : Word) (s : State) :
    (busWrite off v s).sched = s.sched ∧ (busWrite off v s).host = s.host ∧ (busWrite off v s).rstN = s.rstN ∧
    (busWrite off v s).responses = s.responses ++ [.ack] ∧ (busWrite off v s).names = s.names := by
  simp [busWrite]

/-- The registers that take writes stand below 0x10 (10_state.md R30). -/
theorem regAt_notMem_of_ge {off : Nat} (h : 0x10 ≤ off) :
    regAt off ∉ [WindowReg.cmd, .arg0, .arg1, .arg2] := by
  unfold regAt
  split
  case h_1 | h_2 | h_3 | h_4 => omega
  all_goals decide

/-- A write from 0x10 on is ignored (20_memory.md R54). -/
theorem writeWindow_of_ge {off : Nat} (h : 0x10 ≤ off) (v : Word) (s : State) : writeWindow off v s = s := by
  have hn := regAt_notMem_of_ge h
  rcases writeWindow_cases off v s with he | ⟨hq, -⟩ | ⟨hq, -⟩ | ⟨hq, -⟩ | ⟨hq, -⟩ | ⟨hq, -⟩
  case inl => exact he
  all_goals simp [hq] at hn

/-- Settles O43: a legal write, one register at a time. -/
theorem legalWritesByOffset : Obligations.LegalWritesByOffset := by
  intro s a off v rest h ha hoff
  refine ⟨writeWindow off.val v s, by rw [step_write h ha hoff, busWrite_withHost_afterTurn], ?idle, ?busy, ?_, ?_, ?_,
    fun ho => writeWindow_of_ge ho v s⟩
  case idle => intro ho hb; simp [writeWindow, regAt, writeCmd, ho, hb]
  case busy => intro ho hb; simp [writeWindow, regAt, writeCmd, ho, hb]
  all_goals intro ho; rw [ho]; rfl

/-- Settles O44: the two cases of a write to offset 0. -/
theorem cmdWritesAreAcceptedOrDropped : Obligations.CmdWritesAreAcceptedOrDropped := by
  constructor <;> intro s a v rest h ha hb
  · obtain ⟨t, hstep, haccepted, -⟩ := legalWritesByOffset s a 0 v rest h ha rfl
    rw [hstep, haccepted rfl hb]
    rfl
  · obtain ⟨t, hstep, -, hdropped, -⟩ := legalWritesByOffset s a 0 v rest h ha rfl
    rw [hstep, hdropped rfl hb]
    rfl

/-- The state after a read that has given the host the data `w`, named `x` if it is to be named. -/
def readDone (w : Word) (x : Option String) (rest : List HostAction) (turns : List Agent) (s : State) : State :=
  { s with sched := turns, host := rest, responses := s.responses ++ [.data w], names := namesAfter x (.word w) s.names }

/-- A step that is a legal read. -/
theorem step_eq_readDone {s : State} {a : HostAction} {off : Fin 64} {x : Option String} {rest : List HostAction}
    (h : HostActs s a rest) (ha : IsRead a off x) (hoff : off.val % 4 = 0) :
    step s = .next (readDone (readWindow off.val s) x rest s.sched.tail s) :=
  step_read h ha hoff

/-- The offsets of the ARG registers (10_state.md R30). -/
theorem regAt_of_arg {off : Nat} (h : off = 0x04 ∨ off = 0x08 ∨ off = 0x0C) :
    regAt off = .arg0 ∨ regAt off = .arg1 ∨ regAt off = .arg2 := by
  rcases h with rfl | rfl | rfl <;> decide

/-- An ARG register reads as what was written to it, and the write does not touch BUSY (20_memory.md R60). -/
theorem busWrite_arg {off : Nat} (h : regAt off = .arg0 ∨ regAt off = .arg1 ∨ regAt off = .arg2) (v : Word)
    (s : State) : readWindow off (busWrite off v s) = v ∧ (busWrite off v s).busy = s.busy := by
  rcases h with h | h | h <;> simp [readWindow, busWrite, writeWindow, h]

/-- Settles O45: the write's step, then the read's. -/
theorem argReadsReturnWhatWasWritten : Obligations.ArgReadsReturnWhatWasWritten := by
  intro s a b off v x rest turns hoff hs h ha hb
  have hfour : off.val % 4 = 0 := by omega
  have hwrite := step_write h ha hfour
  obtain ⟨-, -, hr⟩ := h
  obtain ⟨hsched, hhost, hrst, hresponses, hnames⟩ := busWrite_hostSide off.val v (withHost (b :: rest) (afterTurn s))
  obtain ⟨hread, hbusy⟩ := busWrite_arg (regAt_of_arg hoff) v (withHost (b :: rest) (afterTurn s))
  generalize busWrite off.val v (withHost (b :: rest) (afterTurn s)) = t at *
  have hturn : nextAgent t = .host := by simp [nextAgent, hsched, hs]
  have hthen := step_eq_readDone ⟨hturn, hhost, hrst.trans hr⟩ hb hfour
  rw [hread] at hthen
  refine ⟨readDone v x rest t.sched.tail t, ?_, ?_, rfl, hbusy, ?_⟩
  · rw [stepTimes_of_step 1 hwrite, stepTimes_of_step 0 hthen]
    rfl
  · simp [readDone, hresponses]
  · simp [readDone, hnames]

/-! ### Reads -/

/-- Turns of the block change nothing but the schedule while no command is in progress, and while GENERATE offers a beat. -/
theorem stepTimes_idleTurns {turns : List Agent} (k : Nat) : ∀ s : State, s.sched = List.replicate k .block ++ turns →
    s.busy = false ∨ ((∃ bit, s.pnOut = some bit) ∧ decode s.lcmd = .ok .generate ∧ s.begun = true) →
    stepTimes k s = .next { s with sched := turns } := by
  induction k with
  | zero =>
    intro s hs _
    obtain rfl : s.sched = turns := by simpa using hs
    rfl
  | succ k ih =>
    intro s hs hw
    have ha : nextAgent s = .block := by simp [nextAgent, hs, List.replicate_succ]
    have hstep : step s = .next (afterTurn s) := by
      rcases hw with hb | ⟨⟨bit, hp⟩, hd, hg⟩
      · rw [step_block ha]
        simp [blockTurn, hb]
      · exact step_block_waits ha hd hg hp
    rw [stepTimes_of_step k hstep]
    exact ih (afterTurn s) (by simp [hs, List.replicate_succ]) hw

/-- Two reads of one offset return the same value when what comes in between changes only the schedule. -/
theorem stepTimes_twoReads {s : State} {a b : HostAction} {off : Fin 64} {x y : Option String} {rest : List HostAction}
    {turns : List Agent} {k : Nat} (h : HostActs s a (b :: rest)) (ha : IsRead a off x) (hb : IsRead b off y)
    (hoff : off.val % 4 = 0)
    (hbetween : ∀ w, stepTimes k (readDone w x (b :: rest) s.sched.tail s) =
      .next (readDone w x (b :: rest) (.host :: turns) s)) :
    ∃ w : Word, stepTimes (k + 2) s = .next { s with
      sched := turns, host := rest, responses := s.responses ++ [.data w, .data w],
      names := namesAfter y (.word w) (namesAfter x (.word w) s.names) } := by
  have hfirst := step_eq_readDone h ha hoff
  obtain ⟨-, -, hr⟩ := h
  generalize hw : readWindow off.val s = w at hfirst
  have hsame : readWindow off.val (readDone w x (b :: rest) (.host :: turns) s) = w := hw
  have hsecond := step_eq_readDone (s := readDone w x (b :: rest) (.host :: turns) s) ⟨rfl, rfl, hr⟩ hb hoff
  rw [hsame] at hsecond
  refine ⟨w, ?_⟩
  rw [show k + 2 = (k + 1) + 1 from rfl, stepTimes_of_step _ hfirst, stepTimes_add k 1 _ _ (hbetween w),
    stepTimes_of_step 0 hsecond]
  simp [stepTimes, readDone]

/-- Settles O42: by what a read's step is, and by what the turns between two reads do. -/
theorem readsHaveNoSideEffects : Obligations.ReadsHaveNoSideEffects := by
  refine ⟨fun s a off x rest h ha hoff => ⟨_, step_read h ha hoff⟩, ?adjacent, ?apart⟩
  case adjacent =>
    intro s a b off x y rest turns hs h ha hb hoff
    exact stepTimes_twoReads (k := 0) h ha hb hoff fun w => by rw [hs]; rfl
  case apart =>
    intro s a b off x y rest turns k hs h ha hb hoff hw
    exact stepTimes_twoReads h ha hb hoff fun w => stepTimes_idleTurns k _ (by simp [readDone, hs]) hw

/-! ### The window -/

/-- Each offset is reached by its own host address (20_memory.md R50). -/
theorem windowOffset_hostAddress (off : Fin 64) : windowOffset (hostAddress off) = some off := by
  simp [windowOffset, hostAddress]

/-- A host address that reaches an offset is the base plus that offset (20_memory.md R50). -/
theorem eq_add_of_windowOffset {addr : Nat} {off : Fin 64} (h : windowOffset addr = some off) :
    addr = Config.pnBase + off.val := by
  unfold windowOffset at h
  split at h
  · rename_i hin
    injection h with h
    subst h
    exact (Nat.add_sub_of_le hin.1).symm
  · cases h

/-- The bits of a byte lane (20_memory.md R52). -/
theorem byteLane_getLsbD (w : Word) (k : Nat) {i : Nat} (hi : i < 8) :
    (byteLane w k).getLsbD i = w.getLsbD (8 * k + i) := by
  simp [byteLane, hi]

/-- The four lanes, each adjoining the next, make up the word (20_memory.md R52). -/
theorem wordOfBytes_byteLanes (w : Word) :
    wordOfBytes (byteLane w 0) (byteLane w 1) (byteLane w 2) (byteLane w 3) = w := by
  unfold wordOfBytes byteLane
  rw [BitVec.extractLsb'_append_extractLsb'_eq_extractLsb' (by decide : 8 * 3 = 8 * 2 + 8),
    BitVec.extractLsb'_append_extractLsb'_eq_extractLsb' (by decide : 8 * 2 = 8 * 1 + 8),
    BitVec.extractLsb'_append_extractLsb'_eq_extractLsb' (by decide : 8 * 1 = 8 * 0 + 8)]
  exact BitVec.extractLsb'_eq_self

/-- Settles O46: an offset and its address, and the lanes as adjoining fields of the word. -/
theorem windowAddressesAndByteLanes : Obligations.WindowAddressesAndByteLanes :=
  ⟨windowOffset_hostAddress, fun _ _ => eq_add_of_windowOffset, fun w k _ _ => byteLane_getLsbD w k,
    wordOfBytes_byteLanes⟩

end Sys2Proof.Machine

/-! PROOFS. Encoding (30_encoding.md): the decoder against the opcode table, the canonical words, the illegal encodings. -/

namespace Sys2Proof

/-! ### The fields of a command word -/

/-- A tap field holds five bits (30_encoding.md R71). -/
theorem tapField_lt (w : Word) (j : Nat) : tapField w j < 32 := (w.extractLsb' (7 + 5 * j) 5).isLt

/-- The bits of a word below bit `n`, as a remainder of its value. -/
theorem and_mask_toNat (w : Word) {n : Nat} (hn : n ≤ 32) : (w &&& BitVec.ofNat 32 (2 ^ n - 1)).toNat = w.toNat % 2 ^ n := by
  have hlt : 2 ^ n - 1 < 2 ^ 32 := by
    have := Nat.pow_le_pow_right (n := 2) (by decide) hn
    have := Nat.two_pow_pos n
    omega
  rw [BitVec.toNat_and, BitVec.toNat_ofNat, Nat.mod_eq_of_lt hlt, Nat.and_two_pow_sub_one_eq_mod]

/-- A row of Format N is selected by OP alone (30_encoding.md R70). -/
theorem and_eq_formatN_iff (w : Word) {op : Nat} (hop : op < 16) :
    w &&& 0xF#32 = BitVec.ofNat 32 op ↔ opField w = op := by
  have hmask : (w &&& 0xF#32).toNat = w.toNat % 16 := and_mask_toNat w (n := 4) (by decide)
  rw [← BitVec.toNat_inj, hmask, opField, field_toNat, BitVec.toNat_ofNat]
  omega

/-- A row of Format B is selected by OP = 0x1 and its CNT (30_encoding.md R70). -/
theorem and_eq_formatB_iff (w : Word) {c : Nat} (hc : c < 8) :
    w &&& 0x7F#32 = BitVec.ofNat 32 (16 * c + 1) ↔ opField w = 1 ∧ cntField w = c := by
  have hmask : (w &&& 0x7F#32).toNat = w.toNat % 128 := and_mask_toNat w (n := 7) (by decide)
  rw [← BitVec.toNat_inj, hmask, opField, cntField, field_toNat, field_toNat, BitVec.toNat_ofNat]
  omega

/-- The row of a BUILDPOLY in the opcode table: OP = 0x1 and its number of taps as CNT. -/
theorem formatB_row {i : Instr} (h : i.opcode = 1) :
    tableMask i = 0x7F#32 ∧ tableMatch i = BitVec.ofNat 32 (16 * i.taps.length + 1) ∧ i.taps.length ≤ 5 := by
  cases i <;> simp_all [Instr.opcode, Instr.taps, tableMask, tableMatch]

/-- The row of every other command: its OP alone. -/
theorem formatN_row {i : Instr} (h : i.opcode ≠ 1) :
    tableMask i = 0xF#32 ∧ tableMatch i = BitVec.ofNat 32 i.opcode ∧ i.opcode < 16 := by
  cases i <;> simp_all [Instr.opcode, tableMask, tableMatch]

/-- A word matches a command's row of the opcode table exactly when it has the row's OP and, for a BUILDPOLY, as its CNT the
row's number of taps (30_encoding.md R72). -/
theorem matchesRow_iff (w : Word) (i : Instr) :
    w &&& tableMask i = tableMatch i ↔ opField w = i.opcode ∧ (i.opcode = 1 → cntField w = i.taps.length) := by
  by_cases h : i.opcode = 1
  · obtain ⟨hmask, hmatch, hlen⟩ := formatB_row h
    simp [hmask, hmatch, and_eq_formatB_iff w (c := i.taps.length) (by omega), h]
  · obtain ⟨hmask, hmatch, hop⟩ := formatN_row h
    simp [hmask, hmatch, and_eq_formatN_iff w hop, h]

/-! ### The decoder as the opcode table -/

/-- The command of the same row with its j-th tap replaced by `f j`. -/
def Instr.withTaps (f : Nat → Nat) : Instr → Instr
  | .buildpoly1 _ => .buildpoly1 (f 0)
  | .buildpoly2 _ _ => .buildpoly2 (f 0) (f 1)
  | .buildpoly3 _ _ _ => .buildpoly3 (f 0) (f 1) (f 2)
  | .buildpoly4 _ _ _ _ => .buildpoly4 (f 0) (f 1) (f 2) (f 3)
  | .buildpoly5 _ _ _ _ _ => .buildpoly5 (f 0) (f 1) (f 2) (f 3) (f 4)
  | .mlpoly => .mlpoly
  | .statesize => .statesize
  | .init => .init
  | .reset => .reset
  | .generate => .generate

@[simp] theorem withTaps_mnemonic (f : Nat → Nat) (i : Instr) : (i.withTaps f).mnemonic = i.mnemonic := by cases i <;> rfl

theorem withTaps_taps (f : Nat → Nat) (i : Instr) : (i.withTaps f).taps = (List.range i.taps.length).map f := by
  cases i <;> rfl

/-- Only the taps the command has are looked up. -/
theorem withTaps_congr {f g : Nat → Nat} {i : Instr} (h : ∀ j < i.taps.length, f j = g j) :
    i.withTaps f = i.withTaps g := by
  cases i <;> simp_all [Instr.withTaps, Instr.taps]

/-- Replacing each tap by itself changes nothing. -/
theorem withTaps_self (i : Instr) : i.withTaps (fun j => i.taps.getD j 0) = i := by cases i <;> rfl

/-- A word that matches a row decodes to that row's command with the taps of its fields (30_encoding.md R73). -/
theorem decode_of_matchesRow {w : Word} {row : Instr} (h : w &&& tableMask row = tableMatch row) :
    decode w = .ok (row.withTaps (tapField w)) := by
  obtain ⟨hop, hcnt⟩ := (matchesRow_iff w row).1 h
  cases row <;> simp_all [decode, decodeFormatB, Instr.opcode, Instr.taps, Instr.withTaps]

/-- A Format B word decodes to a BUILDPOLY of CNT taps, each the value of its field (30_encoding.md R72). -/
theorem decodeFormatB_ok {w : Word} {i : Instr} (h : decodeFormatB w = .ok i) :
    i.opcode = 1 ∧ cntField w = i.taps.length ∧ i.withTaps (tapField w) = i := by
  unfold decodeFormatB at h
  split at h <;> cases h <;> exact ⟨rfl, ‹_›, rfl⟩

/-- A word decodes only to a command whose row it matches, each tap the value of its field (30_encoding.md R73). -/
theorem matchesRow_of_decode {w : Word} {i : Instr} (h : decode w = .ok i) :
    w &&& tableMask i = tableMatch i ∧ i.withTaps (tapField w) = i := by
  rw [matchesRow_iff]
  unfold decode at h
  split at h
  case h_1 hop =>
    obtain ⟨hi, hcnt, htaps⟩ := decodeFormatB_ok h
    exact ⟨⟨hop.trans hi.symm, fun _ => hcnt⟩, htaps⟩
  case h_7 => cases h
  all_goals
    cases h
    exact ⟨⟨‹_›, by simp [Instr.opcode]⟩, rfl⟩

/-- The taps of a decoded command are the fields of the word, in order (30_encoding.md R74). -/
theorem decode_taps {w : Word} {i : Instr} (h : decode w = .ok i) :
    i.taps = (List.range i.taps.length).map (tapField w) := by
  rw [← withTaps_taps, (matchesRow_of_decode h).2]

/-! ### Illegal encodings -/

/-- The illegal Format B words, by CNT (30_encoding.md R75). -/
theorem decodeFormatB_error_iff (w : Word) :
    (∃ e, decodeFormatB w = .error e) ↔ cntField w = 0 ∨ cntField w = 6 ∨ cntField w = 7 := by
  have hlt : cntField w < 8 := (w.extractLsb' 4 3).isLt
  unfold decodeFormatB
  split
  case h_6 => exact iff_of_true ⟨_, rfl⟩ (by grind)
  all_goals simp [*]

/-- The illegal encodings of 30_encoding.md R75, by OP and CNT. -/
theorem decode_error_iff (w : Word) :
    (∃ e, decode w = .error e) ↔
      opField w = 0 ∨ 7 ≤ opField w ∨ (opField w = 1 ∧ (cntField w = 0 ∨ cntField w = 6 ∨ cntField w = 7)) := by
  unfold decode
  split
  case h_1 hop => simp [decodeFormatB_error_iff, hop]
  case h_7 => exact iff_of_true ⟨_, rfl⟩ (by grind)
  all_goals simp [*]

/-- The bits that select a command's row are among those that mean something. -/
theorem meaningfulBits_and_tableMask (i : Instr) : meaningfulBits i &&& tableMask i = tableMask i := by
  cases i <;> simp [meaningfulBits, tableMask]

/-- Every bit of a tap field that the command has means something (30_encoding.md R70). -/
theorem meaningfulBits_tapField (i : Instr) :
    ∀ j < i.taps.length, (meaningfulBits i).extractLsb' (7 + 5 * j) 5 = BitVec.allOnes 5 := by
  cases i <;> simp only [Instr.taps, meaningfulBits, List.length_cons, List.length_nil] <;> decide

/-- The ignored bits do not reach the tap fields of a command. -/
theorem tapField_and_meaningfulBits (w : Word) (i : Instr) {j : Nat} (hj : j < i.taps.length) :
    tapField (w &&& meaningfulBits i) j = tapField w j := by
  rw [tapField, BitVec.extractLsb'_and, meaningfulBits_tapField i j hj, BitVec.and_allOnes, tapField]

/-- Ignored bits select nothing (30_encoding.md R75). -/
theorem decode_congr_meaningfulBits {w w' : Word} {i : Instr} (h : decode w = .ok i)
    (hw : w &&& meaningfulBits i = w' &&& meaningfulBits i) : decode w' = .ok i := by
  obtain ⟨hrow, htaps⟩ := matchesRow_of_decode h
  have hrow' : w' &&& tableMask i = tableMatch i := by
    rw [← hrow, ← meaningfulBits_and_tableMask, ← BitVec.and_assoc, ← BitVec.and_assoc, hw]
  have hfields : ∀ j < i.taps.length, tapField w' j = tapField w j := fun j hj => by
    rw [← tapField_and_meaningfulBits w' i hj, ← hw, tapField_and_meaningfulBits w i hj]
  rw [decode_of_matchesRow hrow', withTaps_congr hfields, htaps]

/-! ### The canonical words -/

/-- A tap shifted to its field stands there. -/
theorem shiftedTap_extract_field (t : Nat) {lo : Nat} (hlo : lo + 5 ≤ 32) :
    (BitVec.ofNat 32 t <<< lo).extractLsb' lo 5 = BitVec.ofNat 5 t := by
  apply BitVec.eq_of_getLsbD_eq
  intro i hi
  rw [BitVec.getLsbD_extractLsb', BitVec.getLsbD_shiftLeft, BitVec.getLsbD_ofNat, BitVec.getLsbD_ofNat]
  simp [hi, show lo + i < 32 by omega, show i < 32 by omega]

/-- A tap that fits its field does not reach above it. -/
theorem shiftedTap_extract_above {t : Nat} (ht : t < 32) (lo d : Nat) :
    (BitVec.ofNat 32 t <<< lo).extractLsb' (lo + 5 + d) 5 = 0#5 := by
  apply BitVec.eq_of_getLsbD_eq
  intro i _
  have hbit : t.testBit (5 + (d + i)) = false :=
    Nat.testBit_lt_two_pow (lt_of_lt_of_le ht (Nat.pow_le_pow_right (n := 2) (i := 5) (by decide) (by omega)))
  simp [BitVec.getLsbD_ofNat, hbit, Nat.add_assoc]

/-- The taps encoded from bit `lo + 5` on leave the field at `lo` empty. -/
theorem encodeTaps_extract_below (taps : List Nat) (lo : Nat) : (encodeTaps (lo + 5) taps).extractLsb' lo 5 = 0#5 := by
  apply BitVec.eq_of_getLsbD_eq
  intro i hi
  simp [encodeTaps_low_bits taps (lo + 5) (lo + i) (by omega)]

/-- The j-th field of encoded taps is the j-th tap, if every tap fits its field and the fields fit the word. -/
theorem encodeTaps_extract {taps : List Nat} (hfit : ∀ t ∈ taps, t < 32) :
    ∀ {lo j : Nat}, lo + 5 * taps.length ≤ 32 → j < taps.length →
      (encodeTaps lo taps).extractLsb' (lo + 5 * j) 5 = BitVec.ofNat 5 (taps.getD j 0) := by
  induction taps with
  | nil => simp
  | cons t ts ih =>
    intro lo j hlo hj
    rw [List.length_cons] at hlo hj
    obtain ⟨ht, hts⟩ := List.forall_mem_cons.1 hfit
    rw [encodeTaps, BitVec.extractLsb'_or]
    cases j with
    | zero => simp [shiftedTap_extract_field t (lo := lo) (by omega), encodeTaps_extract_below]
    | succ j =>
      rw [show lo + 5 * (j + 1) = lo + 5 + 5 * j by omega, shiftedTap_extract_above ht, BitVec.zero_or,
        ih hts (by omega) (Nat.lt_of_succ_lt_succ hj), List.getD_cons_succ]

/-- The opcode and the count lie below the tap fields. -/
theorem selectBits_extract : ∀ n ≤ 5, ∀ j < 5,
    (0x1#32 ||| (BitVec.ofNat 32 n <<< 4)).extractLsb' (7 + 5 * j) 5 = 0#5 := by decide

/-- The tap fields of a Format B word hold its taps (30_encoding.md R77). -/
theorem tapField_encodeFormatB {taps : List Nat} (hfit : ∀ t ∈ taps, t < 32) (hlen : taps.length ≤ 5) {j : Nat}
    (hj : j < taps.length) : tapField (encodeFormatB taps) j = taps.getD j 0 := by
  have htap : taps.getD j 0 < 32 := by
    rw [List.getD_eq_getElem _ _ hj]
    exact hfit _ (List.getElem_mem hj)
  rw [tapField, encodeFormatB, BitVec.extractLsb'_or, selectBits_extract _ hlen j (by omega), BitVec.zero_or,
    encodeTaps_extract hfit (by omega) hj, BitVec.toNat_ofNat, Nat.mod_eq_of_lt htap]

/-- The canonical word of a BUILDPOLY is the Format B word of its taps (30_encoding.md R77). -/
theorem encode_formatB {i : Instr} (h : i.opcode = 1) : encode i = encodeFormatB i.taps := by
  cases i <;> simp_all [Instr.opcode, Instr.taps, encode]

/-- Only a BUILDPOLY has taps. -/
theorem taps_formatN {i : Instr} (h : i.opcode ≠ 1) : i.taps = [] := by
  cases i <;> simp_all [Instr.opcode, Instr.taps]

/-- The canonical word of a well-formed command holds each tap in its field. -/
theorem tapField_encode {i : Instr} (hi : WellFormed i) :
    ∀ j < i.taps.length, tapField (encode i) j = i.taps.getD j 0 := by
  intro j hj
  by_cases h : i.opcode = 1
  · rw [encode_formatB h, tapField_encodeFormatB hi (formatB_row h).2.2 hj]
  · simp [taps_formatN h] at hj

/-- The canonical word of a command matches the command's row. -/
theorem encode_matchesRow : ∀ i : Instr, encode i &&& tableMask i = tableMatch i
  | .buildpoly1 t0 => Laws.CanonicalWordMatchesRow.buildpoly1 t0
  | .buildpoly2 t0 t1 => Laws.CanonicalWordMatchesRow.buildpoly2 t0 t1
  | .buildpoly3 t0 t1 t2 => Laws.CanonicalWordMatchesRow.buildpoly3 t0 t1 t2
  | .buildpoly4 t0 t1 t2 t3 => Laws.CanonicalWordMatchesRow.buildpoly4 t0 t1 t2 t3
  | .buildpoly5 t0 t1 t2 t3 t4 => Laws.CanonicalWordMatchesRow.buildpoly5 t0 t1 t2 t3 t4
  | .mlpoly => Laws.CanonicalWordMatchesRow.mlpoly
  | .statesize => Laws.CanonicalWordMatchesRow.statesize
  | .init => Laws.CanonicalWordMatchesRow.init
  | .reset => Laws.CanonicalWordMatchesRow.reset
  | .generate => Laws.CanonicalWordMatchesRow.generate

end Sys2Proof

namespace Sys2Proof.Machine

/-! ### The statements about the encoding -/

/-- Settles O3: the canonical word matches its command's row, so it decodes to that row with the taps of its fields, which are
the command's own. -/
theorem decodeOfEncodeIsTheCommand : Obligations.DecodeOfEncodeIsTheCommand := by
  intro i hi
  rw [decode_of_matchesRow (encode_matchesRow i), withTaps_congr (tapField_encode hi), withTaps_self]

/-- Settles O4: every tap is the value of a five-bit field. -/
theorem decodedCommandsAreWellFormed : Obligations.DecodedCommandsAreWellFormed := by
  intro w i h t ht
  rw [decode_taps h, List.mem_map] at ht
  obtain ⟨j, -, rfl⟩ := ht
  exact tapField_lt w j

/-- Settles O5, by the decoder's two directions against the table. -/
theorem decodingFollowsTheOpcodeTable : Obligations.DecodingFollowsTheOpcodeTable := by
  refine ⟨fun w i h => ?fields, fun w row h => ⟨_, decode_of_matchesRow h, withTaps_mnemonic _ row⟩⟩
  case fields =>
    obtain ⟨hrow, -⟩ := matchesRow_of_decode h
    obtain ⟨hop, -⟩ := (matchesRow_iff w i).1 hrow
    exact ⟨hrow, hop.symm.trans (field_toNat w 0 4),
      (decode_taps h).trans (List.map_congr_left fun j _ => field_toNat w (7 + 5 * j) 5)⟩

/-- The block's turn with an illegal word in progress completes it with ILLEGAL_COMMAND (60_exceptions.md R161). -/
theorem step_of_blockRuns_illegal {s : State} {e : DecodeError} (h : BlockRuns s) (hd : decode s.lcmd = .error e) :
    step s = .next (complete .illegalCommand (blockStarts s)) := by
  obtain ⟨ha, hr, hb⟩ := h
  rw [step_block ha]
  simp [blockTurn, runCommand, blockStarts, hr, hb, hd]

/-- Settles O6: the words that decode to nothing, their step, and the bits the decoder does not read. -/
theorem illegalEncodingsCompleteWithNoOtherEffect : Obligations.IllegalEncodingsCompleteWithNoOtherEffect := by
  refine ⟨fun w => ?illegal, fun s e hs hd => step_of_blockRuns_illegal hs hd,
    fun w w' i hd hw => decode_congr_meaningfulBits hd hw⟩
  case illegal =>
    have hop : opField w = fieldValue w 0 4 := field_toNat w 0 4
    have hcnt : cntField w = fieldValue w 4 3 := field_toNat w 4 3
    rw [decode_error_iff, hop, hcnt]

/-- A Format B word is the OR of OP, CNT and its tap fields; fields not used are 0 (30_encoding.md R77). -/
theorem formatBWord_eq (c t0 t1 t2 t3 t4 : Nat) :
    formatBWord c t0 t1 t2 t3 t4 = 0x1#32 ||| (BitVec.ofNat 32 c <<< 4) ||| encodeTaps 7 [t0, t1, t2, t3, t4] := by
  simp [formatBWord, encodeTaps, BitVec.or_assoc]

/-- A list of taps is encoded as the same list filled up with zeros. -/
theorem encodeTaps_append_zeros (taps : List Nat) (n : Nat) :
    ∀ lo, encodeTaps lo (taps ++ List.replicate n 0) = encodeTaps lo taps := by
  induction taps with
  | nil =>
    induction n with
    | zero => simp
    | succ n ih => intro lo; simpa [List.replicate_succ, encodeTaps] using ih (lo + 5)
  | cons t ts ih => intro lo; rw [List.cons_append, encodeTaps, ih, encodeTaps]

/-- Settles O1: unused tap fields are 0, and the examples by evaluation. -/
theorem canonicalWordsFollowTheFormats : Obligations.CanonicalWordsFollowTheFormats := by
  refine ⟨fun t0 => ?one, fun t0 t1 => ?two, fun t0 t1 t2 => ?three, fun t0 t1 t2 t3 => ?four,
    fun t0 t1 t2 t3 t4 => ?five, by decide⟩
  all_goals rw [formatBWord_eq, encode, encodeFormatB]
  case one => rw [← encodeTaps_append_zeros [t0] 4]; rfl
  case two => rw [← encodeTaps_append_zeros [t0, t1] 3]; rfl
  case three => rw [← encodeTaps_append_zeros [t0, t1, t2] 2]; rfl
  case four => rw [← encodeTaps_append_zeros [t0, t1, t2, t3] 1]; rfl
  case five => rfl

/-- Settles O2, by evaluating the decoder at each word. -/
theorem writtenOutWordsDecode : Obligations.WrittenOutWordsDecode := by
  unfold Obligations.WrittenOutWordsDecode
  decide

/-- Settles O7: a step of the block with a command in progress. -/
theorem stepRunsTheCommandInProgress : Obligations.StepRunsTheCommandInProgress := fun _ _ => step_of_blockRuns

end Sys2Proof.Machine

/-! PROOFS. The polynomial builder and the ROM (40_polynomial.md): the bitmask of a list of taps, the words that build one, and
the table. -/

namespace Sys2Proof.Machine

/-! ### Highest set bit and number of set bits -/

/-- A word with a bit set is nonzero. -/
theorem ne_zero_of_getLsbD {p : Word} {i : Nat} (h : p.getLsbD i = true) : p ≠ 0#32 := by
  rintro rfl
  simp at h

/-- The highest set bit of a nonzero word is set (00_scope.md R12). -/
theorem getLsbD_hsb {p : Word} {i : Nat} (h : p.getLsbD i = true) : p.getLsbD (hsb p) = true :=
  hsbBelow_set p 32 i (BitVec.lt_of_getLsbD h) h

/-- No set bit lies above the highest. -/
theorem le_hsb {p : Word} {i : Nat} (h : p.getLsbD i = true) : i ≤ hsb p := by
  by_contra hi
  simp [hsbBelow_above p 32 i (Nat.lt_of_not_le hi) (BitVec.lt_of_getLsbD h)] at h

/-- A set bit with every bit above it clear is the highest. -/
theorem hsb_eq_of_getLsbD {p : Word} {k : Nat} (h : p.getLsbD k = true) (habove : p >>> (k + 1) = 0#32) : hsb p = k := by
  refine Nat.le_antisymm ?_ (le_hsb h)
  by_contra hk
  have hclear := (shiftRight_eq_zero_iff p (k + 1)).1 habove (hsb p) (by omega)
  simp [getLsbD_hsb h] at hclear

/-- The set bits of a word (00_scope.md R13). -/
def setBits (p : Word) : Finset Nat := (Finset.range 32).filter fun i => p.getLsbD i = true

theorem popcountBelow_eq_card (p : Word) (n : Nat) :
    popcountBelow p n = ((Finset.range n).filter fun i => p.getLsbD i = true).card := by
  induction n with
  | zero => rfl
  | succ n ih =>
    rw [popcountBelow, ih, Finset.range_add_one, Finset.filter_insert]
    cases h : p.getLsbD n <;> simp

theorem popcount_eq_card_setBits (p : Word) : popcount p = (setBits p).card := popcountBelow_eq_card p 32

/-! ### The bitmask of a list of taps -/

/-- The set bits of the taps' bitmask are the taps, in whatever order and however often (40_polynomial.md R100, R101). -/
theorem tapMask_getLsbD (taps : List Nat) {b : Nat} (hb : b < 32) : (tapMask taps).getLsbD b = true ↔ b ∈ taps := by
  induction taps with
  | nil => simp [tapMask]
  | cons t ts ih =>
    rw [tapMask, BitVec.getLsbD_or, Bool.or_eq_true, ih, List.mem_cons, ← BitVec.twoPow_eq, BitVec.getLsbD_twoPow]
    refine or_congr_left ?_
    simp only [Bool.and_eq_true, decide_eq_true_eq]
    omega

/-- The taps that fit a word, without repetition, are the set bits of their bitmask. -/
theorem setBits_tapMask {taps : List Nat} (hfit : ∀ t ∈ taps, t < 32) : setBits (tapMask taps) = taps.toFinset := by
  ext b
  simp only [setBits, Finset.mem_filter, Finset.mem_range, List.mem_toFinset]
  constructor
  · rintro ⟨hb, hset⟩
    exact (tapMask_getLsbD taps hb).1 hset
  · intro hmem
    exact ⟨hfit b hmem, (tapMask_getLsbD taps (hfit b hmem)).2 hmem⟩

/-- A tap not among the others meets none of their bits. -/
theorem shiftedOne_and_tapMask {t : Nat} {ts : List Nat} (ht : t ∉ ts) : (1#32 <<< t) &&& tapMask ts = 0#32 := by
  apply BitVec.eq_of_getLsbD_eq
  intro b hb
  rw [BitVec.getLsbD_and, ← BitVec.twoPow_eq, BitVec.getLsbD_twoPow, BitVec.getLsbD_zero, Bool.and_eq_false_iff]
  by_cases h : t = b
  · subst h
    exact .inr (Bool.eq_false_iff.2 (mt (tapMask_getLsbD ts hb).1 ht))
  · simp [h]

/-- For distinct taps the bitmask is the sum of the powers of two (40_polynomial.md R102). -/
theorem tapMask_toNat {taps : List Nat} (hfit : ∀ t ∈ taps, t < 32) (hnodup : taps.Nodup) :
    (tapMask taps).toNat = (taps.map fun e => 2 ^ e).sum := by
  induction taps with
  | nil => rfl
  | cons t ts ih =>
    obtain ⟨ht, hts⟩ := List.forall_mem_cons.1 hfit
    obtain ⟨hmem, hnodup⟩ := List.nodup_cons.1 hnodup
    have hdisjoint := shiftedOne_and_tapMask hmem
    rw [tapMask, ← BitVec.add_eq_or_of_and_eq_zero _ _ hdisjoint, BitVec.toNat_add_of_and_eq_zero hdisjoint,
      one_shiftLeft_toNat t ht, ih hts hnodup, List.map_cons, List.sum_cons]

/-! ### BUILDPOLY -/

/-- A BUILDPOLY of any number of taps answers the bitmask of its taps (40_polynomial.md R100). -/
theorem exec_buildpoly {i : Instr} (h : i.opcode = 1) (s : State) : exec i s = .next (returnValue (tapMask i.taps) s) := by
  cases i with
  | buildpoly1 | buildpoly2 | buildpoly3 | buildpoly4 | buildpoly5 => rfl
  | mlpoly | statesize | init | reset | generate => simp [Instr.opcode] at h

/-- A BUILDPOLY has at least one tap (40_polynomial.md R100). -/
theorem exists_mem_taps {i : Instr} (h : i.opcode = 1) : ∃ t, t ∈ i.taps := by
  cases i <;> simp_all [Instr.opcode, Instr.taps]

/-- A word with OP = 0x1 and CNT in 1..5 is a BUILDPOLY of CNT taps, the values of its fields (30_encoding.md R72). -/
theorem decode_buildpoly {w : Word} (hop : opField w = 1) (hlo : 1 ≤ cntField w) (hhi : cntField w ≤ 5) :
    ∃ i, decode w = .ok i ∧ i.opcode = 1 ∧ i.taps = (List.range (cntField w)).map (tapField w) := by
  cases hd : decode w with
  | error e =>
    have := (decode_error_iff w).1 ⟨e, hd⟩
    omega
  | ok i =>
    obtain ⟨hi, hcnt⟩ := (matchesRow_iff w i).1 (matchesRow_of_decode hd).1
    have hone : i.opcode = 1 := hi.symm.trans hop
    exact ⟨i, rfl, hone, by rw [hcnt hone, ← decode_taps hd]⟩

/-- The block's turn with a BUILDPOLY in progress completes it. -/
theorem step_of_blockRuns_buildpoly {s : State} {i : Instr} (h : BlockRuns s) (hd : decode s.lcmd = .ok i)
    (hi : i.opcode = 1) : step s = .next (returnValue (tapMask i.taps) (blockStarts s)) :=
  (step_of_blockRuns h hd).trans (exec_buildpoly hi _)

/-- Settles O11: the answer is the bitmask of the taps, whose set bits are the taps. -/
theorem buildpolyCompletesWithTheTapsSet : Obligations.BuildpolyCompletesWithTheTapsSet := fun i s hi _ =>
  ⟨tapMask i.taps, exec_buildpoly hi s, fun _ => tapMask_getLsbD i.taps⟩

/-- Settles O10: OP and CNT decide whether the word decodes, and its taps are its fields. -/
theorem buildpolyWordSetsExactlyItsTapBits : Obligations.BuildpolyWordSetsExactlyItsTapBits := by
  have hopField : ∀ w : Word, opField w = fieldValue w 0 4 := fun w => field_toNat w 0 4
  have hcntField : ∀ w : Word, cntField w = fieldValue w 4 3 := fun w => field_toNat w 4 3
  have htapField : ∀ (w : Word) (j : Nat), tapField w j = fieldValue w (7 + 5 * j) 5 := fun w j => field_toNat w _ 5
  simp only [Obligations.BuildpolyWordSetsExactlyItsTapBits, ← hopField, ← hcntField, ← htapField]
  refine ⟨fun s hs hop hlo hhi => ?legal, fun s hs hop hcnt => ?illegal, fun s hs hw => ?worked⟩
  case legal =>
    obtain ⟨i, hd, hi, htaps⟩ := decode_buildpoly hop hlo hhi
    refine ⟨tapMask i.taps, step_of_blockRuns_buildpoly hs hd hi, fun b hb => ?_⟩
    rw [tapMask_getLsbD i.taps hb, htaps]
    simp only [List.mem_map, List.mem_range]
  case illegal =>
    have hlt : cntField s.lcmd < 8 := (s.lcmd.extractLsb' 4 3).isLt
    obtain ⟨e, hd⟩ := (decode_error_iff s.lcmd).2 (.inr (.inr ⟨hop, by omega⟩))
    exact step_of_blockRuns_illegal hs hd
  case worked =>
    have hd : decode s.lcmd = .ok (.buildpoly3 3 2 0) := by rw [hw]; decide
    have hmask : tapMask [3, 2, 0] = 13#32 := by decide
    rw [step_of_blockRuns_buildpoly hs hd rfl, Instr.taps, hmask]
    rfl

/-- Settles O12: the set bits are the taps without repetition, so their number, sum and largest are the taps' own. -/
theorem buildpolyResultLaws : Obligations.BuildpolyResultLaws := by
  intro i s hi hfit
  have hset : ∀ e ∈ i.taps, (tapMask i.taps).getLsbD e = true := fun e he => (tapMask_getLsbD _ (hfit e he)).2 he
  have hcount : popcount (tapMask i.taps) = i.taps.toFinset.card := by rw [popcount_eq_card_setBits, setBits_tapMask hfit]
  obtain ⟨t, ht⟩ := exists_mem_taps hi
  refine ⟨_, exec_buildpoly hi s, ?_⟩
  rw [returnValue_result, hcount]
  refine ⟨ne_zero_of_getLsbD (hset t ht), List.toFinset_card_le _, ?distinct, tapMask_toNat hfit,
    (tapMask_getLsbD _ (hsb_lt _)).1 (getLsbD_hsb (hset t ht)), fun e he => le_hsb (hset e he)⟩
  case distinct => exact Multiset.toFinset_card_eq_card_iff_nodup (m := (i.taps : Multiset Nat))

/-! ### MLPOLY and the ROM -/

/-- MLPOLY answers what the ROM holds for LARG0 (40_polynomial.md R103). -/
theorem exec_mlpoly (s : State) : exec .mlpoly s = .next (returnValue (mlLookup s.larg0) s) := rfl

theorem mlLookup_of_mem {o : Word} (h : 3 ≤ o.toNat ∧ o.toNat ≤ 31) : mlLookup o = mlTable o.toNat := if_pos h

theorem mlLookup_of_notMem {o : Word} (h : ¬ (3 ≤ o.toNat ∧ o.toNat ≤ 31)) : mlLookup o = 0#32 := if_neg h

/-- Every ROM entry has the bits of its order and of the constant term set, and none above its order (40_polynomial.md R105). -/
theorem mlTable_bits : ∀ o < 32, 3 ≤ o →
    (mlTable o).getLsbD o = true ∧ (mlTable o).getLsbD 0 = true ∧ mlTable o >>> (o + 1) = 0#32 := by decide

/-- The register 1 feeds back the constant term (41_engine.md R121). -/
theorem feedback_one (p : Word) : feedback 1#32 p = p.getLsbD 0 := by
  have hand : 1#32 &&& p = bitWord (p.getLsbD 0) := by
    apply BitVec.eq_of_getLsbD_eq
    intro i _
    rw [BitVec.getLsbD_and, BitVec.getLsbD_one, bitWord_getLsbD]
    by_cases hi : i = 0 <;> simp [hi]
  rw [feedback, hand]
  cases p.getLsbD 0 <;> decide

/-- Settles O13: an order within the table, one outside it, and `MLPOLY 3`. -/
theorem mlpolyLooksUpTheOrder : Obligations.MlpolyLooksUpTheOrder := by
  refine ⟨fun s hlo hhi => ?_, fun s h => ?_, fun s h => ?_⟩
  · rw [exec_mlpoly, mlLookup_of_mem ⟨hlo, hhi⟩]
    rfl
  · rw [exec_mlpoly, mlLookup_of_notMem h]
    rfl
  · have hthree : mlLookup s.larg0 = 13#32 := by rw [h]; decide
    rw [exec_mlpoly, hthree]
    rfl

/-- Settles O14: each entry by its bits, so MLPOLY answers 0 only outside the table; and without the constant term the
register 1 feeds back 0. -/
theorem romEntriesObeyTheirLaws : Obligations.RomEntriesObeyTheirLaws := by
  refine ⟨fun o hlo hhi => ?entry, fun s => ⟨_, exec_mlpoly s, ?answer⟩, fun p k hp => ?advance⟩
  case entry =>
    obtain ⟨htop, hconst, habove⟩ := mlTable_bits o (by omega) hlo
    exact ⟨ne_zero_of_getLsbD hconst, hsb_eq_of_getLsbD htop habove, habove, hconst⟩
  case answer =>
    rw [returnValue_result]
    by_cases h : 3 ≤ s.larg0.toNat ∧ s.larg0.toNat ≤ 31
    · obtain ⟨-, hconst, -⟩ := mlTable_bits s.larg0.toNat (by omega) h.1
      simp [mlLookup_of_mem h, ne_zero_of_getLsbD hconst, h]
    · simp [mlLookup_of_notMem h, h]
  case advance =>
    rw [advance, feedback_one, hp]
    simp [bitWord]

end Sys2Proof.Machine

/-! PROOFS. The single-bit advance as a linear map of the registers of `k` bits, and the bits it emits (41_engine.md sections 1
and 7). -/

namespace Sys2Proof.Machine

/-! ### The bits of the advanced register -/

/-- The feedback of a register within `k` bits is the XOR of its tapped bits below `k` (41_engine.md R121). -/
theorem feedback_eq_tapXor {r : Word} {k : Nat} (hk : k ≤ 32) (hr : r >>> k = 0#32) (p : Word) :
    feedback r p = tapXor r p k := by
  have hclear : ∀ i, k ≤ i → (r &&& p).getLsbD i = false := fun i hi => by
    simp [(shiftRight_eq_zero_iff r k).1 hr i hi]
  rw [feedback, parity, xorBelow_of_clear_above hk hclear, xorBelow_eq_foldl, tapXor, List.foldl_map]
  simp only [BitVec.getLsbD_and]

/-- A register within `k` bits shifts down, and the feedback takes bit `k - 1` (41_engine.md R122). -/
theorem advance_getLsbD_of_fits {r : Word} {k : Nat} (hk : 1 ≤ k) (hk31 : k ≤ 31) (hr : r >>> k = 0#32) (p : Word)
    (i : Nat) : (advance r p k).getLsbD i = if i + 1 = k then feedback r p else r.getLsbD (i + 1) := by
  rw [advance_getLsbD r p k i hk (by omega)]
  split
  case isTrue h => simp [h, (shiftRight_eq_zero_iff r k).1 hr k (Nat.le_refl k)]
  case isFalse h => simp [h]

/-- Settles O15: the feedback as the XOR of the tapped bits, and the bits of the advanced register. -/
theorem advanceShiftsAndInsertsTheTapXor : Obligations.AdvanceShiftsAndInsertsTheTapXor := by
  refine ⟨fun r p => feedback_eq_tapXor (Nat.le_refl 32) (BitVec.ushiftRight_eq_zero (Nat.le_refl 32)) p,
    fun r p k hk hk31 hr => ?_⟩
  have hfeedback := feedback_eq_tapXor (by omega) hr p
  refine ⟨hfeedback, ?_, fun i => ?_, advance_fits r p k hk (by omega) hr⟩
  · rw [BitVec.getLsbD_ushiftRight]
    exact (shiftRight_eq_zero_iff r k).1 hr _ (by omega)
  · rw [advance_getLsbD_of_fits hk hk31 hr, hfeedback]

/-- A register of one bit is its bit 0. -/
theorem eq_bitWord_of_fits_one {r : Word} (hr : r >>> 1 = 0#32) : r = bitWord (r.getLsbD 0) := by
  refine eq_of_low_bits r _ 1 hr ?_ fun i hi => ?_
  · cases r.getLsbD 0 <;> decide
  · obtain rfl : i = 0 := by omega
    rw [bitWord_getLsbD]
    exact (Bool.and_true _).symm

theorem tapXor_one (r p : Word) : tapXor r p 1 = (r.getLsbD 0 && p.getLsbD 0) := by simp [tapXor]

/-- At order 1 the register becomes its bit 0 if that is tapped, else 0 (41_engine.md R124). -/
theorem advance_order_one {r : Word} (hr : r >>> 1 = 0#32) (p : Word) :
    advance r p 1 = bitWord (r.getLsbD 0 && p.getLsbD 0) := by
  rw [eq_bitWord_of_fits_one (advance_fits r p 1 (by omega) (by omega) hr),
    advance_getLsbD_of_fits (by omega) (by omega) hr, if_pos rfl, feedback_eq_tapXor (by omega) hr, tapXor_one]

/-- Settles O16: each corner case from the bits of the advanced register. -/
theorem advanceCornerCases : Obligations.AdvanceCornerCases := by
  obtain ⟨-, -, hone⟩ := romEntriesObeyTheirLaws
  refine ⟨fun p k => ⟨advance_zero p k, rfl⟩, fun r p hr => advance_order_one hr p, fun r hr => ⟨?keeps, ?clears⟩,
    fun r p hp => ?untapped, hone, fun r p n hr => ?bit31, fun r p hr => ?bit30, by decide, rfl⟩
  case keeps =>
    rw [advance_order_one hr]
    simpa using (eq_bitWord_of_fits_one hr).symm
  case clears =>
    rw [advance_order_one hr]
    simp [bitWord]
  case untapped =>
    have hand : r &&& p = r &&& ~~~1#32 &&& p := by
      apply BitVec.eq_of_getLsbD_eq
      intro i hi
      rw [BitVec.getLsbD_and, BitVec.getLsbD_and, BitVec.getLsbD_and, BitVec.getLsbD_not, BitVec.getLsbD_one]
      cases i with
      | zero => rw [hp, Bool.and_false, Bool.and_false]
      | succ i => simp [hi]
    rw [feedback, feedback, ← hand]
  case bit31 =>
    exact (shiftRight_eq_zero_iff _ 31).1 (advanceTimes_fits p 31 n (by omega) (by omega) r hr) 31 (Nat.le_refl 31)
  case bit30 => rw [advance_getLsbD_of_fits (by omega) (by omega) hr, if_pos rfl]

/-! ### The emitted bits -/

/-- The emitted bits, one after the other (41_engine.md R137). -/
theorem outputBits_eq_map (p : Word) (k n : Nat) (r : Word) : outputBits p k n r = (List.range n).map (outputBit p k r) := by
  induction n with
  | zero => rfl
  | succ n ih => rw [outputBits_succ, ih, List.range_succ, List.map_append]; rfl

/-- Bit `i` of the register is the bit emitted `i` advances later (41_engine.md R137). -/
theorem advanceTimes_getLsbD {r : Word} {k : Nat} (hk31 : k ≤ 31) (hr : r >>> k = 0#32) (p : Word) {i : Nat} (hi : i < k) :
    ∀ j, (advanceTimes p k j r).getLsbD i = outputBit p k r (j + i) := by
  induction i with
  | zero => exact fun j => rfl
  | succ i ih =>
    intro j
    have hfits := advanceTimes_fits p k j (by omega) (by omega) r hr
    have hshift := advance_getLsbD_of_fits (by omega) hk31 hfits p i
    rw [if_neg (by omega)] at hshift
    rw [← hshift, ← advanceTimes_succ, ih (by omega), Nat.add_right_comm]
    rfl

/-- Settles O17: the emitted bits by their index, and the register's bits as bits still to come. -/
theorem registerHoldsTheNextOutputBits : Obligations.RegisterHoldsTheNextOutputBits := by
  refine fun p r k _ hk31 hr => ⟨fun n j hj => ?_, fun j i hi => advanceTimes_getLsbD hk31 hr p hi j⟩
  rw [outputBits_eq_map, List.getElem?_map, List.getElem?_range hj]
  rfl

/-- Settles O18: the bit emitted `k` advances later is the feedback of the next register's predecessor, whose bits are the bits
emitted before it. -/
theorem outputObeysTheRecurrence : Obligations.OutputObeysTheRecurrence := by
  intro p r k hk hk31 hr j
  have hfits := advanceTimes_fits p k j hk (by omega) r hr
  calc outputBit p k r (j + k) = (advanceTimes p k (j + 1) r).getLsbD (k - 1) := by
        rw [advanceTimes_getLsbD hk31 hr p (by omega), Nat.add_assoc, Nat.add_sub_cancel' hk]
    _ = tapXor (advanceTimes p k j r) p k := by
        rw [advanceTimes_succ, advance_getLsbD_of_fits hk hk31 hfits, if_pos (by omega), feedback_eq_tapXor (by omega) hfits]
    _ = _ := by
        refine congrArg (List.foldl Bool.xor false) (List.map_congr_left fun i hi => ?_)
        rw [advanceTimes_getLsbD hk31 hr p (List.mem_range.1 hi), Bool.and_comm]

/-! ### The advance as a linear map -/

theorem xor_fits {r t : Word} {k : Nat} (hr : r >>> k = 0#32) (ht : t >>> k = 0#32) : (r ^^^ t) >>> k = 0#32 := by
  rw [BitVec.ushiftRight_xor_distrib, hr, ht, BitVec.xor_self]

theorem xorBelow_xor (x y : Word) (n : Nat) : xorBelow (x ^^^ y) n = (xorBelow x n ^^ xorBelow y n) := by
  induction n with
  | zero => rfl
  | succ n ih => simp [xorBelow, ih, Bool.xor_left_comm]

theorem feedback_xor (r t p : Word) : feedback (r ^^^ t) p = (feedback r p ^^ feedback t p) := by
  have hand : (r ^^^ t) &&& p = (r &&& p) ^^^ (t &&& p) := by
    apply BitVec.eq_of_getLsbD_eq
    intro i _
    simp [Bool.and_xor_distrib_right]
  rw [feedback, hand, parity, xorBelow_xor]
  rfl

/-- The advance is linear on the registers of `k` bits. -/
theorem advance_xor {r t : Word} {k : Nat} (hk : 1 ≤ k) (hk31 : k ≤ 31) (hr : r >>> k = 0#32) (ht : t >>> k = 0#32)
    (p : Word) : advance (r ^^^ t) p k = advance r p k ^^^ advance t p k := by
  apply BitVec.eq_of_getLsbD_eq
  intro i _
  rw [BitVec.getLsbD_xor, advance_getLsbD_of_fits hk hk31 (xor_fits hr ht), advance_getLsbD_of_fits hk hk31 hr,
    advance_getLsbD_of_fits hk hk31 ht]
  split
  · exact feedback_xor r t p
  · exact BitVec.getLsbD_xor

/-- With bit 0 of the polynomial set only the register 0 advances to 0 (41_engine.md R142). -/
theorem eq_zero_of_advance_eq_zero {r p : Word} {k : Nat} (hk : 1 ≤ k) (hk31 : k ≤ 31) (hp : p.getLsbD 0 = true)
    (hr : r >>> k = 0#32) (h : advance r p k = 0#32) : r = 0#32 := by
  have hbits : ∀ i, (if i + 1 = k then feedback r p else r.getLsbD (i + 1)) = false := fun i => by
    rw [← advance_getLsbD_of_fits hk hk31 hr, h, BitVec.getLsbD_zero]
  have hfits : r >>> 1 = 0#32 := by
    refine (shiftRight_eq_zero_iff r 1).2 fun i hi => ?_
    by_cases hik : i < k
    · simpa [Nat.sub_add_cancel hi, Nat.ne_of_lt hik] using hbits (i - 1)
    · exact (shiftRight_eq_zero_iff r k).1 hr i (by omega)
  have htap := hbits (k - 1)
  rw [if_pos (Nat.sub_add_cancel hk), feedback_eq_tapXor (by omega) hfits, tapXor_one, hp, Bool.and_true] at htap
  rw [eq_bitWord_of_fits_one hfits, htap]
  rfl

/-- With bit 0 of the polynomial set the advance is injective on the registers of `k` bits (41_engine.md R142). -/
theorem advance_injective {r t p : Word} {k : Nat} (hk : 1 ≤ k) (hk31 : k ≤ 31) (hp : p.getLsbD 0 = true)
    (hr : r >>> k = 0#32) (ht : t >>> k = 0#32) (h : advance r p k = advance t p k) : r = t := by
  refine BitVec.xor_eq_zero_iff.1 (eq_zero_of_advance_eq_zero hk hk31 hp (xor_fits hr ht) ?_)
  rw [advance_xor hk hk31 hr ht, h, BitVec.xor_self]

/-- The advance as a map of the registers of `k` bits to themselves (41_engine.md R122). -/
def advanceFits (p : Word) {k : Nat} (hk : 1 ≤ k) (hk31 : k ≤ 31) (r : {r : Word // r >>> k = 0#32}) :
    {r : Word // r >>> k = 0#32} :=
  ⟨advance r.1 p k, advance_fits r.1 p k hk (by omega) r.2⟩

/-- With bit 0 of the polynomial set no number of advances takes a nonzero register to 0 (41_engine.md R142). -/
theorem advanceTimes_ne_zero {p : Word} {k : Nat} (hk : 1 ≤ k) (hk31 : k ≤ 31) (hp : p.getLsbD 0 = true) (n : Nat) :
    ∀ r : Word, r >>> k = 0#32 → r ≠ 0#32 → advanceTimes p k n r ≠ 0#32 := by
  induction n with
  | zero => exact fun r _ h => h
  | succ n ih =>
    intro r hr h
    exact ih _ (advance_fits r p k hk (by omega) hr) (mt (eq_zero_of_advance_eq_zero hk hk31 hp hr) h)

/-- The register 0 emits zeros only (41_engine.md R142). -/
theorem advance_zero_times (p : Word) (k n : Nat) :
    advanceTimes p k n 0#32 = 0#32 ∧ outputBits p k n 0#32 = List.replicate n false := by
  induction n with
  | zero => exact ⟨rfl, rfl⟩
  | succ n ih =>
    obtain ⟨hregister, hbits⟩ := ih
    rw [advanceTimes, outputBits, advance_zero, hregister, hbits]
    exact ⟨rfl, rfl⟩

/-- Settles O19: an injective map of a finite set to itself is a bijection. -/
theorem zeroRegisterIsFixedAndNeverReached : Obligations.ZeroRegisterIsFixedAndNeverReached := by
  refine ⟨advance_zero_times, fun p k hk hk31 hp => ⟨fun r => advance_fits r p k hk (by omega), fun t ht => ?_,
    fun r n => advanceTimes_ne_zero hk hk31 hp n r⟩⟩
  have hinj : Function.Injective (advanceFits p hk hk31) := fun r t h =>
    Subtype.ext (advance_injective hk hk31 hp r.2 t.2 (congrArg Subtype.val h))
  obtain ⟨⟨r, hr⟩, hrt⟩ := Finite.surjective_of_injective hinj ⟨t, ht⟩
  have hadvance : advance r p k = t := congrArg Subtype.val hrt
  exact ⟨r, hr, hadvance, fun r' hr' h => advance_injective hk hk31 hp hr' hr (h.trans hadvance.symm)⟩

/-! ### Periods -/

/-- Advances are iterates of the single-bit advance. -/
theorem advanceTimes_eq_iterate (p : Word) (k n : Nat) (r : Word) :
    advanceTimes p k n r = (fun r => advance r p k)^[n] r := by
  induction n generalizing r with
  | zero => rfl
  | succ n ih => exact ih _

/-- Settles O27: a register that returns is a periodic point of the advance; the register 1 of `p = 13` returns after 7. -/
theorem preShiftCountsModuloThePeriod : Obligations.PreShiftCountsModuloThePeriod := by
  have hmod : ∀ (p r : Word) (k period n : Nat), advanceTimes p k period r = r →
      advanceTimes p k n r = advanceTimes p k (n % period) r := by
    intro p r k period n h
    rw [advanceTimes_eq_iterate] at h
    rw [advanceTimes_eq_iterate, advanceTimes_eq_iterate]
    exact (Function.IsPeriodicPt.iterate_mod_apply h n).symm
  refine ⟨fun p r k period n _ => hmod p r k period n, ?_⟩
  rw [hmod 13#32 1#32 3 7 _ (by decide +kernel)]
  decide +kernel

/-- The emitted bits of a register that returns after `m` advances repeat. -/
theorem outputBits_mul_of_returns {p r : Word} {k m : Nat} (h : advanceTimes p k m r = r) (n : Nat) :
    advanceTimes p k (m * n) r = r ∧ outputBits p k (m * n) r = (List.replicate n (outputBits p k m r)).flatten := by
  induction n with
  | zero => exact ⟨rfl, rfl⟩
  | succ n ih =>
    obtain ⟨hregister, hbits⟩ := ih
    rw [Nat.mul_succ, Nat.add_comm, advanceTimes_add, outputBits_add, h, hregister, hbits]
    exact ⟨rfl, rfl⟩

/-- Settles O22: with `p = 15` the register 1 returns after 4 advances, with `p = 3` after 1, and with `p = 2` it goes to 0. -/
theorem nonMaximalPolynomialsRunByTheSameRules : Obligations.NonMaximalPolynomialsRunByTheSameRules := by
  refine ⟨fun n => ?_, fun n => ?_, fun n => ?_⟩
  · have hperiod := outputBits_mul_of_returns (p := 15#32) (r := 1#32) (k := 3) (m := 4) (by decide +kernel) n
    rwa [show outputBits 15#32 3 4 1#32 = [true, false, false, true] by decide +kernel] at hperiod
  · obtain ⟨-, hbits⟩ := advance_zero_times 2#32 1 n
    rw [outputBits, show advance 1#32 2#32 1 = 0#32 by decide, hbits]
    rfl
  · obtain ⟨-, hbits⟩ := outputBits_mul_of_returns (p := 3#32) (r := 1#32) (k := 1) (m := 1) (by decide) n
    rw [Nat.one_mul] at hbits
    rw [hbits]
    simp [outputBits, departing]

end Sys2Proof.Machine

/-! PROOFS. The polynomials of the ROM are primitive: a polynomial acts on the registers by its value at the advance, the ROM's
own acts as 0, and so powers of the advance are powers of X modulo it, which are computed (41_engine.md section 7, R140). -/

namespace Sys2Proof.Machine

/-! ### Polynomials over the two-element field at the advance -/

/-- A register times a coefficient. -/
def scale (b : Bool) (r : Word) : Word := bif b then r else 0#32

@[simp] theorem scale_getLsbD (b : Bool) (r : Word) (i : Nat) : (scale b r).getLsbD i = (b && r.getLsbD i) := by
  cases b <;> simp [scale]

@[simp] theorem scale_false (r : Word) : scale false r = 0#32 := rfl

@[simp] theorem scale_true (r : Word) : scale true r = r := rfl

theorem scale_xor (a b : Bool) (r : Word) : scale (a ^^ b) r = scale a r ^^^ scale b r := by
  cases a <;> cases b <;> simp

theorem scale_fits {r : Word} {k : Nat} (hr : r >>> k = 0#32) (b : Bool) : scale b r >>> k = 0#32 := by
  cases b
  · exact BitVec.zero_ushiftRight
  · exact hr

/-- The polynomial of the coefficients `c[0]` to `c[n-1]`, with the advance for its unknown, applied to the register `r`. -/
def evalPoly (p : Word) (k : Nat) : Nat → Nat → Word → Word
  | 0, _, _ => 0#32
  | n + 1, c, r => evalPoly p k n c r ^^^ scale (c.testBit n) (advanceTimes p k n r)

@[simp] theorem evalPoly_zero (p : Word) (k n : Nat) (r : Word) : evalPoly p k n 0 r = 0#32 := by
  induction n with
  | zero => rfl
  | succ n ih => simp [evalPoly, ih]

theorem evalPoly_xor (p : Word) (k n c d : Nat) (r : Word) :
    evalPoly p k n (c ^^^ d) r = evalPoly p k n c r ^^^ evalPoly p k n d r := by
  induction n with
  | zero => exact (BitVec.xor_self (x := 0#32)).symm
  | succ n ih =>
    simp only [evalPoly, ih, Nat.testBit_xor, scale_xor]
    ac_rfl

/-- The constant term may be split off instead of the leading one. -/
theorem evalPoly_succ (p : Word) (k n c : Nat) (r : Word) :
    evalPoly p k (n + 1) c r = scale (c.testBit 0) r ^^^ evalPoly p k n (c / 2) (advance r p k) := by
  induction n with
  | zero => simp [evalPoly]
  | succ n ih =>
    rw [evalPoly, ih, BitVec.xor_assoc, Nat.testBit_succ]
    rfl

/-- The polynomial 1 acts as the identity. -/
theorem evalPoly_one {k : Nat} (hk : 1 ≤ k) (p r : Word) : evalPoly p k k 1 r = r := by
  obtain ⟨m, rfl⟩ : ∃ m, k = m + 1 := ⟨k - 1, by omega⟩
  rw [evalPoly_succ]
  simp

/-- Each bit of the value, as the XOR over the coefficients. -/
theorem evalPoly_getLsbD (p : Word) (k n c : Nat) (r : Word) (l : Nat) : (evalPoly p k n c r).getLsbD l =
    ((List.range n).map fun i => c.testBit i && (advanceTimes p k i r).getLsbD l).foldl Bool.xor false := by
  induction n with
  | zero => exact BitVec.getLsbD_zero
  | succ n ih =>
    rw [evalPoly, BitVec.getLsbD_xor, ih, scale_getLsbD, List.range_succ, List.map_append, List.foldl_append]
    rfl

section
variable {p : Word} {k : Nat} (hk : 1 ≤ k) (hk31 : k ≤ 31)
include hk hk31

theorem evalPoly_fits (n c : Nat) {r : Word} (hr : r >>> k = 0#32) : evalPoly p k n c r >>> k = 0#32 := by
  induction n with
  | zero => exact BitVec.zero_ushiftRight
  | succ n ih => exact xor_fits ih (scale_fits (advanceTimes_fits p k n hk (by omega) r hr) _)

/-- A polynomial at the advance commutes with the advance. -/
theorem evalPoly_advance (n c : Nat) {r : Word} (hr : r >>> k = 0#32) :
    evalPoly p k n c (advance r p k) = advance (evalPoly p k n c r) p k := by
  induction n with
  | zero => exact (advance_zero p k).symm
  | succ n ih =>
    have hpower := advanceTimes_fits p k n hk (by omega) r hr
    rw [evalPoly, evalPoly, ih, advance_xor hk hk31 (evalPoly_fits hk hk31 n c hr) (scale_fits hpower _)]
    congr 1
    cases c.testBit n
    · exact (advance_zero p k).symm
    · exact advanceTimes_succ p k n r

/-- The advance is a root of its own polynomial, which is the recurrence of R141 for each bit of the register. -/
theorem evalPoly_self (hp : p.getLsbD k = true) {r : Word} (hr : r >>> k = 0#32) :
    evalPoly p k (k + 1) p.toNat r = 0#32 := by
  refine eq_zero_of_low_bits _ k (evalPoly_fits hk hk31 _ _ hr) fun l hl => ?_
  have hlower : (evalPoly p k k p.toNat r).getLsbD l = outputBit p k r (l + k) := by
    rw [evalPoly_getLsbD, outputObeysTheRecurrence p r k hk hk31 hr l]
    refine congrArg (List.foldl Bool.xor false) (List.map_congr_left fun i _ => ?_)
    rw [BitVec.testBit_toNat, advanceTimes_getLsbD hk31 hr p hl, Nat.add_comm]
  rw [evalPoly, BitVec.getLsbD_xor, hlower, scale_getLsbD, BitVec.testBit_toNat, hp, advanceTimes_getLsbD hk31 hr p hl,
    Nat.add_comm k l, Bool.true_and, Bool.xor_self]

end

/-! ### Arithmetic modulo the polynomial -/

/-- X times the polynomial `c`, modulo the polynomial `p` of degree `k`. -/
def timesX (p k c : Nat) : Nat := 2 * c ^^^ p * (2 * c / 2 ^ k % 2)

/-- The polynomial of the coefficients `a[0]` to `a[n-1]` times `c`, modulo `p`. -/
def mulMod (p k c : Nat) : Nat → Nat → Nat
  | 0, _ => 0
  | n + 1, a => a % 2 * c ^^^ timesX p k (mulMod p k c n (a / 2))

/-- The square of the polynomial `c`, modulo `p`. -/
def squareMod (p k c : Nat) : Nat := mulMod p k c k c

/-- The power `X ^ n`, modulo `p`, for `n < 2 ^ f`. -/
def powX (p k : Nat) : Nat → Nat → Nat
  | 0, _ => 1
  | f + 1, n => bif n % 2 == 1 then timesX p k (squareMod p k (powX p k f (n / 2))) else squareMod p k (powX p k f (n / 2))

/-- X times `c` is `2 * c`, less `p` where that has degree `k`. -/
theorem timesX_cases (p k c : Nat) :
    ((2 * c).testBit k = false ∧ timesX p k c = 2 * c) ∨ ((2 * c).testBit k = true ∧ timesX p k c = 2 * c ^^^ p) := by
  unfold timesX
  rw [Nat.testBit_eq_decide_div_mod_eq]
  rcases Nat.mod_two_eq_zero_or_one (2 * c / 2 ^ k) with h | h <;> simp [h]

section
variable {p : Word} {k : Nat} (hk : 1 ≤ k) (hk31 : k ≤ 31) (hp : p.getLsbD k = true)
include hk hk31 hp

/-- Reduced multiplication by X acts as one advance. -/
theorem evalPoly_timesX (c : Nat) {r : Word} (hr : r >>> k = 0#32) :
    evalPoly p k k (timesX p.toNat k c) r = evalPoly p k k c (advance r p k) := by
  have hdouble : evalPoly p k (k + 1) (2 * c) r = evalPoly p k k c (advance r p k) := by
    rw [evalPoly_succ, Nat.testBit_zero, Nat.mul_div_cancel_left c (by omega)]
    simp
  have hreduced : evalPoly p k (k + 1) (timesX p.toNat k c) r = evalPoly p k k c (advance r p k) := by
    rcases timesX_cases p.toNat k c with ⟨-, h⟩ | ⟨-, h⟩ <;> rw [h]
    · exact hdouble
    · rw [evalPoly_xor, hdouble, evalPoly_self hk hk31 hp hr, BitVec.xor_zero]
  have hdegree : (timesX p.toNat k c).testBit k = false := by
    rcases timesX_cases p.toNat k c with ⟨hbit, h⟩ | ⟨hbit, h⟩ <;> rw [h]
    · exact hbit
    · rw [Nat.testBit_xor, hbit, BitVec.testBit_toNat, hp, Bool.xor_self]
  rwa [evalPoly, hdegree, scale_false, BitVec.xor_zero] at hreduced

/-- Reduced multiplication acts as one polynomial after the other. -/
theorem evalPoly_mulMod (c n : Nat) : ∀ (a : Nat) (r : Word), r >>> k = 0#32 →
    evalPoly p k k (mulMod p.toNat k c n a) r = evalPoly p k n a (evalPoly p k k c r) := by
  induction n with
  | zero => exact fun a r _ => evalPoly_zero p k k r
  | succ n ih =>
    intro a r hr
    have hconst : evalPoly p k k (a % 2 * c) r = scale (a.testBit 0) (evalPoly p k k c r) := by
      rw [Nat.testBit_zero]
      rcases Nat.mod_two_eq_zero_or_one a with h | h <;> simp [h]
    rw [mulMod, evalPoly_xor, hconst, evalPoly_timesX hk hk31 hp _ hr, ih _ _ (advance_fits r p k hk (by omega) hr),
      evalPoly_advance hk hk31 k c hr, evalPoly_succ]

/-- The reduced power `X ^ n` acts as `n` advances. -/
theorem evalPoly_powX (f : Nat) : ∀ (n : Nat) (r : Word), n < 2 ^ f → r >>> k = 0#32 →
    evalPoly p k k (powX p.toNat k f n) r = advanceTimes p k n r := by
  induction f with
  | zero =>
    intro n r hn _
    obtain rfl : n = 0 := by omega
    exact evalPoly_one hk p r
  | succ f ih =>
    intro n r hn hr
    have hn2 : n / 2 < 2 ^ f := by omega
    have hsquare : ∀ r : Word, r >>> k = 0#32 →
        evalPoly p k k (squareMod p.toNat k (powX p.toNat k f (n / 2))) r = advanceTimes p k (n / 2 + n / 2) r := by
      intro r hr
      rw [squareMod, evalPoly_mulMod hk hk31 hp _ _ _ _ hr, ih _ _ hn2 hr,
        ih _ _ hn2 (advanceTimes_fits p k _ hk (by omega) r hr), advanceTimes_add]
    rcases Nat.mod_two_eq_zero_or_one n with h | h
    · rw [powX, h, show n = n / 2 + n / 2 by omega]
      simpa [← Nat.two_mul] using hsquare r hr
    · have hodd : advanceTimes p k n r = advanceTimes p k (n / 2 + n / 2) (advance r p k) :=
        congrArg (advanceTimes p k · r) (by omega : n = n / 2 + n / 2 + 1)
      rw [hodd, ← hsquare _ (advance_fits r p k hk (by omega) hr), ← evalPoly_timesX hk hk31 hp _ hr, powX, h]
      rfl

end

/-! ### The period of the ROM's polynomials -/

/-- The register of `k` bits with its top bit alone. -/
def topBit (k : Nat) : Word := 1#32 <<< (k - 1)

theorem topBit_getLsbD {k : Nat} (hk31 : k ≤ 31) (i : Nat) : (topBit k).getLsbD i = decide (i = k - 1) := by
  rw [topBit, ← BitVec.twoPow_eq, BitVec.getLsbD_twoPow, Bool.and_eq_right_iff_imp.2]
  · simp [eq_comm]
  · simp; omega

theorem topBit_fits {k : Nat} (hk : 1 ≤ k) (hk31 : k ≤ 31) : topBit k >>> k = 0#32 := by
  refine (shiftRight_eq_zero_iff _ k).2 fun i hi => ?_
  rw [topBit_getLsbD hk31]
  simp; omega

theorem topBit_ne_zero {k : Nat} (hk31 : k ≤ 31) : topBit k ≠ 0#32 :=
  ne_zero_of_getLsbD (i := k - 1) (by rw [topBit_getLsbD hk31]; exact decide_eq_true rfl)

/-- A bit the top bit alone emits in its first `k` advances. -/
theorem outputBit_topBit {k : Nat} (hk : 1 ≤ k) (hk31 : k ≤ 31) (p : Word) {j : Nat} (hj : j < k) :
    outputBit p k (topBit k) j = decide (j = k - 1) := by
  rw [← topBit_getLsbD hk31, ← Nat.zero_add j, ← advanceTimes_getLsbD hk31 (topBit_fits hk hk31) p hj 0]
  simp

/-- No polynomial of a degree `m` below `k` acts as 0 on the top bit alone: it sets bit `k - 1 - m`. -/
theorem evalPoly_topBit_ne_zero {k c : Nat} (hk : 1 ≤ k) (hk31 : k ≤ 31) (p : Word) (hc : c < 2 ^ k) (hc0 : c ≠ 0) :
    evalPoly p k k c (topBit k) ≠ 0#32 := by
  obtain ⟨m, hm, habove⟩ := Nat.exists_most_significant_bit hc0
  have hmk : m < k := (Nat.pow_lt_pow_iff_right (by omega)).1 ((Nat.ge_two_pow_of_testBit hm).trans_lt hc)
  have hbit : ∀ n ≤ k, (evalPoly p k n c (topBit k)).getLsbD (k - 1 - m) = decide (m < n) := by
    intro n hn
    induction n with
    | zero => simp [evalPoly]
    | succ n ih =>
      rw [evalPoly, BitVec.getLsbD_xor, ih (by omega), scale_getLsbD,
        advanceTimes_getLsbD hk31 (topBit_fits hk hk31) p (by omega)]
      rcases Nat.lt_trichotomy n m with h | rfl | h
      · rw [outputBit_topBit hk hk31 p (by omega), decide_eq_false (by omega : ¬ n + (k - 1 - m) = k - 1)]
        simp [show ¬ m < n by omega, show ¬ m < n + 1 by omega]
      · rw [outputBit_topBit hk hk31 p (by omega), decide_eq_true (by omega : n + (k - 1 - n) = k - 1), hm]
        simp
      · simp [habove n h, h, show m < n + 1 by omega]
  intro h
  have htop := hbit k (Nat.le_refl k)
  simp [h, hmk] at htop

/-- The primes that divide a number `2 ^ o - 1` for `o` in 3..31. -/
def mersenneFactors : List Nat :=
  [3, 5, 7, 11, 13, 17, 19, 23, 29, 31, 41, 43, 47, 73, 89, 113, 127, 151, 233, 241, 257, 331, 337, 601, 683, 1103, 1801,
    2089, 2731, 8191, 131071, 178481, 262657, 524287, mersenne 31]

/-- They are primes, the last by the Lucas-Lehmer test. -/
theorem prime_of_mem_mersenneFactors : ∀ q ∈ mersenneFactors, q.Prime := by
  have hlast : (mersenne 31).Prime := lucas_lehmer_sufficiency 31 (by omega) (by norm_num)
  norm_num [mersenneFactors, hlast]

/-- Every prime that divides `2 ^ o - 1` is in the list. -/
theorem mem_mersenneFactors {o q : Nat} (hlo : 3 ≤ o) (hhi : o ≤ 31) (hq : q.Prime) (hdvd : q ∣ 2 ^ o - 1) :
    q ∈ mersenneFactors := by
  have hpow : ∀ o < 32, 3 ≤ o → 2 ^ o - 1 ∣ mersenneFactors.prod ^ 3 := by decide +kernel
  have hprod := hq.dvd_of_dvd_pow (hdvd.trans (hpow o (by omega) hlo))
  exact mem_list_primes_of_dvd_prod hq.prime (fun q h => (prime_of_mem_mersenneFactors q h).prime) hprod

/-- Modulo each polynomial of the ROM, the power `2 ^ o - 1` of X is 1, by computation. -/
theorem powX_mlTable : ∀ o < 32, 3 ≤ o → powX (mlTable o).toNat o o (2 ^ o - 1) = 1 := by decide +kernel

/-- The computation for the prime quotients, each of which leaves a polynomial below degree `o`. -/
theorem powX_mlTable_quotients : ∀ o < 32, 3 ≤ o → ∀ q ∈ mersenneFactors, q ∣ 2 ^ o - 1 →
    powX (mlTable o).toNat o o ((2 ^ o - 1) / q) < 2 ^ o ∧ powX (mlTable o).toNat o o ((2 ^ o - 1) / q) ≠ 1 := by
  decide +kernel

/-- A period none of whose prime quotients is a period is the least. -/
theorem minimalPeriod_eq_of_prime_quotients {α : Type} {f : α → α} {x : α} {n : Nat}
    (h : f.IsPeriodicPt n x) (hquotient : ∀ q : Nat, q.Prime → q ∣ n → ¬ f.IsPeriodicPt (n / q) x) :
    f.minimalPeriod x = n := by
  obtain ⟨m, hm⟩ := h.minimalPeriod_dvd
  by_contra hne
  obtain ⟨q, hq, l, rfl⟩ := Nat.exists_prime_and_dvd (n := m) (by rintro rfl; omega)
  have hdiv : n = f.minimalPeriod x * l * q := by rw [hm]; ring
  refine hquotient q hq ⟨_, hdiv.trans (Nat.mul_comm _ _)⟩ ?_
  rw [hdiv, Nat.mul_div_cancel _ hq.pos]
  exact (Function.isPeriodicPt_minimalPeriod f x).mul_const l

/-- The advance of a block with the ROM's polynomial of order `o`. -/
def tableAdvance (o : Nat) (r : Word) : Word := advance r (mlTable o) o

theorem advanceTimes_mlTable (o n : Nat) (r : Word) : advanceTimes (mlTable o) o n r = (tableAdvance o)^[n] r :=
  advanceTimes_eq_iterate (mlTable o) o n r

theorem two_pow_sub_one_pos {o : Nat} (hlo : 3 ≤ o) : 0 < 2 ^ o - 1 := by
  have : 2 ^ 3 ≤ 2 ^ o := Nat.pow_le_pow_right (by omega) hlo
  omega

theorem two_pow_eq_double {o : Nat} (ho : 1 ≤ o) : 2 ^ o = 2 * 2 ^ (o - 1) := by
  rw [← Nat.pow_succ', Nat.succ_eq_add_one, Nat.sub_add_cancel ho]

/-- The nonzero registers of `o` bits, as numbers. -/
theorem toNat_mem_Ico_iff {o : Nat} {r : Word} : r.toNat ∈ Finset.Ico 1 (2 ^ o) ↔ r ≠ 0#32 ∧ r >>> o = 0#32 := by
  have hzero : r ≠ 0#32 ↔ 1 ≤ r.toNat := by
    rw [Nat.one_le_iff_ne_zero, ne_eq, ne_eq, ← BitVec.toNat_inj, BitVec.toNat_ofNat, Nat.zero_mod]
  have hfits : r >>> o = 0#32 ↔ r.toNat < 2 ^ o := by
    rw [← BitVec.toNat_inj, BitVec.toNat_ushiftRight, Nat.shiftRight_eq_div_pow, BitVec.toNat_ofNat, Nat.zero_mod,
      Nat.div_eq_zero_iff_lt (Nat.two_pow_pos o)]
  rw [Finset.mem_Ico, hzero, hfits]

/-- The advances of a register within one period, as numbers. -/
def orbitNumber (o : Nat) (r : Word) (n : Nat) : Nat := ((tableAdvance o)^[n] r).toNat

section
variable {o : Nat} (hlo : 3 ≤ o) (hhi : o ≤ 31)
include hlo hhi

/-- A power of X acts as that many advances with the ROM's polynomial. -/
theorem evalPoly_powX_mlTable {n : Nat} (hn : n < 2 ^ o) {r : Word} (hr : r >>> o = 0#32) :
    evalPoly (mlTable o) o o (powX (mlTable o).toNat o o n) r = (tableAdvance o)^[n] r := by
  obtain ⟨htop, -, -⟩ := mlTable_bits o (by omega) hlo
  rw [evalPoly_powX (by omega) hhi htop o n r hn hr, advanceTimes_mlTable]

/-- Every register returns after `2 ^ o - 1` advances. -/
theorem isPeriodicPt_tableAdvance {r : Word} (hr : r >>> o = 0#32) : (tableAdvance o).IsPeriodicPt (2 ^ o - 1) r := by
  show (tableAdvance o)^[2 ^ o - 1] r = r
  have hpos := two_pow_sub_one_pos hlo
  rw [← evalPoly_powX_mlTable hlo hhi (by omega) hr, powX_mlTable o (by omega) hlo, evalPoly_one (by omega)]

/-- The top bit alone returns no sooner. -/
theorem minimalPeriod_topBit : (tableAdvance o).minimalPeriod (topBit o) = 2 ^ o - 1 := by
  have hfits := topBit_fits (by omega : 1 ≤ o) hhi
  have hpos := two_pow_sub_one_pos hlo
  refine minimalPeriod_eq_of_prime_quotients (isPeriodicPt_tableAdvance hlo hhi hfits) fun q hq hdvd h => ?_
  obtain ⟨hdegree, hne⟩ := powX_mlTable_quotients o (by omega) hlo q (mem_mersenneFactors hlo hhi hq hdvd) hdvd
  have hless : (2 ^ o - 1) / q < 2 ^ o := (Nat.div_le_self _ _).trans_lt (by omega)
  refine evalPoly_topBit_ne_zero (c := powX (mlTable o).toNat o o ((2 ^ o - 1) / q) ^^^ 1) (by omega) hhi (mlTable o)
    (Nat.xor_lt_two_pow hdegree (by omega)) (fun h0 => hne (Nat.xor_eq_zero_iff.1 h0)) ?_
  rw [evalPoly_xor, evalPoly_powX_mlTable hlo hhi hless hfits, evalPoly_one (by omega), h, BitVec.xor_self]

/-- Advances keep a nonzero register of `o` bits so. -/
theorem orbitNumber_mem_Ico {r : Word} (h0 : r ≠ 0#32) (hr : r >>> o = 0#32) (n : Nat) :
    orbitNumber o r n ∈ Finset.Ico 1 (2 ^ o) := by
  obtain ⟨-, hconst, -⟩ := mlTable_bits o (by omega) hlo
  rw [orbitNumber, toNat_mem_Ico_iff, ← advanceTimes_mlTable]
  exact ⟨advanceTimes_ne_zero (by omega) hhi hconst n r hr h0, advanceTimes_fits _ o n (by omega) (by omega) r hr⟩

omit hlo hhi in
/-- Within the least period no value recurs. -/
theorem orbitNumber_injOn {r : Word} (hperiod : (tableAdvance o).minimalPeriod r = 2 ^ o - 1) :
    Set.InjOn (orbitNumber o r) (Finset.range (2 ^ o - 1)) := by
  intro i hi j hj h
  rw [Finset.coe_range, ← hperiod] at hi hj
  exact Function.iterate_injOn_Iio_minimalPeriod hi hj (BitVec.eq_of_toNat_eq h)

/-- A register whose least period is `2 ^ o - 1` takes every nonzero value, there being no more of them. -/
theorem image_orbitNumber {r : Word} (h0 : r ≠ 0#32) (hr : r >>> o = 0#32)
    (hperiod : (tableAdvance o).minimalPeriod r = 2 ^ o - 1) :
    (Finset.range (2 ^ o - 1)).image (orbitNumber o r) = Finset.Ico 1 (2 ^ o) := by
  refine Finset.eq_of_subset_of_card_le (fun t ht => ?_) ?_
  · obtain ⟨n, -, rfl⟩ := Finset.mem_image.1 ht
    exact orbitNumber_mem_Ico hlo hhi h0 hr n
  · rw [Finset.card_image_of_injOn (orbitNumber_injOn hperiod), Finset.card_range, Nat.card_Ico]

/-- A value of an orbit that takes every nonzero value. -/
theorem exists_iterate_eq {r t : Word} (h0 : r ≠ 0#32) (hr : r >>> o = 0#32)
    (hperiod : (tableAdvance o).minimalPeriod r = 2 ^ o - 1) (ht0 : t ≠ 0#32) (ht : t >>> o = 0#32) :
    ∃ n < 2 ^ o - 1, (tableAdvance o)^[n] r = t := by
  have hmem := toNat_mem_Ico_iff.2 ⟨ht0, ht⟩
  rw [← image_orbitNumber hlo hhi h0 hr hperiod, Finset.mem_image] at hmem
  obtain ⟨n, hn, he⟩ := hmem
  exact ⟨n, Finset.mem_range.1 hn, BitVec.eq_of_toNat_eq he⟩

/-- Every nonzero register has the least period of the top bit alone, being in its orbit. -/
theorem minimalPeriod_tableAdvance {r : Word} (h0 : r ≠ 0#32) (hr : r >>> o = 0#32) :
    (tableAdvance o).minimalPeriod r = 2 ^ o - 1 := by
  have hfits := topBit_fits (by omega : 1 ≤ o) hhi
  have hperiod := minimalPeriod_topBit hlo hhi
  obtain ⟨n, -, rfl⟩ := exists_iterate_eq hlo hhi (topBit_ne_zero hhi) hfits hperiod h0 hr
  rw [Function.minimalPeriod_apply_iterate ⟨_, two_pow_sub_one_pos hlo, isPeriodicPt_tableAdvance hlo hhi hfits⟩, hperiod]

end

/-- Settles O20: the least period is the number of nonzero registers. -/
theorem tableRegistersVisitEveryNonzeroValueOnce : Obligations.TableRegistersVisitEveryNonzeroValueOnce := by
  intro o r hlo hhi h0 hr
  have hperiod := minimalPeriod_tableAdvance hlo hhi h0 hr
  refine ⟨?_, fun t ht0 ht => ?_⟩
  · rw [advanceTimes_mlTable]
    exact isPeriodicPt_tableAdvance hlo hhi hr
  · obtain ⟨n, hn, rfl⟩ := exists_iterate_eq hlo hhi h0 hr hperiod ht0 ht
    refine ⟨n, hn, advanceTimes_mlTable o n r, fun m hm h => ?_⟩
    rw [advanceTimes_mlTable] at h
    exact orbitNumber_injOn hperiod (by simpa using hm) (by simpa using hn) (congrArg BitVec.toNat h)

/-! ### The output of the ROM's polynomials -/

/-- The number of ones among bits given by their index. -/
theorem count_map_range (f : Nat → Bool) (n : Nat) :
    ((List.range n).map f).count true = ((Finset.range n).filter fun i => f i = true).card := by
  induction n with
  | zero => rfl
  | succ n ih =>
    rw [List.range_succ, List.map_append, List.count_append, ih, Finset.range_add_one, Finset.filter_insert]
    cases h : f n <;> simp [h]

/-- Half of the numbers below `2 ^ o` are odd. -/
theorem card_odd_Ico {o : Nat} (ho : 1 ≤ o) :
    ((Finset.Ico 1 (2 ^ o)).filter fun t => t.testBit 0 = true).card = 2 ^ (o - 1) := by
  have hpow := two_pow_eq_double ho
  have himage : (Finset.Ico 1 (2 ^ o)).filter (fun t => t.testBit 0 = true) =
      (Finset.range (2 ^ (o - 1))).image fun i => 2 * i + 1 := by
    ext t
    simp only [Finset.mem_filter, Finset.mem_Ico, Finset.mem_image, Finset.mem_range, Nat.testBit_zero, decide_eq_true_eq]
    constructor
    · rintro ⟨ht, hodd⟩
      exact ⟨t / 2, by omega, by omega⟩
    · rintro ⟨i, hi, rfl⟩
      omega
  rw [himage, Finset.card_image_of_injective _ (fun i j h => by simpa using h), Finset.card_range]

/-- A period of the output has as many ones as there are odd numbers among the values of the register. -/
theorem count_true_outputBits {o : Nat} {r : Word} (hlo : 3 ≤ o) (hhi : o ≤ 31) (h0 : r ≠ 0#32) (hr : r >>> o = 0#32) :
    (outputBits (mlTable o) o (2 ^ o - 1) r).count true = 2 ^ (o - 1) := by
  have hperiod := minimalPeriod_tableAdvance hlo hhi h0 hr
  have hodd : ∀ n, outputBit (mlTable o) o r n = (orbitNumber o r n).testBit 0 := fun n => by
    rw [outputBit, advanceTimes_mlTable]; rfl
  rw [outputBits_eq_map, count_map_range, ← card_odd_Ico (by omega : 1 ≤ o), ← image_orbitNumber hlo hhi h0 hr hperiod,
    Finset.filter_image, Finset.card_image_of_injOn]
  · simp only [hodd]
  · exact (orbitNumber_injOn hperiod).mono (Finset.coe_subset.2 (Finset.filter_subset _ _))

/-- A register whose output repeats after `m` bits returns after `m` advances: it holds its next output bits. -/
theorem advanceTimes_eq_self_of_output {p r : Word} {k m : Nat} (hk : 1 ≤ k) (hk31 : k ≤ 31) (hr : r >>> k = 0#32)
    (h : ∀ j, outputBit p k r (j + m) = outputBit p k r j) : advanceTimes p k m r = r := by
  refine eq_of_low_bits _ _ k (advanceTimes_fits p k m hk (by omega) r hr) hr fun i hi => ?_
  have hnow := advanceTimes_getLsbD hk31 hr p hi 0
  rw [advanceTimes_getLsbD hk31 hr p hi, Nat.add_comm, h, ← Nat.zero_add i, ← hnow]
  simp

/-- Settles O21: the output repeats with the register, no sooner, and its ones are the odd values the register takes. -/
theorem tableSequencesHaveFullPeriodAndBalance : Obligations.TableSequencesHaveFullPeriodAndBalance := by
  intro o r hlo hhi h0 hr
  obtain ⟨hreturns, -⟩ := tableRegistersVisitEveryNonzeroValueOnce o r hlo hhi h0 hr
  have hones := count_true_outputBits hlo hhi h0 hr
  refine ⟨fun j => ?_, fun m hm hlt => ?_, hones, ?_, ?_⟩
  · rw [outputBit, Nat.add_comm, advanceTimes_add, hreturns]
    rfl
  · by_contra hsame
    have h := advanceTimes_eq_self_of_output (by omega) hhi hr (by simpa using hsame)
    rw [advanceTimes_mlTable] at h
    have hle := Function.IsPeriodicPt.minimalPeriod_le hm h
    rw [minimalPeriod_tableAdvance hlo hhi h0 hr] at hle
    omega
  · have hlength := List.count_true_add_count_false (outputBits (mlTable o) o (2 ^ o - 1) r)
    rw [hones, outputBits_length] at hlength
    have hpow := two_pow_eq_double (by omega : 1 ≤ o)
    omega
  · rw [Nat.two_mul, outputBits_add, hreturns]

end Sys2Proof.Machine

/-! PROOFS. The engine's commands (41_engine.md sections 2 to 6): each step of STATESIZE, INIT, RESET and GENERATE, INIT as a
whole, and the lifecycle of the engine. -/

namespace Sys2Proof.Machine

/-! ### Each step of INIT -/

/-- Settles O23: STATESIZE answers the constant 16. -/
theorem statesizeAnswersSixteen : Obligations.StatesizeAnswersSixteen := fun _ => rfl

theorem execInit_of_not_begun {s : State} (hg : s.begun = false) : exec .init s = .next (startInit s) := by
  simp [exec, execInit, hg]

/-- INIT with an argument that fails a check (41_engine.md R126). -/
theorem execInit_fails {s : State} (hg : s.begun = false) (h : s.larg0 = 0#32 ∨ s.larg2 = 0#32 ∨ hsb s.larg0 = 0) :
    exec .init s = .next (complete .invalidArgument s) := by
  rw [execInit_of_not_begun hg]
  rcases startInit_cases s with ⟨he, -⟩ | ⟨-, h0, h2, hk⟩
  · rw [he]
  · rcases h with h | h | h <;> contradiction

/-- INIT with arguments that pass its checks enters its pre-shift (41_engine.md R126). -/
theorem execInit_starts {s : State} (hg : s.begun = false) (h0 : s.larg0 ≠ 0#32) (h2 : s.larg2 ≠ 0#32)
    (hk : hsb s.larg0 ≠ 0) :
    exec .init s = .next (enterLoop s.larg1.toNat (setWork (s.larg2 &&& mask (hsb s.larg0)) s)) := by
  rw [execInit_of_not_begun hg]
  rcases startInit_cases s with ⟨-, h | h | h⟩ | ⟨he, -⟩
  case inr => rw [he]
  all_goals contradiction

/-- INIT with advances left performs one. -/
theorem execInit_shifts {s : State} (hg : s.begun = true) (hm : s.remain ≠ 0) :
    exec .init s = .next (preShift s.larg0 (hsb s.larg0) s) := by
  simp [exec, execInit, hg, hm, initPolynomial]

/-- INIT with no advance left constructs the engine. -/
theorem execInit_ends {s : State} (hg : s.begun = true) (hm : s.remain = 0) : exec .init s = .next (finishInit s) := by
  simp [exec, execInit, hg, hm]

/-- Settles O24: the four steps of INIT. -/
theorem initStepsAndCompletes : Obligations.InitStepsAndCompletes := by
  refine ⟨fun s => execInit_fails, fun s => execInit_starts, fun s m hg hm => ?_, fun s => execInit_ends⟩
  rw [execInit_shifts hg (by omega), preShift, hm]
  rfl

/-! ### INIT as a whole -/

/-- A nonzero polynomial has order 0 exactly when it is 1 (41_engine.md R126). -/
theorem hsb_eq_zero_iff {p : Word} (hp : p ≠ 0#32) : hsb p = 0 ↔ p = 1#32 := by
  constructor
  · intro h
    have hfits : p >>> 1 = 0#32 := (shiftRight_eq_zero_iff p 1).2 fun i hi => by
      by_contra hset
      have := le_hsb (Bool.eq_true_of_not_eq_false hset)
      omega
    have hword := eq_bitWord_of_fits_one hfits
    cases hbit : p.getLsbD 0 with
    | true => rw [hword, hbit]; rfl
    | false => exact absurd (by rw [hword, hbit]; rfl) hp
  · rintro rfl
    decide

/-- A loop that has nothing left to do, with INIT's register as it is. -/
theorem enterLoop_setWork_self {s : State} (hg : s.begun = true) (hm : s.remain = 0) :
    enterLoop 0 (setWork s.work s) = s := by
  rw [← hm, enterLoop, setWork, ← hg]

/-- The state INIT leaves when its register has come to `r`. -/
def initDone (r : Word) (s : State) : State := finishInit (enterLoop 0 (setWork r s))

/-- INIT's pre-shift, to its end. -/
theorem execTimes_preShift (n : Nat) : ∀ s : State, s.begun = true → s.remain = n →
    execTimes (n + 1) .init s = .next (initDone (advanceTimes s.larg0 (hsb s.larg0) n s.work) s) := by
  induction n with
  | zero =>
    intro s hg hm
    rw [execTimes_of_exec 0 (execInit_ends hg hm), initDone, advanceTimes_zero, enterLoop_setWork_self hg hm]
    rfl
  | succ n ih =>
    intro s hg hm
    rw [execTimes_of_exec (n + 1) (execInit_shifts hg (by omega)), ih (preShift _ _ s) hg (by simp [hm])]
    rfl

/-- INIT with arguments that pass its checks, from its first step to its last (41_engine.md R126). -/
theorem execTimes_init {s : State} (hg : s.begun = false) (h0 : s.larg0 ≠ 0#32) (h1 : s.larg0 ≠ 1#32)
    (h2 : s.larg2 ≠ 0#32) :
    execTimes (s.larg1.toNat + 2) .init s = .next (initDone
      (advanceTimes s.larg0 (hsb s.larg0) s.larg1.toNat (s.larg2 &&& mask (hsb s.larg0))) s) := by
  rw [execTimes_of_exec _ (execInit_starts hg h0 h2 (mt (hsb_eq_zero_iff h0).1 h1))]
  exact execTimes_preShift _ _ rfl rfl

/-- Settles O25: the failing checks, and the run of INIT. -/
theorem initConstructsTheEngine : Obligations.InitConstructsTheEngine := by
  refine ⟨fun s hg h => execInit_fails hg ?_, fun s hg h0 h2 h1 => ⟨_, _, _, execTimes_init hg h0 h1 h2, rfl, rfl⟩⟩
  rcases h with h | h | h
  · exact .inl h
  · exact .inr (.inl h)
  · exact .inr (.inr (by rw [h]; decide))

/-- Settles O26: INIT's run reads LARG2 only clamped. -/
theorem initIgnoresBitsBeyondTheOrder : Obligations.InitIgnoresBitsBeyondTheOrder := by
  intro s v hg h0 h1 hclamped hv
  have hne : ∀ w : Word, w &&& mask (hsb s.larg0) ≠ 0#32 → w ≠ 0#32 := by
    rintro w hw rfl
    exact hw BitVec.zero_and
  refine ⟨_, execTimes_init hg h0 h1 (hne _ hclamped), ?_⟩
  rw [execTimes_init (s := { s with larg2 := v }) hg h0 h1 (hne v (hv ▸ hclamped)), hv]
  rfl

/-- Settles O28: the invariant says what INIT's register is at its end. -/
theorem initResultWhateverComesBetween : Obligations.InitResultWhateverComesBetween := by
  rintro s ⟨-, hcommand, -⟩ hruns hd hg hm
  obtain ⟨-, -, -, -, -, hwork⟩ := initRunning_of_inv hcommand hruns.2.2 hg hd
  refine ⟨finishInit (blockStarts s), ?_, rfl, rfl, rfl, ?_, ?_, rfl, ?_⟩
  · rw [step_of_blockRuns hruns hd, execInit_ends] <;> simpa [blockStarts]
  · simp [finishInit, initPolynomial, blockStarts]
  · simp [finishInit, initPolynomial, blockStarts, hsb_lt]
  · simpa [finishInit, blockStarts, initPolynomial, initShift, initValue, hm] using hwork

/-! ### RESET -/

theorem execTimes_one (i : Instr) (s : State) : execTimes 1 i s = exec i s := by
  obtain ⟨t, ht⟩ := exec_next i s
  rw [execTimes_of_exec 0 ht, ht]
  rfl

theorem execReset_of_ready {s : State} (hy : s.ready = true) : exec .reset s = .next (complete .ok (rewind s)) := by
  simp [exec, execReset, hy]

theorem execReset_of_not_ready {s : State} (hy : s.ready = false) :
    exec .reset s = .next (complete .invalidArgument s) := by
  simp [exec, execReset, hy]

/-- Settles O29: RESET with READY = 1 and with READY = 0, each once and twice. -/
theorem resetCommandRewinds : Obligations.ResetCommandRewinds := by
  refine ⟨fun s => execReset_of_ready, fun s => execReset_of_not_ready, fun s => ?twice, fun s hy h => ?already⟩
  case twice =>
    cases hy : s.ready with
    | true =>
      rw [execTimes_of_exec 1 (execReset_of_ready hy), execTimes_one]
      exact (execReset_of_ready (s := complete .ok (rewind s)) hy).trans (execReset_of_ready hy).symm
    | false =>
      rw [execTimes_of_exec 1 (execReset_of_not_ready hy), execTimes_one]
      exact (execReset_of_not_ready (s := complete .invalidArgument s) hy).trans (execReset_of_not_ready hy).symm
  case already =>
    rw [execReset_of_ready hy, rewind, ← h]
    rfl

/-! ### Each step of GENERATE -/

theorem execGenerate_of_not_begun {s : State} (hg : s.begun = false) : exec .generate s = .next (startGenerate s) := by
  simp [exec, execGenerate, hg]

/-- GENERATE that fails a check (41_engine.md R132). -/
theorem execGenerate_fails {s : State} (hg : s.begun = false) (h : s.ready = false ∨ s.larg1.toInt < 0) :
    exec .generate s = .next (complete .invalidArgument s) := by
  rw [execGenerate_of_not_begun hg]
  rcases startGenerate_cases s with ⟨he, -⟩ | ⟨-, hy, hn⟩
  · rw [he]
  · rcases h with h | h
    · simp [hy] at h
    · omega

/-- GENERATE that passes its checks enters its loop (41_engine.md R132). -/
theorem execGenerate_starts {s : State} (hg : s.begun = false) (hy : s.ready = true) (hn : 0 ≤ s.larg1.toInt) :
    exec .generate s = .next (enterLoop s.larg1.toInt.toNat s) := by
  rw [execGenerate_of_not_begun hg]
  rcases startGenerate_cases s with ⟨-, h | h⟩ | ⟨he, -⟩
  · simp [hy] at h
  · omega
  · rw [he]

/-- GENERATE with advances left and no beat on offer advances and offers the departing bit. -/
theorem execGenerate_offers {s : State} (hg : s.begun = true) (hp : s.pnOut = none) (hm : s.remain ≠ 0) :
    exec .generate s = .next (advanceAndOffer s) := by
  simp [exec, execGenerate, hg, hp, hm]

/-- GENERATE with no advance left and no beat on offer completes. -/
theorem execGenerate_ends {s : State} (hg : s.begun = true) (hp : s.pnOut = none) (hm : s.remain = 0) :
    exec .generate s = .next (complete .ok s) := by
  simp [exec, execGenerate, hg, hp, hm]

/-- Settles O30: the steps of GENERATE. -/
theorem generateStepsAndCompletes : Obligations.GenerateStepsAndCompletes := by
  refine ⟨fun s => execGenerate_fails, fun s => execGenerate_starts, fun s m hg hp hm => ?offers,
    fun s b hg hp => ?waits, fun s => execGenerate_ends⟩
  case offers =>
    rw [execGenerate_offers hg hp (by omega), advanceAndOffer, hm]
    rfl
  case waits => simp [exec, execGenerate, hg, hp]

/-! ### The lifecycle -/

theorem sameEngine_blockStarts (s : State) : SameEngine s (blockStarts s) := (commandUndisturbed_beginStep s).engine

/-- A step of INIT leaves READY = 1 if it completes with OK, and the engine as it was if it does not. -/
theorem execInit_lifecycle {s t : State} (hb : s.busy = true) (h : exec .init s = .next t) :
    (t.busy = false → t.code = .ok → t.ready = true) ∧ (t.busy = true ∨ t.code ≠ .ok → SameEngine s t) := by
  rcases execInit_cases h with ⟨-, rfl⟩ | ⟨-, -, rfl⟩ | ⟨-, -, rfl⟩
  · rcases startInit_cases s with ⟨he, -⟩ | ⟨he, -⟩ <;> rw [he]
    · exact ⟨fun _ hok => by simp at hok, fun _ => ⟨rfl, rfl, rfl, rfl, rfl⟩⟩
    · exact ⟨fun hf => by simp [hb] at hf, fun _ => ⟨rfl, rfl, rfl, rfl, rfl⟩⟩
  · exact ⟨fun _ _ => rfl, fun hf => by simp [finishInit] at hf⟩
  · exact ⟨fun hf => by simp [hb] at hf, fun _ => ⟨rfl, rfl, rfl, rfl, rfl⟩⟩

/-- In `t` a command has left all of the engine of `s` but LFSR as it was, and with READY = 0 it has failed before it began. -/
def KeepsConstruction (s t : State) : Prop :=
  t.ready = s.ready ∧ t.poly = s.poly ∧ t.order = s.order ∧ t.seed = s.seed ∧
    (s.ready = false → s.begun = false → t.busy = false ∧ t.code = .invalidArgument ∧ t.lfsr = s.lfsr)

theorem execReset_keepsConstruction {s t : State} (h : exec .reset s = .next t) : KeepsConstruction s t := by
  rcases execReset_cases h with ⟨hy, rfl⟩ | ⟨-, rfl⟩
  · exact ⟨rfl, rfl, rfl, rfl, fun hn => by simp [hy] at hn⟩
  · exact ⟨rfl, rfl, rfl, rfl, fun _ _ => ⟨rfl, rfl, rfl⟩⟩

theorem execGenerate_keepsConstruction {s t : State} (h : exec .generate s = .next t) : KeepsConstruction s t := by
  rcases execGenerate_cases h with ⟨-, rfl⟩ | ⟨hg, -, rfl⟩ | ⟨hg, -, -, rfl⟩ | ⟨hg, -, -, rfl⟩
  case inl =>
    rcases startGenerate_cases s with ⟨he, -⟩ | ⟨he, hy, -⟩ <;> rw [he]
    · exact ⟨rfl, rfl, rfl, rfl, fun _ _ => ⟨rfl, rfl, rfl⟩⟩
    · exact ⟨rfl, rfl, rfl, rfl, fun hn => by simp [hy] at hn⟩
  all_goals exact ⟨rfl, rfl, rfl, rfl, fun _ hn => by simp [hg] at hn⟩

/-- Settles O51: a step of each command. That only hardware reset clears READY is O50. -/
theorem lifecycleOfTheEngine : Obligations.LifecycleOfTheEngine := by
  refine ⟨fun s t h hy hn => ?reset, fun s hruns hd => ?init, fun s hruns hd => ?runs, fun s i hruns hd hv => ?value⟩
  case reset =>
    obtain ⟨-, -, -, hfields⟩ := statusFieldsAndTheirWriters
    by_contra hr
    obtain ⟨-, -, hready, -⟩ := hfields s t (by simpa using hr) h
    simp [hy, hn] at hready
  case init =>
    obtain ⟨t, ht⟩ := exec_next .init (blockStarts s)
    obtain ⟨hpoly, horder, hlfsr, hseed, hready⟩ := sameEngine_blockStarts s
    refine ⟨t, (step_of_blockRuns hruns hd).trans ht, ?_⟩
    have hlife := execInit_lifecycle (by simpa [blockStarts] using hruns.2.2) ht
    rwa [SameEngine, hpoly, horder, hlfsr, hseed, hready] at hlife
  case runs =>
    obtain ⟨i, hdi, t, ht, hk⟩ : ∃ i, decode s.lcmd = .ok i ∧ ∃ t, exec i (blockStarts s) = .next t ∧
        KeepsConstruction (blockStarts s) t := by
      rcases hd with hd | hd <;> refine ⟨_, hd, (exec_next _ _).imp fun t ht => ⟨ht, ?_⟩⟩
      · exact execReset_keepsConstruction ht
      · exact execGenerate_keepsConstruction ht
    refine ⟨t, (step_of_blockRuns hruns hdi).trans ht, ?_⟩
    simpa [KeepsConstruction, blockStarts] using hk
  case value =>
    obtain ⟨v, he⟩ := exec_answersAValue i (blockStarts s) hv
    exact ⟨_, (step_of_blockRuns hruns hd).trans he, sameEngine_blockStarts s, rfl, rfl⟩

end Sys2Proof.Machine

/-! PROOFS. Whole runs under the default schedule (log 2): GENERATE with a host that takes its beats, and the host programs of
GEN, RESET and INIT (41_engine.md sections 3 to 5). -/

namespace Sys2Proof.Machine

/-! ### Runs -/

/-- The machine comes from `s` to `t` in some number of steps. -/
def Reaches (s t : State) : Prop := ∃ n, stepTimes n s = .next t

theorem Reaches.step {s t u : State} (h : Machine.step s = .next t) : Reaches t u → Reaches s u
  | ⟨n, hn⟩ => ⟨n + 1, (stepTimes_of_step n h).trans hn⟩

theorem Reaches.refl (s : State) : Reaches s s := ⟨0, rfl⟩

theorem Reaches.trans {s t u : State} : Reaches s t → Reaches t u → Reaches s u
  | ⟨m, hm⟩, ⟨n, hn⟩ => ⟨m + n, (stepTimes_add m n s t hm).trans hn⟩

theorem afterTurn_of_sched_nil {s : State} (hs : s.sched = []) : afterTurn s = s := by
  rw [afterTurn, hs, List.tail_nil, ← hs]

/-- Under the default schedule the host moves when the block has no step enabled. -/
theorem step_default_host {s : State} (hs : s.sched = []) (hb : blockEnabled s = false) : step s = hostTurn s := by
  rw [step_host (by simp [nextAgent, hs, hb]), afterTurn_of_sched_nil hs]

/-- The command `i` is in progress under the default schedule, with no beat on offer. -/
structure Running (i : Instr) (s : State) : Prop where
  rstN : s.rstN = true
  busy : s.busy = true
  sched : s.sched = []
  pnOut : s.pnOut = none
  decoded : decode s.lcmd = .ok i

/-- Under the default schedule a command in progress with no beat on offer takes its next step. -/
theorem step_running {i : Instr} {s : State} (h : Running i s) : step s = exec i (progress s) := by
  have hruns : BlockRuns s := ⟨by simp [nextAgent, blockEnabled, h.rstN, h.busy, h.sched, h.pnOut], h.rstN, h.busy⟩
  rw [step_of_blockRuns hruns h.decoded, blockStarts, afterTurn_of_sched_nil h.sched, beginStep_of_none h.pnOut]

/-- GENERATE just accepted passes its checks in one step. -/
theorem step_generate_starts {s : State} {n : Nat} (h : Running .generate s) (hg : s.begun = false)
    (hy : s.ready = true) (hn : s.larg1.toInt = n) : step s = .next (enterLoop n (progress s)) := by
  rw [step_running h, execGenerate_starts (s := progress s) hg hy (by simp [hn]), progress_larg1, hn, Int.toNat_natCast]

/-- GENERATE with advances left offers a bit in one step. -/
theorem step_generate_offers {s : State} (h : Running .generate s) (hg : s.begun = true) (hm : s.remain ≠ 0) :
    step s = .next (advanceAndOffer (progress s)) :=
  (step_running h).trans (execGenerate_offers (s := progress s) hg h.pnOut hm)

/-- GENERATE with no advance left completes in one step. -/
theorem step_generate_ends {s : State} (h : Running .generate s) (hg : s.begun = true) (hm : s.remain = 0) :
    step s = .next (complete .ok (progress s)) :=
  (step_running h).trans (execGenerate_ends (s := progress s) hg h.pnOut hm)

/-! ### GENERATE with a host that takes its beats -/

/-- The host's actions where it is to take `n` beats, named `x`, and then to do `rest`. -/
def takes (x : Option String) (n : Nat) (rest : List HostAction) : List HostAction := List.replicate n (.take x) ++ rest

/-- GENERATE has offered the bit `b`, and the host is about to take that beat and the `m` that REMAIN counts. -/
structure Offering (x : Option String) (b : Bool) (m : Nat) (rest : List HostAction) (s : State) : Prop where
  rstN : s.rstN = true
  busy : s.busy = true
  begun : s.begun = true
  sched : s.sched = []
  pnOut : s.pnOut = some b
  decoded : decode s.lcmd = .ok .generate
  remain : s.remain = m
  host : s.host = takes x (m + 1) rest

/-- The state GENERATE of `s` leaves, but for hidden state: LFSR at `r`, the host having taken `bits` and with `rest` to do. -/
def emitDone (bits : List Bool) (r : Word) (rest : List HostAction) (names : List (String × Named)) (free : Nat) (s : State) :
    State :=
  { s with lfsr := r, pnOut := none, taken := s.taken ++ bits, code := .ok, busy := false, host := rest, names := names,
           freeIdx := free }

/-- In `t` the GENERATE in progress in `s` has completed with LFSR at `r`, the host having taken `bits`, named `x`, and with
`rest` still to do; but for hidden state and the counter of free values nothing else has changed. -/
structure Emitted (x : Option String) (bits : List Bool) (r : Word) (rest : List HostAction) (s t : State) : Prop where
  frame : withHidden t s = emitDone bits r rest t.names t.freeIdx s
  named : ∀ y, x = some y → namedBits y t = namedBits y s ++ bits
  others : ∀ y, x ≠ some y → namedValue y t = namedValue y s

/-- The host takes the beat `b` on offer, and has `rest` to do. -/
def beatTaken (x : Option String) (b : Bool) (rest : List HostAction) (s : State) : State :=
  progress (transferBeat b (nameResult x (.bits (bitsSoFar x s ++ [b])) (withHost rest s)))

/-- A beat taken changes nothing of what GENERATE reads. -/
theorem beatTaken_generator (x : Option String) (b : Bool) (rest : List HostAction) (s : State) :
    (beatTaken x b rest s).poly = s.poly ∧ (beatTaken x b rest s).order = s.order ∧
    (beatTaken x b rest s).lfsr = s.lfsr := by simp [beatTaken]

/-- A beat on offer transfers to a host that takes it (10_state.md R33). -/
theorem step_take {x : Option String} {b : Bool} {rest : List HostAction} {s : State} (hs : s.sched = [])
    (hp : s.pnOut = some b) (hh : s.host = .take x :: rest) : step s = .next (beatTaken x b rest s) := by
  rw [step_default_host hs (by simp [blockEnabled, hp]), hostTurn, hh]
  simp [takeBeat, hp, beatTaken]

/-- The hidden state of the last of several states counts. -/
theorem withHidden_withHidden (t u s : State) : withHidden (withHidden t u) s = withHidden t s := rfl

/-- A beat taken comes before the bits of the rest of the run. -/
theorem Emitted.of_beatTaken {x : Option String} {b : Bool} {bits : List Bool} {r : Word} {acts rest : List HostAction}
    {s t : State} (h : Emitted x bits r rest (beatTaken x b acts s) t) : Emitted x (b :: bits) r rest s t := by
  refine ⟨?_, fun y hy => ?_, fun y hy => (h.others y hy).trans (namedValue_nameResult_of_ne hy _ _)⟩
  · rw [← withHidden_withHidden t (beatTaken x b acts s), h.frame]
    simp [withHidden, emitDone, beatTaken]
  · subst hy
    rw [h.named y rfl, List.append_cons]
    exact congrArg (· ++ bits) (namedBits_nameResult_self y _ _)

/-- A run from `u` that changes what it changes in `s`, and starts from the same names, is a run from `s`. -/
theorem Emitted.of_block {x : Option String} {bits : List Bool} {r : Word} {rest : List HostAction} {s u t : State}
    (h : Emitted x bits r rest u t) (hnames : u.names = s.names)
    (hframe : ∀ names free, withHidden (emitDone bits r rest names free u) s = emitDone bits r rest names free s) :
    Emitted x bits r rest s t := by
  refine ⟨?_, fun y hy => ?_, fun y hy => ?_⟩
  · rw [← withHidden_withHidden t u, h.frame, hframe]
  · rw [h.named y hy, namedBits, namedBits, namedValue, namedValue, hnames]
  · rw [h.others y hy, namedValue, namedValue, hnames]

/-- With nothing left to do GENERATE emits no further bit. -/
theorem emitted_complete {x : Option String} {rest : List HostAction} {s : State} (hp : s.pnOut = none)
    (hh : s.host = rest) : Emitted x [] s.lfsr rest s (complete .ok (progress s)) := by
  refine ⟨?_, fun y _ => (List.append_nil _).symm, fun y _ => rfl⟩
  simp [withHidden, emitDone, hp, hh]

/-- After a beat taken GENERATE goes on with none on offer. -/
theorem Offering.running_beatTaken {x : Option String} {b : Bool} {m : Nat} {rest : List HostAction} {s : State}
    (h : Offering x b m rest s) (acts : List HostAction) : Running .generate (beatTaken x b acts s) := by
  constructor <;> simp [beatTaken, h.rstN, h.busy, h.sched, h.decoded]

/-- After a beat taken, with more to come, GENERATE offers the next. -/
theorem Offering.of_beatTaken {x : Option String} {b : Bool} {m : Nat} {rest : List HostAction} {s : State}
    (h : Offering x b (m + 1) rest s) : Offering x (departing s.lfsr) m rest
      (advanceAndOffer (progress (beatTaken x b (takes x (m + 1) rest) s))) := by
  constructor <;> simp [beatTaken, advanceAndOffer, h.rstN, h.busy, h.begun, h.sched, h.decoded, h.remain]

/-- GENERATE with a beat on offer and a host that takes it and all that follow (41_engine.md R132). -/
theorem emits_of_offering (x : Option String) (rest : List HostAction) (m : Nat) :
    ∀ (s : State) (b : Bool), Offering x b m rest s → ∃ t, Reaches s t ∧
      Emitted x (b :: outputBits s.poly s.order.toNat m s.lfsr) (advanceTimes s.poly s.order.toNat m s.lfsr) rest s t := by
  induction m with
  | zero =>
    intro s b h
    have hend := step_generate_ends (h.running_beatTaken rest) (by simp [beatTaken, h.begun]) (by simp [beatTaken, h.remain])
    have htake : step s = .next (beatTaken x b rest s) := step_take h.sched h.pnOut h.host
    have hnothing := emitted_complete (x := x) (s := beatTaken x b rest s) rfl rfl
    simp only [beatTaken_generator] at hnothing
    exact ⟨_, .step htake (.step hend (.refl _)), hnothing.of_beatTaken⟩
  | succ m ih =>
    intro s b h
    have hnext := step_generate_offers (h.running_beatTaken (takes x (m + 1) rest))
      (by simp [beatTaken, h.begun]) (by simp [beatTaken, h.remain])
    obtain ⟨t, ht, he⟩ := ih _ (departing s.lfsr) (h.of_beatTaken)
    simp only [advanceAndOffer_poly, advanceAndOffer_order, advanceAndOffer_lfsr, progress_poly, progress_order,
      progress_lfsr, beatTaken_generator] at he
    have hemitted := he.of_block (s := beatTaken x b (takes x (m + 1) rest) s) rfl fun _ _ => by
      simp [withHidden, emitDone, advanceAndOffer]
    exact ⟨t, .step (step_take h.sched h.pnOut h.host) (.step hnext ht), hemitted.of_beatTaken⟩

/-- GENERATE of 0 bits, just accepted in `s`, has completed. -/
def generatedNothing (s : State) : State := complete .ok (progress (enterLoop 0 (progress s)))

/-- GENERATE of `m + 1` bits, just accepted in `s`, offers the first. -/
def firstOffered (m : Nat) (s : State) : State := advanceAndOffer (progress (enterLoop (m + 1) (progress s)))

section
variable {s : State} (h : Running .generate s) (hg : s.begun = false) (hy : s.ready = true)
include h

theorem running_enterLoop (n : Nat) : Running .generate (enterLoop n (progress s)) :=
  ⟨h.rstN, h.busy, h.sched, h.pnOut, h.decoded⟩

theorem offering_firstOffered {x : Option String} {m : Nat} {rest : List HostAction}
    (hh : s.host = takes x (m + 1) rest) :
    Offering x (departing s.lfsr) m rest (firstOffered m s) := by
  constructor <;> simp [firstOffered, advanceAndOffer, h.rstN, h.busy, h.sched, h.decoded, hh]

include hg hy

/-- GENERATE of 0 bits completes by itself. -/
theorem reaches_generatedNothing (hn : s.larg1.toInt = (0 : Nat)) : Reaches s (generatedNothing s) :=
  .step (step_generate_starts h hg hy hn) (.step (step_generate_ends (running_enterLoop h 0) rfl rfl) (.refl _))

/-- GENERATE of `m + 1` bits comes by itself to offer the first. -/
theorem reaches_firstOffered {m : Nat} (hn : s.larg1.toInt = (m + 1 : Nat)) : Reaches s (firstOffered m s) :=
  .step (step_generate_starts h hg hy hn)
    (.step (step_generate_offers (running_enterLoop h (m + 1)) rfl (Nat.succ_ne_zero m)) (.refl _))

/-- GENERATE, just accepted, with a host that is to take its `n` beats (41_engine.md R132). -/
theorem emits_of_accepted {n : Nat} {x : Option String} {rest : List HostAction} (hn : s.larg1.toInt = n)
    (hh : s.host = takes x n rest) : ∃ t, Reaches s t ∧
      Emitted x (outputBits s.poly s.order.toNat n s.lfsr) (advanceTimes s.poly s.order.toNat n s.lfsr) rest s t := by
  cases n with
  | zero =>
    refine ⟨_, reaches_generatedNothing h hg hy hn, ?_⟩
    have he := emitted_complete (x := x) (s := enterLoop 0 (progress s)) (by simpa using h.pnOut) (by simpa using hh)
    rw [enterLoop_lfsr, progress_lfsr] at he
    exact he.of_block rfl fun _ _ => by simp [withHidden, emitDone]
  | succ m =>
    obtain ⟨t, ht, he⟩ := emits_of_offering x rest m _ _ (offering_firstOffered h hh)
    refine ⟨t, (reaches_firstOffered h hg hy hn).trans ht, ?_⟩
    simp only [firstOffered, advanceAndOffer_poly, advanceAndOffer_order, advanceAndOffer_lfsr, progress_poly,
      progress_order, progress_lfsr, enterLoop_poly, enterLoop_order, enterLoop_lfsr] at he
    exact he.of_block rfl fun _ _ => by simp [withHidden, emitDone, advanceAndOffer]

end

/-- Settles O31: the failing checks, and the run with a host that takes the beats. -/
theorem generateEmitsItsBits : Obligations.GenerateEmitsItsBits := by
  refine ⟨fun s => execGenerate_fails, fun s n x rest hr hb hg hp hs hd hy hn hh => ?_⟩
  obtain ⟨t, ⟨m, hm⟩, he⟩ := emits_of_accepted ⟨hr, hb, hs, hp, hd⟩ hg hy hn hh
  refine ⟨m, t, hm, he.named, he.others, ?_⟩
  rw [he.frame, emitDone, ← hp]

/-! ### Host programs -/

/-- An idle block with the engine of polynomial `p` and order `k`, SEED `d` and LFSR `r`; the host has taken `bits`, and has
`acts` left to do. -/
structure EngineAt (p : Word) (k : Nat) (d r : Word) (bits : List Bool) (acts : List HostAction) (s : State) : Prop where
  idle : Idle s
  ready : s.ready = true
  poly : s.poly = p
  order : s.order.toNat = k
  seed : s.seed = d
  lfsr : s.lfsr = r
  taken : s.taken = bits
  host : s.host = acts

theorem programActions_append (a b : List Stmt) : programActions (a ++ b) = programActions a ++ programActions b :=
  List.map_append

/-- While the block is idle a `WR` of a value is the next step (30_encoding.md R78). -/
theorem step_idle_write {s : State} {reg : WindowReg} {v : Word} {rest : List HostAction} (hi : Idle s)
    (hh : s.host = stmtAction (.wr reg (.lit v)) :: rest) :
    step s = .next (busWrite (regOffset reg).val v (withHost rest s)) := by
  obtain ⟨hb, hp, hr, hs⟩ := hi
  rw [step_default_host hs (by simp [blockEnabled, hb]), hostTurn, hh]
  show busAccess (.write (regOffset reg) 4 v) (withHost rest s) = _
  exact busAccess_legalWrite (s := withHost rest s) (legalAccess_regOffset reg) hr v

/-- While the block is idle a `WAIT` is over with one poll (30_encoding.md R78). -/
theorem step_idle_wait {s : State} {rest : List HostAction} (hi : Idle s) (hh : s.host = stmtAction .wait :: rest) :
    step s = .next (busRead 0x10 (withHost rest s)) := by
  obtain ⟨hb, hp, hr, hs⟩ := hi
  rw [step_default_host hs (by simp [blockEnabled, hb]), hostTurn, hh]
  show pollStatus s rest = _
  rw [pollStatus, afterPoll, if_neg (by simp [hb])]
  exact busAccess_legalRead rfl hr

/-- A `TAKE` that begins is the host's next step when the block has none. -/
theorem step_takeCount {s : State} {k : Nat} {x : String} {rest : List HostAction} (hs : s.sched = [])
    (hb : blockEnabled s = false) (hh : s.host = stmtAction (.take (.lit k) x) :: rest) :
    step s = .next (startTake (.lit k) x rest s) := by
  rw [step_default_host hs hb, hostTurn, hh]
  rfl

/-- The state in which the block has just accepted the word `w`. -/
def acceptedWord (w : Word) (rest : List HostAction) (s : State) : State :=
  respond .ack (progress (accept w (withHost rest s)))

/-- While the block is idle a `WR CMD` is an acceptance (20_memory.md R58). -/
theorem step_idle_command {s : State} {w : Word} {rest : List HostAction} (hi : Idle s)
    (hh : s.host = stmtAction (wrCmd w) :: rest) : step s = .next (acceptedWord w rest s) := by
  rw [step_idle_write hi hh, busWrite, regOffset]
  have haccept : writeCmd w (withHost rest s) = accept w (withHost rest s) := if_neg (by simp [hi.1])
  exact congrArg (fun u => Host.Outcome.next (respond .ack (progress u))) haccept

/-- A command just accepted is in progress. -/
theorem running_acceptedWord {s : State} {w : Word} {i : Instr} (rest : List HostAction) (hi : Idle s)
    (hd : decode w = .ok i) : Running i (acceptedWord w rest s) := by
  obtain ⟨hb, hp, hr, hs⟩ := hi
  constructor <;> simp [acceptedWord, *]

/-- Hidden state is no part of what a host program sees of the engine. -/
theorem EngineAt.of_withHidden {p : Word} {k : Nat} {d r : Word} {bits : List Bool} {acts : List HostAction} {s t : State}
    (h : EngineAt p k d r bits acts (withHidden t s)) : EngineAt p k d r bits acts t :=
  ⟨h.idle, h.ready, h.poly, h.order, h.seed, h.lfsr, h.taken, h.host⟩

/-- A host program of which nothing is left has ended (70_reset_and_hazards.md R192). -/
theorem EngineAt.runEnded {p : Word} {k : Nat} {d r : Word} {bits : List Bool} {s : State}
    (h : EngineAt p k d r bits [] s) : RunEnded s := ⟨h.host, h.idle.1⟩

/-- A `WAIT` of an idle block ends, and changes nothing the next statement starts from. -/
theorem EngineAt.wait {p : Word} {k : Nat} {d r : Word} {bits : List Bool} {rest : List HostAction} {s : State}
    (h : EngineAt p k d r bits (stmtAction .wait :: rest) s) : ∃ t, Reaches s t ∧ EngineAt p k d r bits rest t :=
  ⟨_, .step (step_idle_wait h.idle h.host) (.refl _), h.idle, h.ready, h.poly, h.order, h.seed, h.lfsr, h.taken, rfl⟩

/-- A GENERATE whose bits have been taken leaves an idle engine, its LFSR advanced. -/
theorem Emitted.engineAt {x : Option String} {bits : List Bool} {r : Word} {rest : List HostAction} {s t : State}
    (h : Emitted x bits r rest s t) (hr : s.rstN = true) (hs : s.sched = []) (hy : s.ready = true) :
    EngineAt s.poly s.order.toNat s.seed r (s.taken ++ bits) rest t := by
  apply EngineAt.of_withHidden (s := s)
  rw [h.frame]
  exact ⟨⟨rfl, rfl, hr, hs⟩, hy, rfl, rfl, rfl, rfl, rfl, rfl⟩

/-- A program `RESET` (30_encoding.md R79). -/
theorem EngineAt.reset {p : Word} {k : Nat} {d r : Word} {bits : List Bool} {rest : List HostAction} {s : State}
    (h : EngineAt p k d r bits (programActions (expand .reset) ++ rest) s) :
    ∃ t, Reaches s t ∧ EngineAt p k d d bits rest t := by
  have hrunning := running_acceptedWord (w := encode .reset) (i := .reset) (stmtAction .wait :: rest) h.idle (by decide)
  have hrun := (step_running hrunning).trans (execReset_of_ready (by simp [acceptedWord, h.ready]))
  have hdone : EngineAt p k d d bits (stmtAction .wait :: rest)
      (complete .ok (rewind (progress (acceptedWord (encode .reset) (stmtAction .wait :: rest) s)))) := by
    obtain ⟨⟨hb, hp, hr, hs⟩, hy, hpoly, horder, hseed, hlfsr, htaken, hh⟩ := h
    constructor <;> simp [acceptedWord, Idle, *]
  obtain ⟨t, ht, he⟩ := hdone.wait
  exact ⟨t, .step (step_idle_command h.idle h.host) (.step hrun ht), he⟩

/-- GENERATE, just accepted, with a host that begins to take its `n` beats by their number (30_encoding.md R79). -/
theorem generates_of_accepted {s : State} {n : Nat} {x : String} {acts : List HostAction} (h : Running .generate s)
    (hg : s.begun = false) (hy : s.ready = true) (hn : s.larg1.toInt = n)
    (hh : s.host = stmtAction (.take (.lit n) x) :: acts) : ∃ t, Reaches s t ∧
      EngineAt s.poly s.order.toNat s.seed (advanceTimes s.poly s.order.toNat n s.lfsr)
        (s.taken ++ outputBits s.poly s.order.toNat n s.lfsr) acts t := by
  cases n with
  | zero =>
    have htake : step (generatedNothing s) = .next (startTake (.lit 0) x acts (generatedNothing s)) :=
      step_takeCount (by simp [generatedNothing, h.sched]) (by simp [generatedNothing, blockEnabled])
        (by simpa [generatedNothing] using hh)
    refine ⟨_, (reaches_generatedNothing h hg hy hn).trans (.step htake (.refl _)), ?_⟩
    constructor <;> simp [startTake, generatedNothing, Idle, countOf, outputBits, hy, h.rstN, h.sched, h.pnOut]
  | succ m =>
    have htake : step (firstOffered m s) = .next (startTake (.lit (m + 1)) x acts (firstOffered m s)) :=
      step_takeCount (by simp [firstOffered, advanceAndOffer, h.sched])
        (by simp [firstOffered, advanceAndOffer, blockEnabled]) (by simpa [firstOffered, advanceAndOffer] using hh)
    have hoffering : Offering (some x) (departing s.lfsr) m acts (startTake (.lit (m + 1)) x acts (firstOffered m s)) := by
      constructor <;> simp [startTake, firstOffered, advanceAndOffer, countOf, takes, h.rstN, h.busy, h.sched, h.decoded]
    obtain ⟨t, ht, he⟩ := emits_of_offering _ _ _ _ _ hoffering
    have hengine := he.engineAt hoffering.rstN hoffering.sched (by simp [startTake, firstOffered, advanceAndOffer, hy])
    exact ⟨t, (reaches_firstOffered h hg hy hn).trans (.step htake ht), by
      simpa [startTake, firstOffered, advanceAndOffer, advanceTimes, outputBits] using hengine⟩

/-- A `WR ARG1` changes nothing of the engine. -/
theorem EngineAt.writeArg1 {p : Word} {k : Nat} {d r v : Word} {bits : List Bool} {acts : List HostAction} {s : State}
    (h : EngineAt p k d r bits (stmtAction (.wr .arg1 (.lit v)) :: acts) s) :
    ∃ t, Reaches s t ∧ EngineAt p k d r bits acts t ∧ t.arg1 = v := by
  have hstep : step s = .next (respond .ack (progress (setArg1 v (withHost acts s)))) := step_idle_write h.idle h.host
  refine ⟨_, .step hstep (.refl _), ?_, rfl⟩
  obtain ⟨⟨hb, hp, hr, hs⟩, hy, hpoly, horder, hseed, hlfsr, htaken, -⟩ := h
  constructor <;> simp [Idle, *]

/-- A `WR CMD` of GENERATE and the `TAKE` of its `n` beats, `n` standing in ARG1. -/
theorem EngineAt.generate {p : Word} {k : Nat} {d r : Word} {bits : List Bool} {acts : List HostAction} {s : State} {n : Nat}
    {x : String} (h : EngineAt p k d r bits (stmtAction (wrCmd (encode .generate)) :: stmtAction (.take (.lit n) x) :: acts) s)
    (hn : s.arg1.toInt = n) :
    ∃ t, Reaches s t ∧ EngineAt p k d (advanceTimes p k n r) (bits ++ outputBits p k n r) acts t := by
  have hrunning := running_acceptedWord (w := encode .generate) (i := .generate) (stmtAction (.take (.lit n) x) :: acts)
    h.idle (by decide)
  obtain ⟨t, ht, hengine⟩ := generates_of_accepted hrunning rfl (by simp [acceptedWord, h.ready])
    (by simpa [acceptedWord] using hn) rfl
  refine ⟨t, .step (step_idle_command h.idle h.host) ht, ?_⟩
  simpa [acceptedWord, h.poly, h.order, h.seed, h.lfsr, h.taken] using hengine

theorem toNat_toInt_of_nonneg {n : Word} (h : 0 ≤ n.toInt) : n.toInt.toNat = n.toNat := by
  have := n.isLt
  rw [BitVec.toInt_eq_toNat_cond] at h ⊢
  split <;> split at h <;> omega

/-- A program `GEN n` of `n >= 0` bits (30_encoding.md R79). -/
theorem EngineAt.gen {p : Word} {k : Nat} {d r : Word} {bits : List Bool} {rest : List HostAction} {s : State} {n : Word}
    {x : String} (h : EngineAt p k d r bits (programActions (expand (.gen (.lit n) x)) ++ rest) s) (hn : 0 ≤ n.toInt) :
    ∃ t, Reaches s t ∧ EngineAt p k d (advanceTimes p k n.toNat r) (bits ++ outputBits p k n.toNat r) rest t := by
  obtain ⟨t, ht, htEngine, harg⟩ := EngineAt.writeArg1 h
  obtain ⟨u, hu, huEngine⟩ := htEngine.generate (by rw [harg, Int.toNat_of_nonneg hn])
  obtain ⟨w, hw, hwEngine⟩ := huEngine.wait
  rw [toNat_toInt_of_nonneg hn] at hwEngine
  exact ⟨w, ht.trans (hu.trans hw), hwEngine⟩

/-- INIT in its pre-shift, with `n` advances left, constructs the engine from its register `n` advances later. -/
theorem engineAt_of_preShift (n : Nat) : ∀ s : State, Running .init s → s.begun = true → s.remain = n →
    ∃ t, Reaches s t ∧ EngineAt s.larg0 (hsb s.larg0) (advanceTimes s.larg0 (hsb s.larg0) n s.work)
      (advanceTimes s.larg0 (hsb s.larg0) n s.work) s.taken s.host t := by
  induction n with
  | zero =>
    intro s h hg hm
    refine ⟨_, .step ((step_running h).trans (execInit_ends (s := progress s) hg hm)) (.refl _), ?_⟩
    constructor <;> simp [finishInit, initPolynomial, Idle, h.rstN, h.sched, h.pnOut, hsb_lt]
  | succ n ih =>
    intro s h hg hm
    have hstep := (step_running h).trans (execInit_shifts (s := progress s) hg (by simp [hm]))
    obtain ⟨t, ht, he⟩ := ih (preShift s.larg0 (hsb s.larg0) (progress s)) ⟨h.rstN, h.busy, h.sched, h.pnOut, h.decoded⟩
      hg (by simp [hm])
    exact ⟨t, .step hstep ht, by simpa [advanceTimes] using he⟩

/-- INIT, just accepted, with arguments that pass its checks, constructs the engine (41_engine.md R126). -/
theorem engineAt_of_init {s : State} (h : Running .init s) (hg : s.begun = false) (h0 : s.larg0 ≠ 0#32)
    (h1 : s.larg0 ≠ 1#32) (h2 : s.larg2 ≠ 0#32) {r : Word}
    (hr : r = advanceTimes s.larg0 (hsb s.larg0) s.larg1.toNat (s.larg2 &&& mask (hsb s.larg0))) :
    ∃ t, Reaches s t ∧ EngineAt s.larg0 (hsb s.larg0) r r s.taken s.host t := by
  have hstep := (step_running h).trans
    (execInit_starts (s := progress s) hg h0 h2 (mt (hsb_eq_zero_iff h0).1 h1))
  obtain ⟨t, ht, he⟩ := engineAt_of_preShift s.larg1.toNat
    (enterLoop s.larg1.toNat (setWork (s.larg2 &&& mask (hsb s.larg0)) (progress s)))
    ⟨h.rstN, h.busy, h.sched, h.pnOut, h.decoded⟩ rfl rfl
  exact ⟨t, .step hstep ht, by simpa [hr] using he⟩

/-- The state after a host's `WR`s of INIT's arguments. -/
def initArgsWritten (p sh v : Word) (acts : List HostAction) (s : State) : State :=
  { s with arg0 := p, arg1 := sh, arg2 := v, host := acts, responses := s.responses ++ [.ack, .ack, .ack],
           freeIdx := s.freeIdx + 3 }

/-- A host writes INIT's arguments in three steps. -/
theorem reaches_initArgsWritten {p sh v : Word} {acts : List HostAction} {s : State} (hi : Idle s)
    (hh : s.host = stmtAction (.wr .arg0 (.lit p)) :: stmtAction (.wr .arg1 (.lit sh)) ::
      stmtAction (.wr .arg2 (.lit v)) :: acts) : Reaches s (initArgsWritten p sh v acts s) := by
  refine .step (step_idle_write hi hh) (.step (step_idle_write (by simpa [busWrite, writeWindow, Idle] using hi) rfl)
    (.step (step_idle_write (by simpa [busWrite, writeWindow, Idle] using hi) rfl) ?_))
  refine ⟨0, congrArg Host.Outcome.next ?_⟩
  simp [busWrite, writeWindow, initArgsWritten, respond, progress, withHost, setArg0, setArg1, setArg2]

/-- A program `INIT p,sh,v` with arguments that pass INIT's checks (30_encoding.md R79). -/
theorem engineAt_of_initProgram {s : State} {p sh v : Word} {rest : List HostAction} (hi : Idle s)
    (hh : s.host = programActions (expand (.init (.lit p) (.lit sh) (.lit v))) ++ rest) (h0 : p ≠ 0#32) (h1 : p ≠ 1#32)
    (h2 : v ≠ 0#32) {r : Word} (hr : r = advanceTimes p (hsb p) sh.toNat (v &&& mask (hsb p))) :
    ∃ t, Reaches s t ∧ EngineAt p (hsb p) r r s.taken rest t := by
  have hwritten := reaches_initArgsWritten hi hh
  have hidle : Idle (initArgsWritten p sh v (stmtAction (wrCmd (encode .init)) :: stmtAction .wait :: rest) s) := hi
  have hrunning := running_acceptedWord (w := encode .init) (i := .init) (stmtAction .wait :: rest) hidle (by decide)
  obtain ⟨t, ht, he⟩ := engineAt_of_init hrunning rfl h0 h1 h2 hr
  obtain ⟨u, hu, hdone⟩ := EngineAt.wait he
  exact ⟨u, hwritten.trans (.step (step_idle_command hidle rfl) (ht.trans hu)), hdone⟩

/-- A program `INIT p,sh,v; GEN m` given to the host of an idle block. -/
theorem runs_initGen {s : State} (hi : Idle s) {p sh v m : Word} {x : String} (h0 : p ≠ 0#32) (h1 : p ≠ 1#32)
    (h2 : v ≠ 0#32) (hm : 0 ≤ m.toInt) {r : Word} (hr : r = advanceTimes p (hsb p) sh.toNat (v &&& mask (hsb p))) :
    ∃ n t, stepTimes n { s with
        host := programActions (expand (.init (.lit p) (.lit sh) (.lit v)) ++ expand (.gen (.lit m) x)) } = .next t ∧
      RunEnded t ∧ t.taken = s.taken ++ outputBits p (hsb p) m.toNat r := by
  rw [programActions_append]
  obtain ⟨t, ht, hconstructed⟩ := engineAt_of_initProgram (s := { s with
    host := programActions (expand (.init (.lit p) (.lit sh) (.lit v))) ++ programActions (expand (.gen (.lit m) x)) })
    hi rfl h0 h1 h2 hr
  obtain ⟨u, hu, hgenerated⟩ := EngineAt.gen (rest := []) hconstructed hm
  obtain ⟨n, hn⟩ := ht.trans hu
  exact ⟨n, u, hn, hgenerated.runEnded, hgenerated.taken⟩

/-- An idle engine to whose host a program is given. -/
theorem engineAt_of_idle {s : State} (hi : Idle s) (hy : s.ready = true) (acts : List HostAction) :
    EngineAt s.poly s.order.toNat s.seed s.lfsr s.taken acts { s with host := acts } :=
  ⟨hi, hy, rfl, rfl, rfl, rfl, rfl, rfl⟩

/-- A sum of counts below `2 ^ 31` is a count: it does not wrap, and it is not negative. -/
theorem count_add {a b : Word} (h : a.toNat + b.toNat < 2 ^ 31) :
    (a + b).toNat = a.toNat + b.toNat ∧ 0 ≤ (a + b).toInt ∧ 0 ≤ a.toInt := by
  have hsum : (a + b).toNat = a.toNat + b.toNat := by rw [BitVec.toNat_add, Nat.mod_eq_of_lt (by omega)]
  refine ⟨hsum, ?_, ?_⟩ <;> rw [BitVec.toInt_eq_toNat_cond, if_pos (by omega)] <;> omega

/-- Settles O33: the bits of `a + b` advances are those of `a` and then those of `b`. -/
theorem generateSplitsIntoTwo : Obligations.GenerateSplitsIntoTwo := by
  intro s a b x y z hi hy ha hb hab
  obtain ⟨hsum, hsumInt, -⟩ := count_add hab
  simp only [programActions_append]
  obtain ⟨t, ht, htEngine⟩ := (engineAt_of_idle hi hy
    (programActions (expand (.gen (.lit a) x)) ++ programActions (expand (.gen (.lit b) y)))).gen ha
  obtain ⟨t, ht', htEngine⟩ := EngineAt.gen (rest := []) htEngine hb
  obtain ⟨m, hm⟩ := ht.trans ht'
  obtain ⟨u, ⟨n, hn⟩, huEngine⟩ := EngineAt.gen (x := z) (rest := []) (engineAt_of_idle hi hy _) hsumInt
  rw [hsum, advanceTimes_add, outputBits_add, ← List.append_assoc] at huEngine
  refine ⟨m, n, t, u, hm, htEngine.runEnded, hn, huEngine.runEnded, htEngine.taken.trans huEngine.taken.symm, ?_,
    htEngine.lfsr.trans huEngine.lfsr.symm⟩
  simp [htEngine.taken]

/-- Settles O34: RESET takes LFSR back to SEED, where the first GENERATE began. -/
theorem rewindReproducesTheBits : Obligations.RewindReproducesTheBits := by
  intro s n x y hi hy hseed hn
  simp only [programActions_append, List.append_assoc]
  obtain ⟨t, ht, hfirst⟩ := (engineAt_of_idle hi hy (programActions (expand (.gen (.lit n) x)) ++
    (programActions (expand .reset) ++ programActions (expand (.gen (.lit n) y))))).gen hn
  obtain ⟨u, hu, hrewound⟩ := hfirst.reset
  obtain ⟨w, hw, hsecond⟩ := EngineAt.gen (rest := []) hrewound hn
  obtain ⟨m, hm⟩ := ht.trans (hu.trans hw)
  refine ⟨m, w, outputBits s.poly s.order.toNat n.toNat s.lfsr, hm, hsecond.runEnded, outputBits_length _ _ _ _, ?_⟩
  rw [hsecond.taken, ← hseed, List.append_assoc]

/-- Settles O35: the register after the pre-shift is the one that `sh` emitted bits lead to. -/
theorem preShiftStartsTheStreamLater : Obligations.PreShiftStartsTheStreamLater := by
  intro s p sh v m x y hi h0 h1 h2 hlt
  obtain ⟨hsum, hsumInt, -⟩ := count_add hlt
  obtain ⟨-, -, hm⟩ := count_add (Nat.add_comm _ _ ▸ hlt)
  obtain ⟨a, t, ha, htEnded, htTaken⟩ := runs_initGen hi (sh := sh) (x := x) h0 h1 h2 hm rfl
  obtain ⟨b, u, hb, huEnded, huTaken⟩ := runs_initGen hi (sh := 0#32) (x := y) h0 h1 h2 hsumInt rfl
  refine ⟨a, b, t, u, _, _, ha, htEnded, hb, huEnded, htTaken, huTaken, outputBits_length _ _ _ _, ?_⟩
  rw [hsum, outputBits_add, List.drop_left' (outputBits_length _ _ _ _)]
  rfl

end Sys2Proof.Machine

/-! PROOFS. Failures and their absence (60_exceptions.md): what a failing command does and why it fails, which of several
conditions counts, and a GENERATE whose host takes no beat. -/

namespace Sys2Proof.Machine

/-! ### Failing commands -/

/-- The causes of INVALID_ARGUMENT, by command (60_exceptions.md R162). -/
abbrev FailsItsChecks (i : Instr) (s : State) : Prop :=
  (i = .init ∧ (s.larg0 = 0#32 ∨ s.larg2 = 0#32 ∨ s.larg0 = 1#32)) ∨ (i = .reset ∧ s.ready = false) ∨
    (i = .generate ∧ (s.ready = false ∨ s.larg1.toInt < 0))

/-- INIT's check of the order refuses the polynomial 1 and what its first check refuses (41_engine.md R126). -/
theorem init_causes_iff (s : State) :
    (s.larg0 = 0#32 ∨ s.larg2 = 0#32 ∨ hsb s.larg0 = 0) ↔ (s.larg0 = 0#32 ∨ s.larg2 = 0#32 ∨ s.larg0 = 1#32) := by
  by_cases h0 : s.larg0 = 0#32
  · simp [h0]
  · rw [hsb_eq_zero_iff h0]

/-- A command just accepted that fails its checks completes with INVALID_ARGUMENT and does nothing else. -/
theorem exec_of_failsItsChecks {i : Instr} {s : State} (hg : s.begun = false) (h : FailsItsChecks i s) :
    exec i s = .next (complete .invalidArgument s) := by
  rcases h with ⟨rfl, h⟩ | ⟨rfl, hy⟩ | ⟨rfl, h⟩
  · exact execInit_fails hg ((init_causes_iff s).2 h)
  · exact execReset_of_not_ready hy
  · exact execGenerate_fails hg h

/-- The completions of INIT. -/
theorem execInit_completes {s t : State} (hb : s.busy = true) (h : exec .init s = .next t) (ht : t.busy = false) :
    t.code = .ok ∨ (t = complete .invalidArgument s ∧ s.begun = false ∧ FailsItsChecks .init s) := by
  rcases execInit_cases h with ⟨hg, rfl⟩ | ⟨-, -, rfl⟩ | ⟨-, -, rfl⟩
  · rcases startInit_cases s with ⟨he, hcause⟩ | ⟨he, -⟩ <;> rw [he] at ht ⊢
    · exact .inr ⟨rfl, hg, .inl ⟨rfl, (init_causes_iff s).1 hcause⟩⟩
    · simp [hb] at ht
  · exact .inl rfl
  · simp [hb] at ht

/-- The completions of GENERATE. -/
theorem execGenerate_completes {s t : State} (hb : s.busy = true) (h : exec .generate s = .next t) (ht : t.busy = false) :
    t.code = .ok ∨ (t = complete .invalidArgument s ∧ s.begun = false ∧ FailsItsChecks .generate s) := by
  rcases execGenerate_cases h with ⟨hg, rfl⟩ | ⟨-, -, rfl⟩ | ⟨-, -, -, rfl⟩ | ⟨-, -, -, rfl⟩
  · rcases startGenerate_cases s with ⟨he, hcause⟩ | ⟨he, -⟩ <;> rw [he] at ht ⊢
    · exact .inr ⟨rfl, hg, .inr (.inr ⟨rfl, hcause⟩)⟩
    · simp [hb] at ht
  · simp [hb] at ht
  · exact .inl rfl
  · simp [hb] at ht

/-- A command that completes does so with OK, or it has failed its checks, which INIT and GENERATE make before their loop, and
done nothing else (60_exceptions.md R162, R163). -/
theorem exec_completes {i : Instr} {s t : State} (hb : s.busy = true) (h : exec i s = .next t) (ht : t.busy = false) :
    t.code = .ok ∨ (t = complete .invalidArgument s ∧ (s.begun = false ∨ i = .reset) ∧ FailsItsChecks i s) := by
  cases i
  case init => exact (execInit_completes hb h ht).imp_right fun ⟨he, hg, hc⟩ => ⟨he, .inl hg, hc⟩
  case generate => exact (execGenerate_completes hb h ht).imp_right fun ⟨he, hg, hc⟩ => ⟨he, .inl hg, hc⟩
  case reset =>
    rcases execReset_cases h with ⟨-, rfl⟩ | ⟨hy, rfl⟩
    · exact .inl rfl
    · exact .inr ⟨rfl, .inr rfl, .inr (.inl ⟨rfl, hy⟩)⟩
  all_goals
    cases h
    exact .inl rfl

/-- Settles O36: the failing checks, and by `exec_completes` no other failure. -/
theorem invalidArgumentHasExactlyTheseCauses : Obligations.InvalidArgumentHasExactlyTheseCauses := by
  refine ⟨fun i s hb hg => ⟨⟨?causes, fun hc => ⟨_, exec_of_failsItsChecks hg hc, rfl, rfl⟩⟩, ?otherwise⟩, ?loop⟩
  case causes =>
    rintro ⟨t, h, ht, hcode⟩
    rcases exec_completes hb h ht with hok | ⟨-, -, hc⟩
    · simp [hcode] at hok
    · exact hc
  case otherwise =>
    intro t h ht hcode
    rcases exec_completes hb h ht with hok | ⟨rfl, -⟩
    · exact hok
    · exact absurd rfl hcode
  case loop =>
    intro i s t hi hb hg h ht
    rcases exec_completes hb h ht with hok | ⟨-, hg' | rfl, -⟩
    · exact hok
    · simp [hg] at hg'
    · simp at hi

/-- Settles O37: a failure is an illegal word's or a failed check's, and either way only completes the command. -/
theorem failingCommandsHaveNoOtherEffect : Obligations.FailingCommandsHaveNoOtherEffect := by
  intro s t hruns h ht hcode
  cases hd : decode s.lcmd with
  | error e =>
    rw [step_of_blockRuns_illegal hruns hd] at h
    injection h with h
    subst h
    rfl
  | ok i =>
    rw [step_of_blockRuns hruns hd] at h
    have hb : (blockStarts s).busy = true := by simpa [blockStarts] using hruns.2.2
    rcases exec_completes hb h ht with hok | ⟨rfl, -⟩
    · exact absurd hok hcode
    · rfl

/-! ### Priority -/

/-- Settles O38: illegal accesses, dropped CMD writes, illegal words, and GENERATE with both causes of failure. -/
theorem conditionsHaveTheirPriority : Obligations.ConditionsHaveTheirPriority := by
  refine ⟨fun s off width v rest h hill => ?access, cmdWritesAreAcceptedOrDropped.2,
    fun s e hruns hd => step_of_blockRuns_illegal hruns hd, fun s hruns hd hg hy hn => ?generate⟩
  case access =>
    obtain ⟨ha, hh, -⟩ := h
    exact illegalAccessesHaveNoEffect s _ rest ha hh hill
  case generate =>
    obtain ⟨-, -, -, -, hready⟩ := sameEngine_blockStarts s
    rw [step_of_blockRuns hruns hd]
    exact execGenerate_fails (by simpa [blockStarts] using hg) (.inl (hready.trans hy))

/-! ### No step is refused while `rst_n` is released -/

theorem busAccess_next {s : State} (hr : s.rstN = true) (a : Access) : ∃ t, busAccess a s = .next t := by
  cases a <;> simp only [busAccess, hr, if_true] <;> split <;> exact ⟨_, rfl⟩

theorem hostTurn_next {s : State} (hr : s.rstN = true) : ∃ t, hostTurn s = .next t := by
  unfold hostTurn
  split
  case h_2 | h_3 | h_4 | h_5 => exact busAccess_next (by simpa [nameRead] using hr) _
  all_goals exact ⟨_, rfl⟩

theorem blockTurn_next (s : State) : ∃ t, blockTurn s = .next t := by
  unfold blockTurn
  split
  · exact runCommand_next _
  · exact ⟨_, rfl⟩

/-- With `rst_n` released every step answers a next state (70_reset_and_hazards.md R180). -/
theorem step_next {s : State} (hr : s.rstN = true) : ∃ t, step s = .next t := by
  cases ha : nextAgent s with
  | block => rw [step_block ha]; exact blockTurn_next _
  | host => rw [step_host ha]; exact hostTurn_next (by simpa using hr)

/-! ### A GENERATE whose host takes no beat -/

/-- An action that neither takes beats nor drives `rst_n`. -/
abbrev LeavesBeats (a : HostAction) : Prop :=
  (∀ x, a ≠ .take x) ∧ (∀ k x, a ≠ .takeCount k x) ∧ a ≠ .rstN false ∧ a ≠ .rstN true

theorem not_leavesBeats_rstN (level : Bool) : ¬ LeavesBeats (.rstN level) := by
  rintro ⟨-, -, hlow, hhigh⟩
  cases level
  · exact hlow rfl
  · exact hhigh rfl

/-- `rst_n` is released, and the host neither drives it nor takes beats. -/
structure HostLeavesBeats (s : State) : Prop where
  rstN : s.rstN = true
  actions : ∀ a ∈ s.host, LeavesBeats a

/-- Such a host's next step is no hardware reset. -/
theorem HostLeavesBeats.resetsNext_eq_false {s : State} (h : HostLeavesBeats s) : resetsNext s = false := by
  by_contra hr
  obtain ⟨level, rest, hh, -⟩ := step_of_resetsNext (Bool.eq_true_of_not_eq_false hr)
  exact not_leavesBeats_rstN level (h.actions _ (by simp [hh]))

/-- A host stays one of that kind while it does its actions. -/
theorem HostLeavesBeats.of_hostTurn {s t : State} (h : HostLeavesBeats s) (hs : hostTurn s = .next t) : HostLeavesBeats t := by
  have first : ∀ {a rest}, s.host = a :: rest → LeavesBeats a := fun hh => h.actions _ (by simp [hh])
  have later : ∀ {a rest}, s.host = a :: rest → ∀ b ∈ rest, LeavesBeats b := fun hh b hb => h.actions b (by simp [hh, hb])
  apply hostTurn_elim hs
  case nothing => exact fun _ => h
  case error => exact fun a rest hh => ⟨h.rstN, later hh⟩
  case read => exact fun a off n rest w hh _ _ => ⟨h.rstN, later hh⟩
  case write =>
    rintro a off v rest x hh - - - (rfl | ⟨-, rfl⟩ | ⟨-, rfl⟩ | ⟨-, rfl⟩ | ⟨-, -, rfl⟩ | ⟨-, -, rfl⟩)
    all_goals exact ⟨h.rstN, later hh⟩
  case poll =>
    intro rest w hh _
    rw [afterPoll]
    split
    · exact ⟨h.rstN, h.actions⟩
    · exact ⟨h.rstN, later hh⟩
  case starts => exact fun k x rest hh => absurd rfl ((first hh).2.1 k x)
  case taken => exact fun x rest b v hh _ => absurd rfl ((first hh).1 x)
  case waits => exact fun x rest hh _ => absurd rfl ((first hh).1 x)
  case noEdge => exact fun rest hh _ => absurd (first hh) (not_leavesBeats_rstN true)
  case resets => exact fun level rest hh _ => absurd (first hh) (not_leavesBeats_rstN level)

/-- The command's own step touches neither `rst_n` nor the host's actions. -/
theorem runCommand_keepsHost {s t : State} (h : runCommand s = .next t) : t.rstN = s.rstN ∧ t.host = s.host := by
  apply runCommand_elim h
  all_goals intros; exact ⟨rfl, rfl⟩

/-- Whoever moves, it stays one of that kind. -/
theorem HostLeavesBeats.of_step {s t : State} (h : HostLeavesBeats s) (hs : step s = .next t) : HostLeavesBeats t := by
  apply step_elim hs HostLeavesBeats
  case blockIdle => exact fun _ _ => ⟨h.rstN, h.actions⟩
  case blockRuns =>
    intro _ _ _ hrun
    obtain ⟨hr, hh⟩ := runCommand_keepsHost hrun
    exact ⟨by simpa [hr] using h.rstN, by simpa [hh] using h.actions⟩
  case host => exact fun _ hturn => HostLeavesBeats.of_hostTurn (s := afterTurn s) ⟨h.rstN, h.actions⟩ hturn

/-- In `t` the GENERATE of `s` still waits with the bit `b` on offer, as it did in `s`. -/
structure StillOffers (b : Bool) (s t : State) : Prop where
  pnOut : t.pnOut = some b
  lcmd : t.lcmd = s.lcmd
  lfsr : t.lfsr = s.lfsr
  taken : t.taken = s.taken

/-- One step of a GENERATE whose host takes no beat: the beat holds and the command it has latched is kept. -/
theorem step_stillOffers {s t : State} {b : Bool} (hi : BlockInv s) (hl : HostLeavesBeats s) (hp : s.pnOut = some b)
    (h : step s = .next t) : StillOffers b s t := by
  obtain ⟨hb, -, -⟩ := hi.2.1.1 (by simp [hp])
  obtain ⟨hlcmd, -⟩ := latchedArgumentsAreKeptWhileBusy s t hb hl.resetsNext_eq_false h
  rcases offeredBeatHoldsUntilItTransfers s t b hi hp hl.resetsNext_eq_false h with
    ⟨hpt, htaken, hlfsr, -⟩ | ⟨-, -, -, -, -, x, hx⟩
  · exact ⟨hpt, hlcmd, hlfsr, htaken⟩
  · exact absurd rfl ((hl.actions _ (List.mem_of_mem_head? hx)).1 x)

/-- Any number of steps of a GENERATE whose host takes no beat. -/
theorem stepTimes_stillOffers {b : Bool} (n : Nat) : ∀ s : State, BlockInv s → HostLeavesBeats s → s.pnOut = some b →
    ∃ t, stepTimes n s = .next t ∧ BlockInv t ∧ StillOffers b s t := by
  induction n with
  | zero => exact fun s hi _ hp => ⟨s, rfl, hi, hp, rfl, rfl, rfl⟩
  | succ n ih =>
    intro s hi hl hp
    obtain ⟨u, hu⟩ := step_next hl.rstN
    have hsu := step_stillOffers hi hl hp hu
    obtain ⟨t, ht, hit, htu⟩ := ih u (everyStepKeepsTheInvariant s u hi hu) (hl.of_step hu) hsu.pnOut
    exact ⟨t, (stepTimes_of_step n hu).trans ht, hit, htu.pnOut, htu.lcmd.trans hsu.lcmd, htu.lfsr.trans hsu.lfsr,
      htu.taken.trans hsu.taken⟩

/-- Settles O59, by induction on the number of steps; a bit on offer keeps BUSY = 1 by the invariant. -/
theorem generateWithoutItsBeatsHangs : Obligations.GenerateWithoutItsBeatsHangs := by
  intro s b hi hr hp hhost n
  obtain ⟨t, ht, ⟨-, ⟨hoffer, -⟩, -⟩, hs⟩ := stepTimes_stillOffers n s hi ⟨hr, hhost⟩ hp
  obtain ⟨hb, -, -⟩ := hoffer (by simp [hs.pnOut])
  exact ⟨t, ht, hb, hs.pnOut, hs.lcmd, hs.lfsr, hs.taken⟩

end Sys2Proof.Machine

/-! PROOFS. Hardware reset and hazards (70_reset_and_hazards.md): an asserted reset, turns with nothing to do, reads while busy,
and the completion of every command that waits for nobody. -/

namespace Sys2Proof.Machine

/-! ### While `rst_n` is asserted -/

/-- While `rst_n` is asserted a step that is no hardware reset delivers no bit and does not release `rst_n`
(70_reset_and_hazards.md R180). -/
theorem step_staysInReset {s t : State} (hi : BlockInv s) (hrst : s.rstN = false) (hr : resetsNext s = false)
    (h : step s = .next t) : t.rstN = false ∧ t.taken = s.taken := by
  obtain ⟨-, -, -, -, -, -, -, -, -, -, -, -, hp⟩ := hi.2.2 hrst
  refine step_elim h (fun t => t.rstN = false ∧ t.taken = s.taken) ?blockIdle ?blockRuns ?host
  case blockIdle => exact fun _ _ => ⟨hrst, rfl⟩
  case blockRuns => exact fun _ hhigh => by simp [hrst] at hhigh
  case host =>
    intro ha hturn
    apply hostTurn_elim hturn
    case read => exact fun a off n rest w _ _ hhigh => by simp [hrst] at hhigh
    case write => exact fun a off v rest x _ _ _ hhigh => by simp [hrst] at hhigh
    case noEdge => exact fun rest _ hhigh => by simp [hrst] at hhigh
    case taken => exact fun x rest b v _ hoffer => by simp [hp] at hoffer
    case poll => exact fun rest w _ => by simp [hrst]
    case resets => exact fun level rest hh hl => (no_edge_of_resetsNext_false ha hr hh hl).elim
    all_goals intros; exact ⟨hrst, rfl⟩

/-- Settles O53: the step is a hardware reset, or `rst_n` stays low and the invariant gives the reset values. -/
theorem assertedResetHoldsTheBlock : Obligations.AssertedResetHoldsTheBlock := by
  intro s t hi hrst h
  cases hr : resetsNext s with
  | true =>
    obtain ⟨u, hu, hvalues, htaken, -⟩ := hardwareResetLeavesTheResetValues.1 s hr
    obtain rfl : u = t := by simpa [hu] using h
    exact ⟨hvalues, htaken, fun _ => rfl⟩
  | false =>
    obtain ⟨hlow, htaken⟩ := step_staysInReset hi hrst hr h
    obtain ⟨-, -, hvalues⟩ := everyStepKeepsTheInvariant s t hi h
    exact ⟨hvalues hlow, htaken, fun hhigh => by simp [hlow] at hhigh⟩

/-! ### Turns with nothing to do -/

/-- Settles O9: each agent's turn where it has nothing to do. -/
theorem agentsWithoutAStepChangeNothing : Obligations.AgentsWithoutAStepChangeNothing := by
  refine ⟨fun s ha hb => ?noCommand, fun s b hruns hd hg hp => ?beatOnOffer, fun s ha hh => ?noAction⟩
  case noCommand =>
    rw [step_block ha]
    simp [blockTurn, hb]
  case beatOnOffer => exact step_block_waits hruns.1 hd hg hp
  case noAction => rw [step_host ha, hostTurn, afterTurn_host, hh]

/-! ### Reads while BUSY = 1 (R186) -/

/-- While BUSY = 1 a read of a view returns a free value. -/
theorem exactWhenIdle_of_busy {s : State} (hb : s.busy = true) (off : Nat) (v : Word) :
    exactWhenIdle off v s = Config.freeBusyRead off s.freeIdx := by
  simp [exactWhenIdle, hb]

/-- While BUSY = 1 a read of STATUS returns its exact fields with a free CODE and READY. -/
theorem readStatus_of_busy {s : State} (hb : s.busy = true) (off : Nat) :
    readStatus off s = statusWhileBusy (Config.freeBusyRead off s.freeIdx) s := by
  simp [readStatus, hb]

/-- Bits 2 and 3 of a STATUS word are reserved (10_state.md R34). -/
theorem statusFields_reserved : ∀ (c : BitVec 2) (b y o : Bool),
    (statusFields c b y o).getLsbD 2 = false ∧ (statusFields c b y o).getLsbD 3 = false := by
  decide

/-- While BUSY = 1 RESULT and the views of the engine read as free values. -/
theorem readWindow_view_of_busy {s : State} (hb : s.busy = true) {off : Nat} (hfour : off % 4 = 0) (hlo : 0x14 ≤ off)
    (hhi : off ≤ 0x24) : readWindow off s = Config.freeBusyRead off s.freeIdx := by
  have hoff : off = 0x14 ∨ off = 0x18 ∨ off = 0x1C ∨ off = 0x20 ∨ off = 0x24 := by omega
  rcases hoff with rfl | rfl | rfl | rfl | rfl <;> exact exactWhenIdle_of_busy hb _ _

/-- Settles O41: the read of each offset, STATUS by the places of its fields. -/
theorem busyReadsAreExactOnlyWhereStated : Obligations.BusyReadsAreExactOnlyWhereStated := by
  intro s a off x rest h ha hb hoff
  refine ⟨readWindow off.val s, step_read h ha hoff, ?_, ?status, ?_, ?_, ?_, ?free, ?reserved⟩
  case status =>
    intro ho
    rw [ho, readWindow, regAt, readStatus_of_busy hb, statusWhileBusy]
    obtain ⟨hcode, -, hbusy, hready, hovr, habove⟩ :=
      statusFields_places ((Config.freeBusyRead 0x10 s.freeIdx).extractLsb' 0 2) s.busy
        ((Config.freeBusyRead 0x10 s.freeIdx).getLsbD 5) s.ovr
    obtain ⟨htwo, hthree⟩ := statusFields_reserved _ _ _ _
    exact ⟨hbusy.trans hb, hovr, htwo, hthree, habove, hcode, hready⟩
  case free => exact readWindow_view_of_busy hb hoff
  case reserved => intro ho; simp [readWindow, regAt_of_reserved ho]
  all_goals intro ho; simp [readWindow, regAt, ho]

/-! ### Commands that wait for nobody (R188) -/

/-- Under the default schedule, a command other than GENERATE is in progress, or an illegal word is (log 2). -/
structure WaitsForNobody (s : State) : Prop where
  inv : BlockInv s
  rstN : s.rstN = true
  busy : s.busy = true
  sched : s.sched = []
  notGenerate : decode s.lcmd ≠ .ok .generate

/-- Such a command offers no beat. -/
theorem WaitsForNobody.pnOut {s : State} (h : WaitsForNobody s) : s.pnOut = none := by
  obtain ⟨-, hc, -⟩ := h.inv
  exact pnOut_eq_none_of_not_generate hc h.notGenerate

/-- Every step is the command's own. -/
theorem WaitsForNobody.step_eq {s : State} (h : WaitsForNobody s) : step s = runCommand (beginStep s) := by
  have ha : nextAgent s = .block := by simp [nextAgent, blockEnabled, h.sched, h.rstN, h.busy, h.pnOut]
  rw [step_block ha, afterTurn_of_sched_nil h.sched]
  simp [blockTurn, h.rstN, h.busy]

theorem runCommand_keepsSched {s t : State} (h : runCommand s = .next t) : t.sched = s.sched := by
  apply runCommand_elim h
  all_goals intros; rfl

/-- Each step completes the command, or leaves one step fewer for it to take. -/
theorem WaitsForNobody.step_countsDown {s : State} (h : WaitsForNobody s) :
    ∃ t, step s = .next t ∧ (t.busy = false ∨ (WaitsForNobody t ∧ stepsOwed t + 1 = stepsOwed s)) := by
  obtain ⟨t, hrun⟩ := runCommand_next (beginStep s)
  have hstep := h.step_eq.trans hrun
  refine ⟨t, hstep, ?_⟩
  rcases runCommand_countsDown (by simpa using h.pnOut) hrun with hdone | ⟨hbusy, howed⟩
  · exact .inl hdone
  · obtain ⟨hrst, -⟩ := runCommand_keepsHost hrun
    obtain ⟨hlcmd, -⟩ := runCommand_keepsLatched hrun
    have hsched := runCommand_keepsSched hrun
    refine .inr ⟨⟨everyStepKeepsTheInvariant s t h.inv hstep, ?_, ?_, ?_, ?_⟩, by simpa using howed⟩
    · simpa [hrst] using h.rstN
    · simpa [hbusy] using h.busy
    · simpa [hsched] using h.sched
    · simpa [hlcmd] using h.notGenerate

/-- The command completes within the steps it owes. -/
theorem WaitsForNobody.completes (m : Nat) : ∀ s : State, WaitsForNobody s → stepsOwed s ≤ m →
    ∃ n t, n ≤ m ∧ stepTimes n s = .next t ∧ t.busy = false := by
  induction m with
  | zero =>
    intro s _ hm
    unfold stepsOwed at hm
    split at hm <;> omega
  | succ m ih =>
    intro s h hm
    obtain ⟨u, hu, hdone | ⟨hwaits, howed⟩⟩ := h.step_countsDown
    · exact ⟨1, u, by omega, (stepTimes_of_step 0 hu).trans rfl, hdone⟩
    · obtain ⟨n, t, hn, ht, hdone⟩ := ih u hwaits (by omega)
      exact ⟨n + 1, t, by omega, (stepTimes_of_step n hu).trans ht, hdone⟩

/-- It owes at most INIT's advances, the checks and the completion (60_exceptions.md R171). -/
theorem WaitsForNobody.stepsOwed_le {s : State} (h : WaitsForNobody s) : stepsOwed s ≤ s.larg1.toNat + 2 := by
  obtain ⟨-, hc, -⟩ := h.inv
  suffices advancesOwed s ≤ s.larg1.toNat by
    unfold stepsOwed
    split <;> omega
  unfold advancesOwed
  split
  case h_1 hd =>
    split
    case isTrue hg =>
      obtain ⟨-, -, -, -, hremain, -⟩ := initRunning_of_inv hc h.busy hg hd
      exact hremain
    case isFalse => exact Nat.le_refl _
  case h_2 hd => exact absurd hd h.notGenerate
  case h_3 => exact Nat.zero_le _

/-- Settles O60, by induction on the steps the command owes. -/
theorem commandsNotWaitingComplete : Obligations.CommandsNotWaitingComplete := by
  intro s hi hr hb hs hd
  have h : WaitsForNobody s := ⟨hi, hr, hb, hs, hd⟩
  exact WaitsForNobody.completes _ s h h.stepsOwed_le

end Sys2Proof.Machine
